-- ==== Sys2Proof/Word.lean ====
section
/-! DEFINITION. The bit-vector types of the HBS core: words, bytes, register numbers, shift amounts. -/

namespace Sys2Proof

/-- `int32`: a register, a data word, `exResult`, `memResult`, and a binary instruction word. Two's complement; `toInt`
reads it as a signed integer. spec/10_state.md R20, R24; spec/41_arithmetic.md R170; spec/30_encoding.md R74. -/
abbrev Word := BitVec 32

/-- One byte of a serialized program image. spec/20_memory.md R55. -/
abbrev Byte := BitVec 8

/-- A register field: a 5-bit unsigned index into the register file. spec/30_encoding.md R83. -/
abbrev RegIx := BitVec 5

/-- The shift amount field, 0..31. spec/30_encoding.md R82. -/
abbrev ShAmt := BitVec 5

end Sys2Proof
end

