-- ==== Sys2Proof/Config.lean ====
section
/-! DEFINITION. The block's parameters and its configuration record (spec/00_scope.md R6 to R8, spec/10_state.md R33). -/

namespace Sys2Proof

/-- `IMM_BITS` = 16, signed: the least immediate. spec/00_scope.md R6, spec/30_encoding.md R72. -/
abbrev immMin : Int := -32768

/-- The greatest immediate. spec/30_encoding.md R72. -/
abbrev immMax : Int := 32767

/-- The greatest 32-bit byte address, the bound of spec/30_encoding.md R111. -/
abbrev maxAddress : Nat := 4294967295

/-- `cfg`: constant for a whole run, readable and writable by no instruction. spec/10_state.md R33. -/
structure Cfg where
  /-- Narrows the hazard predicate when true. spec/00_scope.md R7, spec/40_pipeline.md R140. -/
  forwardingEnabled : Bool := false
  /-- Opaque and without effect: any value, read by no rule. spec/00_scope.md R8. Held as a number; its default 0 is a
  DESIGN CHOICE, safe (log entry 10). -/
  datapathMode : Nat := 0
deriving DecidableEq, Repr

/-- What a label used before its definition does. spec/30_encoding.md R108. -/
inductive UndefinedLabelPolicy where
  /-- The label's address is taken as 0 (the default). -/
  | zero
  /-- The encoder refuses the program. -/
  | refuse
deriving DecidableEq, Repr

/-- The encoder's parameters, with the spec's defaults. spec/00_scope.md R6. -/
structure EncoderParams where
  /-- `BASE_ADDRESS`: the byte address of instruction store entry 0. spec/20_memory.md R51. -/
  baseAddress : Nat := 0
  /-- `UNDEFINED_LABEL_POLICY`. spec/30_encoding.md R108. -/
  undefinedLabel : UndefinedLabelPolicy := .zero
deriving DecidableEq, Repr

end Sys2Proof
end

