-- ==== Sys2Proof/Syntax.lean ====
section
/-! DEFINITION. The instructions: one constructor of `Instr` per row of spec/opcode_table.json, and the spec's tagged
variant (spec/30_encoding.md R70) they stand for. -/

namespace Sys2Proof

/-- An Instruction value by its form (spec/30_encoding.md R73). Operands stand in assembly order. Register and shift fields
are the 5-bit fields of R82 and R83; the immediate is an integer, and its range (R72) is checked by `Instr.wellFormed`. -/
inductive Instr where
  /-- `add $rd, $rs, $rt` with shift amount `sh`: `rs` is `source_reg_a`, `rt` is `source_reg_b`, `rd` is `dest_reg`.
  spec/41_arithmetic.md R172. -/
  | add (rd rs rt : RegIx) (sh : ShAmt)
  /-- `sub $rd, $rs, $rt` with shift amount `sh`; fields as for `add`. spec/41_arithmetic.md R173. -/
  | sub (rd rs rt : RegIx) (sh : ShAmt)
  /-- `addi $rt, $rs, imm`: `rt` is `target_reg`, `rs` is `source_reg`. spec/41_arithmetic.md R174. -/
  | addi (rt rs : RegIx) (imm : Int)
  /-- `lw $rt, off($rs)`: `rt` is `target_reg`, `rs` is `source_reg`. spec/42_load_store.md R191. -/
  | lw (rt rs : RegIx) (off : Int)
  /-- `sw $rt, off($rs)`: `rt` is `target_reg`, the register stored, `rs` is `source_reg`. spec/42_load_store.md R192. -/
  | sw (rt rs : RegIx) (off : Int)
  /-- `beq $rt, $rs, disp`: `rt` is `target_reg` (the first operand), `rs` is `source_reg` (the second), `disp` the byte
  displacement `current_address - target_address`. spec/43_branch.md R210, spec/30_encoding.md R106, R107. -/
  | beq (rt rs : RegIx) (disp : Int)
  /-- `Unknown`: no operands, an inert slot. spec/44_unknown_and_system.md R230. -/
  | unknown
deriving DecidableEq, Repr

/-- `kind(ins)`, the seven instruction forms. spec/30_encoding.md R73. -/
inductive Kind where
  | add | sub | addi | lw | sw | beq | unknown
deriving DecidableEq, Repr

/-- The tagged variant as the spec writes it, fields in its order and unchecked. spec/30_encoding.md R70. -/
inductive Variant where
  /-- Two-operand arithmetic. -/
  | rType (functionCode shiftAmount destReg sourceRegB sourceRegA : Nat)
  /-- Immediate arithmetic, load, store, branch. -/
  | iType (opcode sourceReg targetReg : Nat) (immediateOrOffset : Int)
  /-- No operands. -/
  | unknown
deriving DecidableEq, Repr

/-- The encoder's reasons to refuse a program text. spec/30_encoding.md R112. -/
inductive RefusalReason where
  | badLabelName | labelAfterMnemonic | badRegister | registerOutOfRange | badLiteral | badMemoryOperand
  | operandCount | operandKind | undefinedLabel | immediateOutOfRange | addressOverflow
deriving DecidableEq, Repr

/-- `refuse <Reason>(line)`: the encoder rejects the whole text. Lines are numbered from 1 (DEDUCED, log entry 11).
spec/30_encoding.md R112. -/
structure TextRefusal where
  reason : RefusalReason
  line : Nat
deriving DecidableEq, Repr

/-- Why a byte image holds no instruction word. The spec gives no rule for it: DESIGN CHOICE, safe (log entry 13). -/
inductive DecodeError where
  /-- Fewer than the four bytes of a word are left (`left` of them). Every full word decodes (spec/30_encoding.md R79). -/
  | partialWord (left : Nat)
deriving DecidableEq, Repr

end Sys2Proof
end

