-- ==== Sys2Proof/WellFormed.lean ====
section
/-! DEFINITION. The range checks of an Instruction (spec/30_encoding.md R72) and the bound of a program (R111). Values out of
range are refused, never truncated. -/

namespace Sys2Proof

/-- `immediate_or_offset` lies in −32768..32767. spec/30_encoding.md R72. -/
def immInRange (v : Int) : Bool := decide (immMin ≤ v ∧ v ≤ immMax)

/-- The check R72 leaves to make on an `Instr`, whose register and shift fields are in range by their type. -/
def Instr.wellFormed : Instr → Bool
  | .add _ _ _ _ => true
  | .sub _ _ _ _ => true
  | .addi _ _ imm => immInRange imm
  | .lw _ _ off => immInRange off
  | .sw _ _ off => immInRange off
  | .beq _ _ disp => immInRange disp
  | .unknown => true

/-- A register field lies in 0..31. spec/30_encoding.md R72. -/
def regInRange (n : Nat) : Bool := decide (n < 32)

/-- The field ranges of the tagged variant. spec/30_encoding.md R72. -/
def Variant.wellFormed : Variant → Bool
  | .rType f sh rd rb ra =>
    (f == 0x20 || f == 0x22) && decide (sh < 32) && regInRange rd && regInRange rb && regInRange ra
  | .iType op rs rt imm =>
    (op == 0x08 || op == 0x23 || op == 0x2B || op == 0x04) && regInRange rs && regInRange rt && immInRange imm
  | .unknown => true

/-- Every address of the program, and the one after its last instruction, fits in 32 bits. spec/30_encoding.md R111. -/
def addressesFit (p : EncoderParams) (n : Nat) : Bool := decide (p.baseAddress + 4 * n ≤ maxAddress)

/-- A program is a list of well-formed instructions. spec/30_encoding.md R72. -/
def programWellFormed (prog : List Instr) : Bool := prog.all Instr.wellFormed

end Sys2Proof
end

