-- ==== Sys2Proof/Decode.lean ====
section
/-! DEFINITION. Words and instructions: the decoder (spec/30_encoding.md R79), the encoder of words (R78), the tagged variant
(R70 to R73), and the little-endian byte image (spec/20_memory.md R55). -/

namespace Sys2Proof

/-! ### Fields of a word (spec/30_encoding.md R75, R76) -/

/-- `w[31:26]`. -/
def opcodeField (w : Word) : BitVec 6 := w.extractLsb' 26 6
/-- `w[25:21]`, rs. -/
def rsField (w : Word) : RegIx := w.extractLsb' 21 5
/-- `w[20:16]`, rt. -/
def rtField (w : Word) : RegIx := w.extractLsb' 16 5
/-- `w[15:11]`, rd. -/
def rdField (w : Word) : RegIx := w.extractLsb' 11 5
/-- `w[10:6]`, shamt. -/
def shamtField (w : Word) : ShAmt := w.extractLsb' 6 5
/-- `w[5:0]`, funct. -/
def functField (w : Word) : BitVec 6 := w.extractLsb' 0 6
/-- `w[15:0]`, read as two's complement. spec/30_encoding.md R81. -/
def immField (w : Word) : Int := (w.extractLsb' 0 16).toInt

/-- `decode(w)`, total on all words: a word that matches no row is `Unknown`. spec/30_encoding.md R79, R84. -/
def decode (w : Word) : Instr :=
  let op := opcodeField w
  if op = 0x00#6 ∧ functField w = 0x20#6 then .add (rdField w) (rsField w) (rtField w) (shamtField w)
  else if op = 0x00#6 ∧ functField w = 0x22#6 then .sub (rdField w) (rsField w) (rtField w) (shamtField w)
  else if op = 0x08#6 then .addi (rtField w) (rsField w) (immField w)
  else if op = 0x23#6 then .lw (rtField w) (rsField w) (immField w)
  else if op = 0x2B#6 then .sw (rtField w) (rsField w) (immField w)
  else if op = 0x04#6 then .beq (rtField w) (rsField w) (immField w)
  else .unknown

/-! ### The encoder of words -/

/-- An R-format word: opcode 0, rs, rt, rd, shamt, funct. spec/30_encoding.md R75. -/
def rWord (rs rt rd : RegIx) (sh : ShAmt) (funct : BitVec 6) : Word := 0x00#6 ++ rs ++ rt ++ rd ++ sh ++ funct

/-- An I-format word: opcode, rs, rt, and the immediate as 16-bit two's complement. spec/30_encoding.md R76. -/
def iWord (op : BitVec 6) (rs rt : RegIx) (imm : Int) : Word := op ++ rs ++ rt ++ BitVec.ofInt 16 imm

/-- `word(ins)`. spec/30_encoding.md R78, with the codes of R80 and the canonical `Unknown` word of R77. -/
def encode : Instr → Word
  | .add rd rs rt sh => rWord rs rt rd sh 0x20#6
  | .sub rd rs rt sh => rWord rs rt rd sh 0x22#6
  | .addi rt rs imm => iWord 0x08#6 rs rt imm
  | .lw rt rs off => iWord 0x23#6 rs rt off
  | .sw rt rs off => iWord 0x2B#6 rs rt off
  | .beq rt rs disp => iWord 0x04#6 rs rt disp
  | .unknown => 0x00000000#32

/-! ### The opcode map (spec/30_encoding.md R80) -/

/-- One row of the opcode map: a word belongs to it when its masked bits equal `pattern`. -/
structure OpcodeRow where
  kind : Kind
  pattern : Word
  mask : Word
deriving DecidableEq, Repr

/-- The six matching rows of spec/30_encoding.md R80. -/
def opcodeMap : List OpcodeRow :=
  [⟨.add, 0x00000020, 0xFC00003F⟩, ⟨.sub, 0x00000022, 0xFC00003F⟩, ⟨.addi, 0x20000000, 0xFC000000⟩,
   ⟨.lw, 0x8C000000, 0xFC000000⟩, ⟨.sw, 0xAC000000, 0xFC000000⟩, ⟨.beq, 0x10000000, 0xFC000000⟩]

/-- The word belongs to the row. -/
def OpcodeRow.matchesWord (r : OpcodeRow) (w : Word) : Bool := w &&& r.mask == r.pattern

/-- Some row of R80 holds the word. -/
def matchesSomeRow (w : Word) : Bool := opcodeMap.any fun r => r.matchesWord w

/-! ### The tagged variant (spec/30_encoding.md R70 to R73) -/

/-- The form of an instruction. spec/30_encoding.md R73. -/
def kindOf : Instr → Kind
  | .add _ _ _ _ => .add
  | .sub _ _ _ _ => .sub
  | .addi _ _ _ => .addi
  | .lw _ _ _ => .lw
  | .sw _ _ _ => .sw
  | .beq _ _ _ => .beq
  | .unknown => .unknown

/-- The tagged variant of an instruction. spec/30_encoding.md R70, with the codes of R73. -/
def toVariant : Instr → Variant
  | .add rd rs rt sh => .rType 0x20 sh.toNat rd.toNat rt.toNat rs.toNat
  | .sub rd rs rt sh => .rType 0x22 sh.toNat rd.toNat rt.toNat rs.toNat
  | .addi rt rs imm => .iType 0x08 rs.toNat rt.toNat imm
  | .lw rt rs off => .iType 0x23 rs.toNat rt.toNat off
  | .sw rt rs off => .iType 0x2B rs.toNat rt.toNat off
  | .beq rt rs disp => .iType 0x04 rs.toNat rt.toNat disp
  | .unknown => .unknown

/-- `kind` of an R-type's function code. spec/30_encoding.md R73. -/
def rTypeInstr (f : Nat) (rd rs rt : RegIx) (sh : ShAmt) : Option Instr :=
  if f = 0x20 then some (.add rd rs rt sh) else if f = 0x22 then some (.sub rd rs rt sh) else none

/-- `kind` of an I-type's opcode. spec/30_encoding.md R73. -/
def iTypeInstr (op : Nat) (rt rs : RegIx) (imm : Int) : Option Instr :=
  if op = 0x08 then some (.addi rt rs imm) else if op = 0x23 then some (.lw rt rs imm)
  else if op = 0x2B then some (.sw rt rs imm) else if op = 0x04 then some (.beq rt rs imm) else none

/-- The instruction a tagged variant is; none where a field is out of range, since such a value is not an Instruction.
spec/30_encoding.md R72, R73. -/
def ofVariant (v : Variant) : Option Instr :=
  if v.wellFormed then
    match v with
    | .rType f sh rd rb ra => rTypeInstr f (.ofNat 5 rd) (.ofNat 5 ra) (.ofNat 5 rb) (.ofNat 5 sh)
    | .iType op rs rt imm => iTypeInstr op (.ofNat 5 rt) (.ofNat 5 rs) imm
    | .unknown => some .unknown
  else none

/-! ### The byte image (spec/20_memory.md R55) -/

/-- A word's four bytes, least significant first. -/
def bytesOfWord (w : Word) : List Byte :=
  [w.extractLsb' 0 8, w.extractLsb' 8 8, w.extractLsb' 16 8, w.extractLsb' 24 8]

/-- The word of four bytes, the first the least significant. -/
def wordOfBytes (b0 b1 b2 b3 : Byte) : Word := b3 ++ b2 ++ b1 ++ b0

/-- The first instruction of a byte image and the bytes after it. A partial word is rejected by name (log entry 13). -/
def decodeBytes : List Byte → Except DecodeError (Instr × List Byte)
  | b0 :: b1 :: b2 :: b3 :: rest => .ok (decode (wordOfBytes b0 b1 b2 b3), rest)
  | bs => .error (.partialWord bs.length)

/-- Every instruction of a byte image, in order. -/
def decodeImage : List Byte → Except DecodeError (List Instr)
  | [] => .ok []
  | b0 :: b1 :: b2 :: b3 :: rest =>
    match decodeImage rest with
    | .ok is => .ok (decode (wordOfBytes b0 b1 b2 b3) :: is)
    | .error e => .error e
  | bs => .error (.partialWord bs.length)

/-- The byte image of a program. -/
def imageOf (prog : List Instr) : List Byte := prog.flatMap fun i => bytesOfWord (encode i)

/-- The 32-bit word of an instruction whose low `nbits` bits are `w` and whose other bits are 0. -/
def tableWord (nbits w : Nat) : Word := BitVec.ofNat 32 (w % 2 ^ nbits)

/-- The instruction the decoder reads from the bits `w` of a table row, laid out as bytes in the image's order. -/
def decodeTableWord (nbits w : Nat) : Option Instr :=
  match decodeBytes (bytesOfWord (tableWord nbits w)) with
  | .ok (i, _) => some i
  | .error _ => none

end Sys2Proof
end

