-- ==== Sys2Proof/Machine/Assembler.lean ====
section
/-! DEFINITION. The encoder: program text to instruction store, or a refusal (spec/30_encoding.md R90 to R114). A text is a
list of characters. -/

namespace Sys2Proof.Machine

/-- Splits at every separator, which is dropped; pieces may be empty. -/
def splitAtSep (isSep : Char → Bool) : List Char → List (List Char)
  | [] => [[]]
  | c :: cs =>
    if isSep c then [] :: splitAtSep isSep cs
    else
      match splitAtSep isSep cs with
      | [] => [[c]]
      | w :: ws => (c :: w) :: ws

/-! ### Lines and tokens -/

/-- Space, tab, carriage return, vertical tab, form feed. spec/30_encoding.md R92. -/
def isBlankChar (c : Char) : Bool := c == ' ' || c == '\t' || c == '\r' || c == '\x0b' || c == '\x0c'

/-- Removes every comma at the start and at the end. spec/30_encoding.md R92. -/
def stripCommas (t : List Char) : List Char :=
  ((t.dropWhile (· == ',')).reverse.dropWhile (· == ',')).reverse

/-- The tokens of a line. spec/30_encoding.md R92. -/
def tokensOf (line : List Char) : List (List Char) :=
  ((splitAtSep isBlankChar line).map stripCommas).filter fun t => !t.isEmpty

/-- The lines of a text, separated by line feeds. spec/30_encoding.md R91. -/
def linesOf (text : List Char) : List (List Char) := splitAtSep (· == '\n') text

/-! ### Literals and names -/

/-- The value of a decimal digit. -/
def decDigit (c : Char) : Option Nat := if '0' ≤ c ∧ c ≤ '9' then some (c.toNat - 48) else none

/-- The value of a binary digit. -/
def binDigit (c : Char) : Option Nat := if c = '0' then some 0 else if c = '1' then some 1 else none

/-- The value of a hexadecimal digit. -/
def hexDigit (c : Char) : Option Nat :=
  if '0' ≤ c ∧ c ≤ '9' then some (c.toNat - 48)
  else if 'a' ≤ c ∧ c ≤ 'f' then some (c.toNat - 87)
  else if 'A' ≤ c ∧ c ≤ 'F' then some (c.toNat - 55)
  else none

/-- The value of digits, after those already read. -/
def digitsFrom (base : Nat) (digit : Char → Option Nat) : Nat → List Char → Option Nat
  | acc, [] => some acc
  | acc, c :: cs =>
    match digit c with
    | some d => digitsFrom base digit (acc * base + d) cs
    | none => none

/-- The value of one digit or more. -/
def digits (base : Nat) (digit : Char → Option Nat) (cs : List Char) : Option Nat :=
  if cs.isEmpty then none else digitsFrom base digit 0 cs

/-- A literal without its sign: decimal, `0x` or `0b`. spec/30_encoding.md R99. -/
def unsignedLiteral : List Char → Option Nat
  | '0' :: 'x' :: cs => digits 16 hexDigit cs
  | '0' :: 'b' :: cs => digits 2 binDigit cs
  | cs => digits 10 decDigit cs

/-- A numeric literal. spec/30_encoding.md R99. -/
def numericLiteral : List Char → Option Int
  | '+' :: cs => (unsignedLiteral cs).map fun n => (n : Int)
  | '-' :: cs => (unsignedLiteral cs).map fun n => -(n : Int)
  | cs => (unsignedLiteral cs).map fun n => (n : Int)

/-- `[A-Za-z_.]`. spec/30_encoding.md R101. -/
def isNameStart (c : Char) : Bool :=
  decide ('A' ≤ c ∧ c ≤ 'Z') || decide ('a' ≤ c ∧ c ≤ 'z') || c == '_' || c == '.'

/-- `[A-Za-z0-9_.]`. spec/30_encoding.md R101. -/
def isNameChar (c : Char) : Bool := isNameStart c || decide ('0' ≤ c ∧ c ≤ '9')

/-- A label name. spec/30_encoding.md R101. -/
def isLabelName : List Char → Bool
  | [] => false
  | c :: cs => isNameStart c && cs.all isNameChar

/-! ### Token classes (spec/30_encoding.md R93) -/

/-- A token ends with `:`. -/
def endsWithColon (t : List Char) : Bool := t.getLast? == some ':'

/-- The five classes of a token. -/
inductive TokenClass where
  | labelDefinition | mnemonic | memoryOperand | register | bareLiteral
deriving DecidableEq, Repr

/-- The class of a token, in the order of R93; `first` says that it stands in the mnemonic position. -/
def classify (first : Bool) (t : List Char) : TokenClass :=
  if endsWithColon t then .labelDefinition
  else if first then .mnemonic
  else if t.contains '(' then .memoryOperand
  else if t.contains '$' then .register
  else .bareLiteral

/-! ### Operands (spec/30_encoding.md R98 to R101, R106 to R110) -/

/-- A register reference. spec/30_encoding.md R98. -/
def parseRegister (t : List Char) : Except RefusalReason RegIx :=
  if ['$', 'z', 'e', 'r', 'o'].isPrefixOf t then .ok 0#5
  else
    match t with
    | '$' :: ds =>
      match digits 10 decDigit ds with
      | some n => if n ≤ 31 then .ok (BitVec.ofNat 5 n) else .error .registerOutOfRange
      | none => .error .badRegister
    | _ => .error .badRegister

/-- The range check of an immediate, offset or displacement. spec/30_encoding.md R109. -/
def checkImm (v : Int) : Except RefusalReason Int :=
  if immInRange v then .ok v else .error .immediateOutOfRange

/-- A memory operand `<lit>(<reg>)`, split at its first parenthesis (DEDUCED, log entry 14). spec/30_encoding.md R100, and
the order of checks of R112. -/
def parseMemory (t : List Char) : Except RefusalReason (Int × RegIx) :=
  let lit := t.takeWhile (· != '(')
  match t.dropWhile (· != '('), numericLiteral lit with
  | _ :: inner, some v =>
    if inner.getLast? == some ')' then do
      let r ← parseRegister inner.dropLast
      let v ← checkImm v
      .ok (v, r)
    else .error .badMemoryOperand
  | _, _ => .error .badMemoryOperand

/-- The immediate of `addi`. spec/30_encoding.md R112, the row for immediates. -/
def parseImmediate (t : List Char) : Except RefusalReason Int :=
  match classify false t with
  | .bareLiteral =>
    match numericLiteral t with
    | some v => checkImm v
    | none => if isLabelName t then .error .operandKind else .error .badLiteral
  | _ => .error .operandKind

/-- The symbol table: the latest definition first. spec/30_encoding.md R94. -/
abbrev SymbolTable := List (List Char × Nat)

/-- The address of a label, by its latest definition; an undefined label by the policy. spec/30_encoding.md R94, R108. -/
def labelAddress (p : EncoderParams) (sym : SymbolTable) (name : List Char) : Except RefusalReason Nat :=
  match sym.lookup name with
  | some a => .ok a
  | none =>
    match p.undefinedLabel with
    | .zero => .ok 0
    | .refuse => .error .undefinedLabel

/-- The displacement of a `beq` at the address `current`. spec/30_encoding.md R107, and R112, the row for branch targets. -/
def parseBranchTarget (p : EncoderParams) (sym : SymbolTable) (current : Nat) (t : List Char) : Except RefusalReason Int :=
  match classify false t with
  | .bareLiteral =>
    match numericLiteral t with
    | some v => checkImm v
    | none =>
      if isLabelName t then do
        let a ← labelAddress p sym t
        checkImm ((current : Int) - (a : Int))
      else .error .badLiteral
  | _ => .error .operandKind

/-! ### Instructions (spec/30_encoding.md R102 to R106) -/

/-- The form a mnemonic selects, matched exactly. spec/30_encoding.md R96. -/
def mnemonicKind (t : List Char) : Option Kind :=
  if t = ['a', 'd', 'd'] then some .add
  else if t = ['s', 'u', 'b'] then some .sub
  else if t = ['a', 'd', 'd', 'i'] then some .addi
  else if t = ['l', 'w'] then some .lw
  else if t = ['s', 'w'] then some .sw
  else if t = ['b', 'e', 'q'] then some .beq
  else none

/-- How many operands a form takes. spec/30_encoding.md R110. -/
def operandCount : Kind → Nat
  | .add => 3
  | .sub => 3
  | .addi => 3
  | .lw => 2
  | .sw => 2
  | .beq => 3
  | .unknown => 0

/-- Three register operands. spec/30_encoding.md R102. -/
def parseThreeRegisters (mk : RegIx → RegIx → RegIx → Instr) (a b c : List Char) : Except RefusalReason Instr := do
  let rd ← parseRegister a
  let rs ← parseRegister b
  let rt ← parseRegister c
  .ok (mk rd rs rt)

/-- A register and a memory operand. spec/30_encoding.md R104, R105. -/
def parseLoadStore (mk : RegIx → RegIx → Int → Instr) (a b : List Char) : Except RefusalReason Instr := do
  let rt ← parseRegister a
  let m ← parseMemory b
  .ok (mk rt m.2 m.1)

/-- Two registers and a third operand read by `parse`. spec/30_encoding.md R103, R106. -/
def parseTwoRegistersAnd (mk : RegIx → RegIx → Int → Instr) (parse : List Char → Except RefusalReason Int)
    (a b c : List Char) : Except RefusalReason Instr := do
  let rt ← parseRegister a
  let rs ← parseRegister b
  let v ← parse c
  .ok (mk rt rs v)

/-- The instruction of a recognised mnemonic at the address `current`. The encoder always writes a shift amount of 0.
spec/30_encoding.md R102 to R106, R110. -/
def parseInstr (p : EncoderParams) (sym : SymbolTable) (current : Nat) (kind : Kind) (ops : List (List Char)) :
    Except RefusalReason Instr :=
  match kind, ops with
  | .add, [a, b, c] => parseThreeRegisters (fun rd rs rt => .add rd rs rt 0#5) a b c
  | .sub, [a, b, c] => parseThreeRegisters (fun rd rs rt => .sub rd rs rt 0#5) a b c
  | .addi, [a, b, c] => parseTwoRegistersAnd .addi parseImmediate a b c
  | .lw, [a, b] => parseLoadStore .lw a b
  | .sw, [a, b] => parseLoadStore .sw a b
  | .beq, [a, b, c] => parseTwoRegistersAnd .beq (parseBranchTarget p sym current) a b c
  | _, _ => .error .operandCount

/-! ### Lines and programs -/

/-- The encoder's state: the instruction store built so far and the symbol table. spec/30_encoding.md R90. -/
structure EncoderState where
  IS : List Instr
  sym : SymbolTable
deriving DecidableEq, Repr

/-- `addr(k)`, the byte address of entry `k`. spec/20_memory.md R51. -/
def entryAddress (p : EncoderParams) (k : Nat) : Nat := p.baseAddress + 4 * k

/-- The byte address of the next instruction. spec/30_encoding.md R94. -/
def EncoderState.address (p : EncoderParams) (st : EncoderState) : Nat := entryAddress p st.IS.length

/-- Defines a label at the next instruction's address. spec/30_encoding.md R94. -/
def EncoderState.define (p : EncoderParams) (name : List Char) (st : EncoderState) : EncoderState :=
  { st with sym := (name, st.address p) :: st.sym }

/-- Pushes an instruction, if the addresses still fit. spec/30_encoding.md R111. -/
def EncoderState.push (p : EncoderParams) (i : Instr) (st : EncoderState) : Except RefusalReason EncoderState :=
  if addressesFit p (st.IS.length + 1) then .ok { st with IS := st.IS ++ [i] } else .error .addressOverflow

/-- The rest of a line after its label definitions. spec/30_encoding.md R96, R97, R112. -/
def encodeRest (p : EncoderParams) (st : EncoderState) : List (List Char) → Except RefusalReason EncoderState
  | [] => .ok st
  | m :: ops =>
    match mnemonicKind m with
    | none => st.push p .unknown
    | some kind =>
      if ops.any endsWithColon then .error .labelAfterMnemonic
      else if ops.length ≠ operandCount kind then .error .operandCount
      else do
        let i ← parseInstr p st.sym (st.address p) kind ops
        st.push p i

/-- The leading label definitions of a line, then the rest. spec/30_encoding.md R94, R95. -/
def encodeTokens (p : EncoderParams) : EncoderState → List (List Char) → Except RefusalReason EncoderState
  | st, [] => .ok st
  | st, t :: ts =>
    if endsWithColon t then
      if isLabelName t.dropLast then encodeTokens p (st.define p t.dropLast) ts else .error .badLabelName
    else encodeRest p st (t :: ts)

/-- One line. A line with no tokens is ignored. spec/30_encoding.md R90, R91. -/
def encodeLine (p : EncoderParams) (st : EncoderState) (line : List Char) : Except RefusalReason EncoderState :=
  encodeTokens p st (tokensOf line)

/-- The lines from number `n` on, in order; the first refusal ends the text. spec/30_encoding.md R90, R112. -/
def encodeLines (p : EncoderParams) : Nat → EncoderState → List (List Char) → Except TextRefusal EncoderState
  | _, st, [] => .ok st
  | n, st, l :: ls =>
    match encodeLine p st l with
    | .ok st => encodeLines p (n + 1) st ls
    | .error r => .error ⟨r, n⟩

/-- The instruction store of a text, or the refusal. The bound of R111 is checked at every push, and once more for a text
that pushes nothing (log entry 12). spec/30_encoding.md R90, R111, R112. -/
def assemble (p : EncoderParams) (text : List Char) : Except TextRefusal (List Instr) :=
  match encodeLines p 1 ⟨[], []⟩ (linesOf text) with
  | .ok st =>
    if addressesFit p st.IS.length then .ok st.IS else .error ⟨.addressOverflow, (linesOf text).length⟩
  | .error e => .error e

end Sys2Proof.Machine
end

