-- ==== Sys2Proof/Machine/State.lean ====
section
/-! DEFINITION. The state of the block (spec/10_state.md R46), its faults and refusals, and the state after reset
(spec/70_reset_and_hazards.md R260). -/

namespace Sys2Proof.Machine

/-- The five stages (spec/00_scope.md R1). -/
inductive Stage where
  | fetch | decode | execute | memory | writeback
deriving DecidableEq, Repr

/-- The kind of a fault. spec/60_exceptions.md R241. -/
inductive FaultKind where
  | memoryRange | branchTarget
deriving DecidableEq, Repr

/-- A fault record `(kind, index, value, cycle)`, the constructor being its kind. spec/60_exceptions.md R241. Recorded in
`State.fault` by the one operation `raise`; `exec` and `step` answer the next state that holds it, as
spec/60_exceptions.md R243 describes that state (log entry 8). -/
inductive Fault where
  /-- Raised by `lw` and `sw` in the Memory step when `exResult` is below 0 or above 31. `value` is that index. Safe: the spec
  itself stops here. spec/60_exceptions.md R242. -/
  | memoryRange (index : Nat) (value : Int) (cycle : Nat)
  /-- Raised by a taken `beq` in the Execute step whose target is misaligned or outside the program. `value` is the
  displacement. Safe: the spec itself stops here. spec/60_exceptions.md R244. -/
  | branchTarget (index : Nat) (value : Int) (cycle : Nat)
deriving DecidableEq, Repr

/-- Why a step has no meaning. None of them arises in a state the block can reach (log entry 9). -/
inductive Refusal where
  /-- An arm of `exec` that has no meaning yet; none is left. Safe. -/
  | notModelled (mnemonic : String)
  /-- A stage step met a slot that names no entry of the instruction store, which spec/10_state.md R30 rules out. Raised by
  `instrAt`. Safe: no reachable state has such a slot. -/
  | danglingSlot (index : Nat)
  /-- `exec` was asked for an instruction's action in a stage whose slot is empty. Raised by `inSlot`. Safe: `step` never
  asks for it. -/
  | emptySlot (stage : Stage)
deriving DecidableEq, Repr

/-- The data memory: the words that differ from their reset value, as (word index, word) pairs, indices strictly rising (the
form `Memory.wf` checks). An unlisted word holds its reset value. The unit is the word: this space has no byte addresses
(spec/20_memory.md R52, R55; log entry 3). -/
abbrev Memory := List (Nat × Word)

/-- The state of the block. spec/10_state.md R46. -/
structure State where
  /-- The configuration, constant for a run. R33. -/
  cfg : Cfg
  /-- The instruction store, constant for a run. R27. -/
  IS : List Instr
  /-- The register file. R20. -/
  x : Vector Word 32
  /-- The data memory. R24. -/
  DM : Memory
  /-- The instruction cursor, an entry index. R28. -/
  pc : Nat
  /-- The Fetch slot. R30. -/
  F : Option Nat
  /-- The Decode slot. R30. -/
  D : Option Nat
  /-- The Execute slot. R30. -/
  E : Option Nat
  /-- The Memory slot. R30. -/
  M : Option Nat
  /-- The Writeback slot. R30. -/
  W : Option Nat
  /-- The output of the Execute stage. R32. -/
  exResult : Word
  /-- The output of the Memory stage. R32. -/
  memResult : Word
  /-- The number of cycles run. R34. -/
  cycle : Nat
  /-- The fault record. R35. -/
  fault : Option Fault
  /-- The MODEL's own field: the stage step of the cycle being run, none between cycles. It tells `exec` which of an
  instruction's stage actions to run. DESIGN CHOICE, safe (log entry 1). -/
  servicing : Option Stage
deriving DecidableEq, Repr

/-- The state after reset with no program and the default configuration: every field as spec/70_reset_and_hazards.md R260
gives it. A program is loaded from outside (`State.boot`, log entry 4). -/
def State.reset : State where
  cfg := {}
  IS := []
  x := (Vector.replicate 32 1#32).set 0 0#32
  DM := []
  pc := 0
  F := none
  D := none
  E := none
  M := none
  W := none
  exResult := 0#32
  memResult := 0#32
  cycle := 0
  fault := none
  servicing := none

end Sys2Proof.Machine
end

