-- ==== Sys2Proof/Machine/Ops.lean ====
section
/-! DEFINITION. The named operations over registers, data memory, stage results and slots; `raise`, the one operation that
records a fault, and `boot`, the only way out of one; and `perStage`, the form of every instruction's meaning. -/

namespace Sys2Proof.Machine

/-! ### Data memory (spec/20_memory.md) -/

/-- What a data word holds at reset: word 0 holds 0, every other word 1. spec/10_state.md R25. An index the list does not
name reads as this. -/
def Memory.resetWord (a : Nat) : Word := if a = 0 then 0#32 else 1#32

/-- `MemRead(a, 1)`. spec/20_memory.md R57. -/
def Memory.read : Memory → Nat → Word
  | [], a => Memory.resetWord a
  | (b, v) :: m, a => if a = b then v else Memory.read m a

/-- `MemWrite(a, 1, v)`, keeping the canonical form: a word written with its reset value is not listed.
spec/20_memory.md R57. -/
def Memory.write : Memory → Nat → Word → Memory
  | [], a, v => if v = Memory.resetWord a then [] else [(a, v)]
  | (b, u) :: m, a, v =>
    if a < b then (if v = Memory.resetWord a then (b, u) :: m else (a, v) :: (b, u) :: m)
    else if a = b then (if v = Memory.resetWord a then m else (a, v) :: m)
    else (b, u) :: Memory.write m a v

/-- Every index listed lies above `lo - 1`, below 32, and above the one before it, and no word listed holds its reset value. -/
def Memory.wfFrom : Nat → Memory → Bool
  | _, [] => true
  | lo, (b, v) :: m => decide (lo ≤ b) && decide (b < 32) && v != Memory.resetWord b && Memory.wfFrom (b + 1) m

/-- The canonical form of the data memory: 32 words (spec/10_state.md R24), equal memories equal lists. -/
def Memory.wf (m : Memory) : Bool := Memory.wfFrom 0 m

/-- Reads one data memory word. spec/10_state.md R26. -/
def State.dmRead (s : State) (a : Nat) : Word := Memory.read s.DM a

/-- Writes one data memory word. spec/10_state.md R26. -/
def State.dmWrite (a : Nat) (v : Word) (s : State) : State := { s with DM := Memory.write s.DM a v }

/-! ### Register file and stage results -/

/-- `x[i]`; register 0 is read like any other. spec/10_state.md R20, R21. -/
def State.readReg (s : State) (r : RegIx) : Word := s.x[r.toNat]'(r.isLt)

/-- `x[i] <- v`; register 0 is written like any other. spec/10_state.md R21. -/
def State.writeReg (r : RegIx) (v : Word) (s : State) : State := { s with x := s.x.set r.toNat v r.isLt }

/-- `exResult <- v`. spec/10_state.md R32. -/
def State.setExResult (v : Word) (s : State) : State := { s with exResult := v }

/-- `memResult <- v`. spec/10_state.md R32. -/
def State.setMemResult (v : Word) (s : State) : State := { s with memResult := v }

/-! ### Raising a fault, and leaving it -/

/-- The fault record of a kind. spec/60_exceptions.md R241. -/
def faultRecord (kind : FaultKind) (index : Nat) (value : Int) (cycle : Nat) : Fault :=
  match kind with
  | .memoryRange => .memoryRange index value cycle
  | .branchTarget => .branchTarget index value cycle

/-- The kind of a fault record. spec/60_exceptions.md R241. -/
def Fault.kind : Fault → FaultKind
  | .memoryRange _ _ _ => .memoryRange
  | .branchTarget _ _ _ => .branchTarget

/-- The instruction store index of the faulting instruction. spec/60_exceptions.md R241. -/
def Fault.index : Fault → Nat
  | .memoryRange k _ _ => k
  | .branchTarget k _ _ => k

/-- The faulting data index, or the branch displacement. spec/60_exceptions.md R241. -/
def Fault.value : Fault → Int
  | .memoryRange _ v _ => v
  | .branchTarget _ v _ => v

/-- The cycle in which the fault was raised. spec/60_exceptions.md R241. -/
def Fault.cycle : Fault → Nat
  | .memoryRange _ _ c => c
  | .branchTarget _ _ c => c

/-- The code of a fault kind. spec/60_exceptions.md R241. -/
def FaultKind.code : FaultKind → Nat
  | .memoryRange => 1
  | .branchTarget => 2

/-- `raise <Fault>(index, value)`: records the fault; what the step has done so far stays. The record's `cycle` is the number
of the cycle being run, which the counter shows once the cycle is counted (DEDUCED, log entry 7); the rest of the cycle is
skipped by `thenStep`, and `countCycle` counts it. In a record that `alone` leaves, of the sequential machine, which counts no
cycle, the number is the model's choice (log entry 16). spec/60_exceptions.md R243, spec/40_pipeline.md R148. -/
def State.raise (kind : FaultKind) (index : Nat) (value : Int) (s : State) : State :=
  { s with fault := some (faultRecord kind index value (s.cycle + 1)) }

/-- Reset with a configuration and a program: the start of a run, and the only way out of the drained and faulted states.
spec/70_reset_and_hazards.md R260, R262. -/
def State.boot (cfg : Cfg) (prog : List Instr) : State := { State.reset with cfg := cfg, IS := prog }

/-! ### Sequencing -/

/-- Runs the rest only while no fault is recorded. spec/60_exceptions.md R243. -/
def unlessFaulted (f : State → State) (s : State) : State := if s.fault.isSome then s else f s

/-- Runs the next stage step of a cycle, unless the one before raised. spec/40_pipeline.md R131, R148. -/
def thenStep (o : Host.Outcome State Fault Refusal) (f : State → Host.Outcome State Fault Refusal) :
    Host.Outcome State Fault Refusal :=
  match o with
  | .next s => if s.fault.isSome then .next s else f s
  | .fault r => .fault r
  | .refused r => .refused r

/-- Applies `f` to a next state. -/
def mapNext (f : State → State) (o : Host.Outcome State Fault Refusal) : Host.Outcome State Fault Refusal :=
  match o with
  | .next s => .next (f s)
  | .fault r => .fault r
  | .refused r => .refused r

/-! ### The form of a meaning -/

/-- Says which stage is being serviced, or that none is. The model's own field (log entry 1). -/
def State.setServicing (stage : Option Stage) (s : State) : State := { s with servicing := stage }

/-- The entry that enters Execute next in program order: the one in Decode, else the one in Fetch, else the one the cursor
names. With empty slots it is the cursor. spec/40_pipeline.md R136, R144, R145. -/
def State.nextIndex (s : State) : Nat :=
  match s.D, s.F with
  | some k, _ => k
  | none, some k => k
  | none, none => s.pc

/-- The next entry taken out of the pipeline to run by itself: slots empty, the cursor past it (SEQ's `next <- pc + 1`).
spec/40_pipeline.md R160. -/
def State.takeNext (s : State) : State :=
  { s with F := none, D := none, E := none, M := none, W := none, pc := s.nextIndex + 1 }

/-- Keeps the cursor at the entry `k` where it faulted: SEQ faults before its `pc <- next`. spec/40_pipeline.md R160. -/
def State.holdOnFault (k : Nat) (s : State) : State := if s.fault.isSome then { s with pc := k } else s

/-- An instruction's three stage actions one after the other with nothing else in flight, a fault ending them with the cursor
at the instruction: its case in the sequential machine SEQ (log entry 2). SEQ counts no cycle, so `cycle` stays and the number
in a fault record is the model's choice (log entry 16). spec/40_pipeline.md R160. -/
def alone (onExecute onMemory onWriteback : Nat → State → State) (s : State) : State :=
  let k := s.nextIndex
  State.holdOnFault k (unlessFaulted (onWriteback k) (unlessFaulted (onMemory k) (unlessFaulted (onExecute k) s.takeNext)))

/-- A stage action of the instruction in a slot; it is given that slot's index, the instruction's own.
spec/10_state.md R31. -/
def inSlot (slot : Option Nat) (stage : Stage) (act : Nat → State → State) (s : State) : Host.Outcome State Fault Refusal :=
  match slot with
  | some k => .next (act k s)
  | none => .refused (.emptySlot stage)

/-- The meaning of an instruction by its stage actions: in the stage being serviced, that stage's action (none in Fetch and
Decode); where no stage is being serviced, all three in order. spec/40_pipeline.md R131, R133, R135, R137. -/
def perStage (onExecute onMemory onWriteback : Nat → State → State) (s : State) : Host.Outcome State Fault Refusal :=
  match s.servicing with
  | some .fetch => .next s
  | some .decode => .next s
  | some .execute => inSlot s.E .execute onExecute s
  | some .memory => inSlot s.M .memory onMemory s
  | some .writeback => inSlot s.W .writeback onWriteback s
  | none => .next (alone onExecute onMemory onWriteback s)

/-- A stage in which an instruction does nothing. -/
def noAction (_ : Nat) (s : State) : State := s

end Sys2Proof.Machine
end

