-- ==== Sys2Proof/Machine/Load.lean ====
section
/-! DEFINITION. How a program gets into the block (spec/10_state.md R41): every way starts a run by `State.boot`. -/

namespace Sys2Proof.Machine

/-- A program given as 32-bit words. spec/10_state.md R41. -/
def loadWords (cfg : Cfg) (ws : List Word) : State := State.boot cfg (ws.map decode)

/-- A program given as the bytes of its words. spec/20_memory.md R55. -/
def loadImage (cfg : Cfg) (bytes : List Byte) : Except DecodeError State :=
  match decodeImage bytes with
  | .ok prog => .ok (State.boot cfg prog)
  | .error e => .error e

/-- A program given as text; a text the encoder refuses starts no run. spec/10_state.md R41. -/
def loadText (cfg : Cfg) (p : EncoderParams) (text : List Char) : Except TextRefusal State :=
  match assemble p text with
  | .ok prog => .ok (State.boot cfg prog)
  | .error e => .error e

/-- A source that may be missing; a missing one is the empty program, whatever the base address: the address bound of
spec/30_encoding.md R111 is not checked where there is no text (DESIGN CHOICE, log entry 15). spec/10_state.md R41,
spec/30_encoding.md R113. -/
def loadSource (cfg : Cfg) (p : EncoderParams) (source : Option (List Char)) : Except TextRefusal State :=
  match source with
  | some text => loadText cfg p text
  | none => .ok (State.boot cfg [])

/-- `s` about to run one instruction: it is the whole program and stands in Decode, the other slots are empty, the cursor is
past it and no fault is recorded. Registers, data memory, configuration and counters stay. -/
def State.placeNext (i : Instr) (s : State) : State :=
  { s with IS := [i], pc := 1, F := none, D := some 0, E := none, M := none, W := none, fault := none, servicing := none }

end Sys2Proof.Machine
end

