-- ==== Sys2Proof/Machine/Operands.lean ====
section
/-! DEFINITION. How instructions find their operands: immediates, effective addresses, branch targets, and the source and
destination registers the hazard predicate compares. -/

namespace Sys2Proof.Machine

/-- An immediate as an `int32`, sign-extended and never scaled. spec/30_encoding.md R81. -/
def immWord (imm : Int) : Word := BitVec.ofInt 32 imm

/-- `x[source_reg] + immediate_or_offset`, wrapping. spec/42_load_store.md R190, spec/41_arithmetic.md R174. -/
def State.basePlusOffset (s : State) (rs : RegIx) (off : Int) : Word := s.readReg rs + immWord off

/-- The data memory index a word names, none outside 0..31. spec/20_memory.md R52, R53. -/
def dataIndex (a : Word) : Option Nat := if 0 ≤ a.toInt ∧ a.toInt ≤ 31 then some a.toInt.toNat else none

/-- `target(k)` in a program of `n` entries, none where the displacement is misaligned or the target is outside the program.
The index `n`, one past the last entry, is legal. spec/43_branch.md R211. -/
def branchTarget (n k : Nat) (disp : Int) : Option Nat :=
  if disp % 4 ≠ 0 then none
  else
    let t : Int := k - disp / 4
    if t < 0 ∨ t > n then none else some t.toNat

/-- `dest(ins)`. spec/40_pipeline.md R141. -/
def destOf : Instr → Option RegIx
  | .add rd _ _ _ => some rd
  | .sub rd _ _ _ => some rd
  | .addi rt _ _ => some rt
  | .lw rt _ _ => some rt
  | .sw _ _ _ => none
  | .beq _ _ _ => none
  | .unknown => none

/-- `srcs(ins)`. spec/40_pipeline.md R142. -/
def srcsOf : Instr → List RegIx
  | .add _ rs rt _ => [rs, rt]
  | .sub _ rs rt _ => [rs, rt]
  | .addi _ rs _ => [rs]
  | .lw _ rs _ => [rs]
  | .sw rt rs _ => [rs, rt]
  | .beq rt rs _ => [rs, rt]
  | .unknown => []

/-- The instruction a slot holds. spec/10_state.md R31. -/
def State.slotInstr (s : State) (slot : Option Nat) : Option Instr := slot.bind fun k => s.IS[k]?

/-- The destination of the instruction a slot holds. spec/40_pipeline.md R139. -/
def State.slotDest (s : State) (slot : Option Nat) : Option RegIx := (s.slotInstr slot).bind destOf

/-- A slot holds a `beq`. spec/40_pipeline.md R144. -/
def State.holdsBranch (s : State) (slot : Option Nat) : Bool := (s.slotInstr slot).map kindOf == some .beq

end Sys2Proof.Machine
end

