-- ==== Sys2Proof/Machine/Flags.lean ====
section
/-! DEFINITION. The hardware has no flags, condition codes or predicate registers (spec/10_state.md R36). What stands in their
place: the comparison of `beq`, the status outputs (R45), and the hazard predicate (spec/40_pipeline.md R139). -/

namespace Sys2Proof.Machine

/-- The result `beq` computes: the displacement where the registers are equal, else 0. spec/43_branch.md R210. -/
def State.branchResult (s : State) (rt rs : RegIx) (disp : Int) : Word :=
  if s.readReg rs = s.readReg rt then immWord disp else 0#32

/-- The cursor is at or past the end of the instruction store. spec/10_state.md R28. -/
def State.exhausted (s : State) : Bool := decide (s.IS.length ≤ s.pc)

/-- `drained(s)`: nothing in Fetch, Decode, Execute or Memory and the cursor exhausted. Writeback is not tested.
spec/40_pipeline.md R150. -/
def State.drained (s : State) : Bool := s.F.isNone && s.D.isNone && s.E.isNone && s.M.isNone && s.exhausted

/-- A fault is recorded. spec/10_state.md R35. -/
def State.faulted (s : State) : Bool := s.fault.isSome

/-- The block runs cycles: neither drained nor faulted. spec/10_state.md R42. -/
def State.running (s : State) : Bool := !s.drained && !s.faulted

/-- The status outputs. spec/10_state.md R45. -/
structure Status where
  drained : Bool
  fault : Option Fault
  cycle : Nat
deriving DecidableEq, Repr

/-- The status outputs of a state. spec/10_state.md R45. -/
def State.status (s : State) : Status := ⟨s.drained, s.fault, s.cycle⟩

/-- `hazard(k)` for the instruction `i` in Decode: a source of it is the destination of the instruction in Memory or, with
forwarding disabled, of the one in Writeback. spec/40_pipeline.md R139, R140. -/
def State.hazard (s : State) (i : Instr) : Bool :=
  (srcsOf i).any fun r =>
    s.slotDest s.M == some r || (!s.cfg.forwardingEnabled && s.slotDest s.W == some r)

end Sys2Proof.Machine
end

