-- ==== Sys2Proof/Machine/Arithmetic.lean ====
section
/-! DEFINITION. `add`, `sub` and `addi` (spec/41_arithmetic.md). -/

namespace Sys2Proof.Machine

/-- `v << sh`: the logical left shift of the 32-bit pattern. spec/41_arithmetic.md R171. -/
def shiftLeft (v : Word) (sh : ShAmt) : Word := v <<< sh.toNat

/-- Execute of an R-type form: `exResult <- (x[rs] op x[rt]) << sh`. spec/40_pipeline.md R137. -/
def rTypeExecute (op : Word → Word → Word) (rs rt : RegIx) (sh : ShAmt) (_ : Nat) (s : State) : State :=
  s.setExResult (shiftLeft (op (s.readReg rs) (s.readReg rt)) sh)

/-- Memory of an R-type form: `memResult <- exResult`. spec/40_pipeline.md R135. -/
def forwardResult (_ : Nat) (s : State) : State := s.setMemResult s.exResult

/-- Writeback of a form that commits: `x[r] <- memResult`. spec/40_pipeline.md R133. -/
def commitResult (r : RegIx) (_ : Nat) (s : State) : State := s.writeReg r s.memResult

/-- `add $rd, $rs, $rt`. spec/41_arithmetic.md R172. -/
def execAdd (rd rs rt : RegIx) (sh : ShAmt) (s : State) : Host.Outcome State Fault Refusal :=
  perStage (rTypeExecute (· + ·) rs rt sh) forwardResult (commitResult rd) s

/-- `sub $rd, $rs, $rt`. spec/41_arithmetic.md R173. -/
def execSub (rd rs rt : RegIx) (sh : ShAmt) (s : State) : Host.Outcome State Fault Refusal :=
  perStage (rTypeExecute (· - ·) rs rt sh) forwardResult (commitResult rd) s

/-- Execute of `addi`: `exResult <- x[rs] + imm`. spec/40_pipeline.md R137. -/
def addiExecute (rs : RegIx) (imm : Int) (_ : Nat) (s : State) : State := s.setExResult (s.basePlusOffset rs imm)

/-- `addi $rt, $rs, imm`: nothing in Memory, and nothing is ever written back, so the target register plays no part.
spec/41_arithmetic.md R174. -/
def execAddi (_rt rs : RegIx) (imm : Int) (s : State) : Host.Outcome State Fault Refusal :=
  perStage (addiExecute rs imm) noAction noAction s

end Sys2Proof.Machine
end

