-- ==== Sys2Proof/Machine/Branch.lean ====
section
/-! DEFINITION. `beq` (spec/43_branch.md). -/

namespace Sys2Proof.Machine

/-- Flush and refill: Fetch and Decode are discarded and the cursor repositioned. spec/40_pipeline.md R138. -/
def State.flushTo (t : Nat) (s : State) : State := { s with F := none, D := none, pc := t }

/-- `branch_taken(k)`: goes to the target, or raises BranchTargetFault before it flushes or moves the cursor.
spec/40_pipeline.md R138, spec/60_exceptions.md R244. -/
def branchTaken (disp : Int) (k : Nat) (s : State) : State :=
  match branchTarget s.IS.length k disp with
  | some t => s.flushTo t
  | none => s.raise .branchTarget k disp

/-- Execute of `beq`: the result into `exResult`, and the branch where it is not 0. spec/43_branch.md R210, R212. -/
def beqExecute (rt rs : RegIx) (disp : Int) (k : Nat) (s : State) : State :=
  let r := s.branchResult rt rs disp
  let s := s.setExResult r
  if r ≠ 0#32 then branchTaken disp k s else s

/-- `beq $rt, $rs, disp`. spec/43_branch.md R210. -/
def execBeq (rt rs : RegIx) (disp : Int) (s : State) : Host.Outcome State Fault Refusal :=
  perStage (beqExecute rt rs disp) noAction noAction s

end Sys2Proof.Machine
end

