-- ==== Sys2Proof/Machine/Inert.lean ====
section
/-! DEFINITION. `Unknown` (spec/44_unknown_and_system.md). -/

namespace Sys2Proof.Machine

/-- `Unknown`: it occupies a slot and does nothing in any stage. spec/44_unknown_and_system.md R230. -/
def execUnknown (s : State) : Host.Outcome State Fault Refusal := perStage noAction noAction noAction s

end Sys2Proof.Machine
end

