-- ==== Sys2Proof/Machine/LoadStore.lean ====
section
/-! DEFINITION. `lw` and `sw` (spec/42_load_store.md). -/

namespace Sys2Proof.Machine

/-- Execute of a load or store: the effective word index into `exResult`. spec/42_load_store.md R190. -/
def addressExecute (rs : RegIx) (off : Int) (_ : Nat) (s : State) : State := s.setExResult (s.basePlusOffset rs off)

/-- The data access of the Memory step at the index in `exResult`; outside 0..31 it raises MemoryRangeFault before it reads
or writes anything. spec/60_exceptions.md R242. -/
def dataAccess (act : Nat → State → State) (k : Nat) (s : State) : State :=
  match dataIndex s.exResult with
  | some a => act a s
  | none => s.raise .memoryRange k s.exResult.toInt

/-- `memResult <- DM[a]`. spec/42_load_store.md R191. -/
def loadWord (a : Nat) (s : State) : State := s.setMemResult (s.dmRead a)

/-- `DM[a] <- x[rt]`, the register read in the Memory step. spec/42_load_store.md R192, R193. -/
def storeWord (rt : RegIx) (a : Nat) (s : State) : State := s.dmWrite a (s.readReg rt)

/-- `lw $rt, off($rs)`. spec/42_load_store.md R191. -/
def execLw (rt rs : RegIx) (off : Int) (s : State) : Host.Outcome State Fault Refusal :=
  perStage (addressExecute rs off) (dataAccess loadWord) (commitResult rt) s

/-- `sw $rt, off($rs)`. spec/42_load_store.md R192. -/
def execSw (rt rs : RegIx) (off : Int) (s : State) : Host.Outcome State Fault Refusal :=
  perStage (addressExecute rs off) (dataAccess (storeWord rt)) noAction s

end Sys2Proof.Machine
end

