-- ==== Sys2Proof/Machine/Dispatch.lean ====
section
/-! DEFINITION. `exec`: one arm per instruction. -/

namespace Sys2Proof.Machine

def exec (i : Instr) (s : State) : Host.Outcome State Fault Refusal :=
  match i with
  | .add rd rs rt sh => Sys2Proof.Machine.execAdd rd rs rt sh s
  | .sub rd rs rt sh => Sys2Proof.Machine.execSub rd rs rt sh s
  | .addi rt rs imm => Sys2Proof.Machine.execAddi rt rs imm s
  | .lw rt rs off => Sys2Proof.Machine.execLw rt rs off s
  | .sw rt rs off => Sys2Proof.Machine.execSw rt rs off s
  | .beq rt rs disp => Sys2Proof.Machine.execBeq rt rs disp s
  | .unknown => Sys2Proof.Machine.execUnknown s

end Sys2Proof.Machine
end

