-- ==== Sys2Proof/Machine/Pipeline.lean ====
section
/-! DEFINITION. The pipeline engine: the five stage steps and the cycle (spec/40_pipeline.md). -/

namespace Sys2Proof.Machine

/-- Runs the action, in the stage being serviced, of the entry a slot names: `exec` of that entry's instruction with
`servicing` set for the call. -/
def service (stage : Stage) (k : Nat) (s : State) : Host.Outcome State Fault Refusal :=
  match s.IS[k]? with
  | some i => mapNext (State.setServicing none) (exec i (s.setServicing (some stage)))
  | none => .refused (.danglingSlot k)

/-- Services a slot, if it holds an entry. -/
def serviceSlot (stage : Stage) (slot : Option Nat) (s : State) : Host.Outcome State Fault Refusal :=
  match slot with
  | some k => service stage k s
  | none => .next s

/-- `W <- M; M <- none`. spec/40_pipeline.md R132. -/
def State.promoteToWriteback (s : State) : State := { s with W := s.M, M := none }

/-- `M <- E; E <- none`. spec/40_pipeline.md R134. -/
def State.promoteToMemory (s : State) : State := { s with M := s.E, E := none }

/-- `E <- some k; D <- none`. spec/40_pipeline.md R136. -/
def State.admitToExecute (k : Nat) (s : State) : State := { s with E := some k, D := none }

/-- The Writeback step: promotion, then the commit of the instruction promoted. spec/40_pipeline.md R132, R133. -/
def writebackStep (s : State) : Host.Outcome State Fault Refusal :=
  let s := s.promoteToWriteback
  serviceSlot .writeback s.W s

/-- The Memory step: promotion, then the action of the instruction promoted. spec/40_pipeline.md R134, R135. -/
def memoryStep (s : State) : Host.Outcome State Fault Refusal :=
  let s := s.promoteToMemory
  serviceSlot .memory s.M s

/-- The Execute step: admission, gated by the hazard predicate, then the action. spec/40_pipeline.md R136, R137. -/
def executeStep (s : State) : Host.Outcome State Fault Refusal :=
  match s.D with
  | none => .next s
  | some k =>
    match s.IS[k]? with
    | none => .refused (.danglingSlot k)
    | some i => if s.hazard i then .next s else service .execute k (s.admitToExecute k)

/-- Decode admits: it is empty, Fetch holds an entry, and no branch is in Decode or Execute. spec/40_pipeline.md R144. -/
def State.decodeAdmits (s : State) : Bool :=
  s.D.isNone && s.F.isSome && !s.holdsBranch s.D && !s.holdsBranch s.E

/-- The Decode step. spec/40_pipeline.md R144. -/
def decodeStep (s : State) : State := if s.decodeAdmits then { s with D := s.F, F := none } else s

/-- The Fetch step. spec/40_pipeline.md R145. -/
def fetchStep (s : State) : State :=
  if s.F.isNone && !s.exhausted then { s with F := some s.pc, pc := s.pc + 1 } else s

/-- Each cycle run is counted, faulting or not. spec/40_pipeline.md R151. -/
def State.countCycle (s : State) : State := { s with cycle := s.cycle + 1 }

/-- The stage steps of a cycle before Execute. spec/40_pipeline.md R131. -/
def olderSteps (s : State) : Host.Outcome State Fault Refusal := thenStep (writebackStep s) memoryStep

/-- The stage steps of a cycle after Execute. spec/40_pipeline.md R131. -/
def youngerSteps (s : State) : Host.Outcome State Fault Refusal := .next (fetchStep (decodeStep s))

/-- One cycle: Writeback, Memory, Execute, Decode, Fetch, each skipped once a fault is recorded, then the count.
spec/40_pipeline.md R130, R131, R148. -/
def cycle (s : State) : Host.Outcome State Fault Refusal :=
  mapNext State.countCycle (thenStep (thenStep (olderSteps s) executeStep) youngerSteps)

end Sys2Proof.Machine
end

