-- ==== Sys2Proof/Machine/Step.lean ====
section
/-! DEFINITION. `step`: one cycle while the block runs, and nothing once it is drained or faulted (spec/10_state.md R42). -/

namespace Sys2Proof.Machine

/-- One step of the block. spec/10_state.md R42. -/
def step (s : State) : Host.Outcome State Fault Refusal := if s.running then cycle s else .next s

/-- `s` with the instruction of a table row as its whole program, standing in Decode with every other slot empty and no
fault, so that the next cycle admits it to Execute and runs it (log entry 4). -/
def State.withFetchWord (s : State) (nbits w : Nat) : State := s.placeNext (decode (tableWord nbits w))

end Sys2Proof.Machine
end

