-- ==== Sys2Proof/Machine/Sequential.lean ====
section
/-! DEFINITION. The sequential machine SEQ (spec/40_pipeline.md R160), over the same state and the same meanings: with no
stage being serviced `exec` runs an instruction's whole effect (log entry 2). -/

namespace Sys2Proof.Machine

/-- One iteration of SEQ's loop: the entry the cursor names, and nothing once the cursor is exhausted or a fault is
recorded. From `State.boot` the slots stay empty, so `nextIndex` is the cursor. A fault leaves
the cursor at the faulting entry, since R160 faults before `pc <- next`. -/
def seqStep (s : State) : Host.Outcome State Fault Refusal :=
  if s.faulted then .next s
  else
    match s.IS[s.nextIndex]? with
    | some i => exec i (s.setServicing none)
    | none => .next s

/-- `n` iterations of SEQ. -/
def seqRun : Nat → State → Host.Outcome State Fault Refusal
  | 0, s => .next s
  | n + 1, s => thenStep (seqStep s) (seqRun n)

end Sys2Proof.Machine
end

