-- ==== Sys2Proof/Machine/Trace.lean ====
section
/-! DEFINITION. The trace output (spec/10_state.md R44, spec/40_pipeline.md R149). It is an output, not state. -/

namespace Sys2Proof.Machine

/-- An event of the trace. spec/40_pipeline.md R149. -/
inductive TraceEvent where
  /-- `Cycle(n)`. -/
  | cycleMark (n : Nat)
  /-- `(name(IS[k]), k, stage)`. -/
  | occupied (name : String) (index : Nat) (stage : Stage)
  /-- `Fault(f)`. -/
  | fault (f : Fault)
deriving DecidableEq, Repr

/-- The name of a form: its mnemonic, or `unknown`. spec/40_pipeline.md R149. -/
def kindName : Kind → String
  | .add => "add"
  | .sub => "sub"
  | .addi => "addi"
  | .lw => "lw"
  | .sw => "sw"
  | .beq => "beq"
  | .unknown => "unknown"

/-- The event of one slot, if it is occupied. -/
def State.slotEvent (s : State) (stage : Stage) (slot : Option Nat) : Option TraceEvent :=
  slot.bind fun k => (s.IS[k]?).map fun i => .occupied (kindName (kindOf i)) k stage

/-- The occupancy events in the order W, M, E, D, F. spec/40_pipeline.md R149. -/
def State.occupancy (s : State) : List TraceEvent :=
  [(Stage.writeback, s.W), (.memory, s.M), (.execute, s.E), (.decode, s.D), (.fetch, s.F)].filterMap
    fun p => s.slotEvent p.1 p.2

/-- The trace of the cycle that ended in `t`: the marker, then the fault if the cycle raised one, else the occupancy.
spec/40_pipeline.md R149. -/
def cycleTrace (t : State) : List TraceEvent :=
  .cycleMark t.cycle ::
    match t.fault with
    | some f => [.fault f]
    | none => t.occupancy

/-- What a step emits: the trace of its cycle, and nothing where no cycle runs. spec/10_state.md R42, R44. -/
def stepTrace (s : State) : List TraceEvent :=
  if s.running then
    match cycle s with
    | .next t => cycleTrace t
    | .fault _ => []
    | .refused _ => []
  else []

end Sys2Proof.Machine
end

