-- ==== Sys2Proof/Safety.lean ====
section
/-! DEFINITION. What a run, a halt and a failed run are, and the invariant of the block's reachable states. -/

namespace Sys2Proof.Machine

/-- A halt: drained, and not faulted. A faulted state is never a halt. spec/40_pipeline.md R152, spec/60_exceptions.md R243. -/
def State.halted (s : State) : Prop := s.drained = true ∧ s.fault = none

/-- A halt of SEQ: the cursor exhausted and no fault. spec/40_pipeline.md R160. -/
def State.seqHalted (s : State) : Prop := s.exhausted = true ∧ s.fault = none

/-- `n` steps from `s` end in `t`. -/
def runsTo (n : Nat) (s t : State) : Prop := Sys2Proof.core.run n s = .next t

/-- `n` iterations of SEQ from `s` end in `t`. -/
def seqRunsTo (n : Nat) (s t : State) : Prop := seqRun n s = .next t

/-- The register an instruction's Writeback commits. spec/40_pipeline.md R133. -/
def commitOf : Instr → Option RegIx
  | .add rd _ _ _ => some rd
  | .sub rd _ _ _ => some rd
  | .addi _ _ _ => none
  | .lw rt _ _ => some rt
  | .sw _ _ _ => none
  | .beq _ _ _ => none
  | .unknown => none

/-- In the cycle run from `s`, the hazard predicate holds the instruction in Decode. spec/40_pipeline.md R139. -/
def State.stalls (s : State) : Prop :=
  ∃ u k i, olderSteps s = .next u ∧ u.D = some k ∧ u.IS[k]? = some i ∧ u.hazard i = true

/-- Configuration, program, counter and the stage being serviced are as before. -/
def keepsRun (s t : State) : Prop :=
  t.cfg = s.cfg ∧ t.IS = s.IS ∧ t.cycle = s.cycle ∧ t.servicing = s.servicing

/-- The cursor and the slots are as before. -/
def keepsSlots (s t : State) : Prop :=
  t.pc = s.pc ∧ t.F = s.F ∧ t.D = s.D ∧ t.E = s.E ∧ t.M = s.M ∧ t.W = s.W

/-- An occupied slot names an entry of the instruction store. spec/10_state.md R30. -/
def State.slotInStore (s : State) (slot : Option Nat) : Prop := ∀ k, slot = some k → k < s.IS.length

/-- The invariant of the states a run can reach: the cursor and the slots in range (spec/10_state.md R28, R30), the data
memory in its canonical form, Decode empty while a branch is in Execute (spec/70_reset_and_hazards.md R271), a recorded
fault naming an entry and a cycle already counted (spec/60_exceptions.md R241), and no stage being serviced. -/
structure State.Inv (s : State) : Prop where
  pcInRange : s.pc ≤ s.IS.length
  fetchInStore : s.slotInStore s.F
  decodeInStore : s.slotInStore s.D
  executeInStore : s.slotInStore s.E
  memoryInStore : s.slotInStore s.M
  writebackInStore : s.slotInStore s.W
  memoryCanonical : Memory.wf s.DM = true
  branchClearsDecode : s.holdsBranch s.E = true → s.D = none
  faultInStore : ∀ f, s.fault = some f → f.index < s.IS.length ∧ f.cycle = s.cycle
  notServicing : s.servicing = none

end Sys2Proof.Machine
end

