-- ==== Sys2Proof/Certificates/Slice0/Obligations.lean ====
section
/-! DEFINITION. The statements about the model, for the provers. -/

open Sys2Proof Sys2Proof.Machine

/-! ### Reset, the step, and the run -/

/-- R23, R25, R260: every field after reset with a configuration and a program, each at the value the table of R260 gives it;
`State.reset` is the case of no program and forwarding disabled, the default. -/
def Obligations.ResetLeavesTheSpecifiedState : Prop :=
  (∀ (cfg : Cfg) (prog : List Instr),
    let s := State.boot cfg prog
    s.readReg 0#5 = 0#32 ∧ (∀ r : RegIx, r ≠ 0#5 → s.readReg r = 1#32) ∧
    s.dmRead 0 = 0#32 ∧ (∀ a, 1 ≤ a → a ≤ 31 → s.dmRead a = 1#32) ∧
    s.F = none ∧ s.D = none ∧ s.E = none ∧ s.M = none ∧ s.W = none ∧ s.pc = 0 ∧
    s.exResult = 0#32 ∧ s.memResult = 0#32 ∧ s.cycle = 0 ∧ s.fault = none ∧ s.cfg = cfg ∧ s.IS = prog) ∧
  State.reset = State.boot State.reset.cfg [] ∧ State.reset.cfg.forwardingEnabled = false

/-- R42: a step runs one cycle while the block is neither drained nor faulted, and otherwise changes nothing. -/
def Obligations.StepRunsACycleOrChangesNothing : Prop :=
  ∀ s : State,
    (s.drained = false → s.fault = none → step s = cycle s) ∧
    (s.drained = true → step s = .next s) ∧ (∀ f, s.fault = some f → step s = .next s)

/-- R150: drained tests Fetch, Decode, Execute, Memory and the cursor, and not Writeback. -/
def Obligations.DrainedTestsFourSlotsAndTheCursor : Prop :=
  ∀ s : State, s.drained = true ↔
    s.F = none ∧ s.D = none ∧ s.E = none ∧ s.M = none ∧ s.IS.length ≤ s.pc

/-- The step runs the decoded instruction. A step from a state in which an entry `k` with instruction `i` stands in Decode
after the Writeback and Memory steps, unfaulted and without a hazard (stands in Execute; stands in Memory), is `exec i` in
Execute (in Memory; in Writeback), with what the cycle adds around it: the stage steps before it, the entry's promotion, the
stage steps after it unless one raised, and the count. The stage is handed over in `servicing` (log entry 1). The instruction
placed by `withFetchWord` (log entry 4) is the one `decode` reads. -/
def Obligations.StepRunsTheDecodedInstruction : Prop :=
  (∀ (s u : State) (k : Nat) (i : Instr), s.IS[k]? = some i →
    olderSteps s = .next u → u.fault = none → u.D = some k → u.hazard i = false →
      step s = mapNext State.countCycle (thenStep
        (mapNext (State.setServicing none) (exec i { u with E := some k, D := none, servicing := some .execute }))
        youngerSteps)) ∧
  (∀ (s w : State) (k : Nat) (i : Instr), s.fault = none → s.IS[k]? = some i →
    writebackStep s = .next w → s.E = some k →
      step s = mapNext State.countCycle (thenStep (thenStep
        (mapNext (State.setServicing none) (exec i { w with M := some k, E := none, servicing := some .memory }))
        executeStep) youngerSteps)) ∧
  (∀ (s : State) (k : Nat) (i : Instr), s.fault = none → s.IS[k]? = some i → s.M = some k →
      step s = mapNext State.countCycle (thenStep (thenStep (thenStep
        (mapNext (State.setServicing none) (exec i { s with W := some k, M := none, servicing := some .writeback }))
        memoryStep) executeStep) youngerSteps)) ∧
  (∀ (s : State) (nbits w : Nat),
    let p := s.withFetchWord nbits w
    step p = mapNext State.countCycle (thenStep
      (mapNext (State.setServicing none)
        (exec (decode (tableWord nbits w)) { p with E := some 0, D := none, servicing := some .execute }))
      youngerSteps))

/-- R261: the first cycle of a program that has an entry fetches entry 0 and does nothing else but count. -/
def Obligations.FirstCycleFetchesEntryZero : Prop :=
  ∀ (cfg : Cfg) (prog : List Instr), prog ≠ [] →
    step (State.boot cfg prog) = .next { State.boot cfg prog with F := some 0, pc := 1, cycle := 1 }

/-- The invariant `State.Inv` (cursor and slots in range, canonical memory, Decode empty behind a branch in Execute, a fault
record that names an entry and its cycle) is kept by every step. The canonical form, the servicing field, the slots of a faulted
state and the record's cycle number are the model's (log entries 1, 3, 6, 7). -/
def Obligations.StepKeepsTheInvariant : Prop :=
  ∀ s t : State, s.Inv → step s = .next t → t.Inv

/-- Every start of a run meets the invariant. -/
def Obligations.ResetMeetsTheInvariant : Prop :=
  State.reset.Inv ∧ ∀ (cfg : Cfg) (prog : List Instr), (State.boot cfg prog).Inv

/-- From every state that meets the invariant a step has a next state: no refusal and no stop. -/
def Obligations.StepAlwaysHasANextState : Prop :=
  ∀ s : State, s.Inv → ∃ t, step s = .next t

/-- The program and the configuration change only at reset: no step changes them. -/
def Obligations.StepKeepsProgramAndConfiguration : Prop :=
  ∀ s t : State, step s = .next t → t.cfg = s.cfg ∧ t.IS = s.IS

/-- R151: each cycle run, faulting or not, counts one; a run's count is the number of cycles it took. -/
def Obligations.EveryCycleRunIsCounted : Prop :=
  (∀ s t : State, step s = .next t → t.cycle = if s.running = true then s.cycle + 1 else s.cycle) ∧
  (∀ (cfg : Cfg) (prog : List Instr) (n : Nat) (t : State), runsTo n (State.boot cfg prog) t →
    t.cycle ≤ n ∧ (t.running = true → t.cycle = n) ∧ runsTo t.cycle (State.boot cfg prog) t)

/-- R8: `datapath_mode` is read by no rule: a step from a state with another value of it is the same step. -/
def Obligations.DatapathModeHasNoEffect : Prop :=
  ∀ (s : State) (m : Nat),
    step { s with cfg := { s.cfg with datapathMode := m } } =
      mapNext (fun t => { t with cfg := { t.cfg with datapathMode := m } }) (step s)

/-- A recorded fault is never cleared and no further cycle runs: a step answers the state itself (log entry 8). -/
def Obligations.FaultedStateIsFinal : Prop :=
  ∀ (s t : State) (f : Fault) (n : Nat), s.fault = some f → runsTo n s t → t = s

/-! ### Encoding -/

/-- Words of the spec's tables decode to the instructions they stand for, one of every form. -/
def Obligations.SampleWordsDecode : Prop :=
  decode 0x00221860#32 = .add 3#5 1#5 2#5 1#5 ∧ decode 0x001F2822#32 = .sub 5#5 0#5 31#5 0#5 ∧
  decode 0x2084FFFF#32 = .addi 4#5 4#5 (-1) ∧ decode 0x8C22FFFF#32 = .lw 2#5 1#5 (-1) ∧
  decode 0xAFC7FFFC#32 = .sw 7#5 30#5 (-4) ∧ decode 0x10410008#32 = .beq 1#5 2#5 8 ∧
  decode 0x00000021#32 = .unknown ∧ decodeTableWord 32 0x8C22FFFF = some (.lw 2#5 1#5 (-1))

/-- Decoding the word of a well-formed instruction gives it back, with every operand at every value. -/
def Obligations.DecodeInvertsEncode : Prop :=
  ∀ i : Instr, i.wellFormed = true → decode (encode i) = i

/-- Encoding a decoded word gives it back exactly for the words of a row of the opcode map and for the canonical `Unknown`
word. -/
def Obligations.EncodeInvertsDecodeExactlyOnRows : Prop :=
  ∀ w : Word, encode (decode w) = w ↔ matchesSomeRow w = true ∨ w = 0#32

/-- Every word decodes to a well-formed instruction; it is of the kind of the row that holds the word, and `Unknown` where no
row does. -/
def Obligations.DecodeFollowsTheOpcodeMap : Prop :=
  ∀ w : Word, (decode w).wellFormed = true ∧
    (∀ r ∈ opcodeMap, r.matchesWord w = true → kindOf (decode w) = r.kind) ∧
    (matchesSomeRow w = false → decode w = .unknown)

/-- The byte image of a well-formed program decodes to the program. -/
def Obligations.ImageRoundTrip : Prop :=
  ∀ prog : List Instr, programWellFormed prog = true → decodeImage (imageOf prog) = .ok prog

/-- The tagged variants in range are exactly the well-formed instructions. -/
def Obligations.VariantsInRangeAreTheInstructions : Prop :=
  (∀ i : Instr, i.wellFormed = true → (toVariant i).wellFormed = true ∧ ofVariant (toVariant i) = some i) ∧
  (∀ v : Variant, v.wellFormed = true → ∃ i, i.wellFormed = true ∧ ofVariant v = some i ∧ toVariant i = v) ∧
  (∀ v : Variant, v.wellFormed = false → ofVariant v = none)

/-! ### What each instruction does -/

/-- R144, R145: the Decode step moves Fetch's entry into an empty Decode where no branch is in Execute, and the Fetch step
pulls the cursor's entry into an empty Fetch; neither changes anything else, whatever instruction is in Fetch or Decode. They
are all that a cycle runs after its Execute step. -/
def Obligations.DecodeAndFetchChangeOnlyTheirSlotsAndTheCursor : Prop :=
  (∀ s : State,
    (∀ f, s.D = none → s.F = some f → s.holdsBranch s.E = false → decodeStep s = { s with D := some f, F := none }) ∧
    (s.D ≠ none ∨ s.F = none ∨ s.holdsBranch s.E = true → decodeStep s = s) ∧
    (s.F = none → s.pc < s.IS.length → fetchStep s = { s with F := some s.pc, pc := s.pc + 1 }) ∧
    (s.F ≠ none ∨ s.IS.length ≤ s.pc → fetchStep s = s)) ∧
  (∀ s u : State, s.running = true → thenStep (olderSteps s) executeStep = .next u → u.fault = none →
    step s = .next (State.countCycle (fetchStep (decodeStep u))))

/-- `add` completes in each stage and as a whole: `(x[rs] + x[rt]) << sh` through `exResult` and `memResult` into `rd`. -/
def Obligations.AddCompletesWithItsResult : Prop :=
  ∀ (rd rs rt : RegIx) (sh : ShAmt) (s : State) (k : Nat),
    let v := (s.readReg rs + s.readReg rt) <<< sh.toNat
    (s.servicing = some .execute → s.E = some k → exec (.add rd rs rt sh) s = .next { s with exResult := v }) ∧
    (s.servicing = some .memory → s.M = some k → exec (.add rd rs rt sh) s = .next { s with memResult := s.exResult }) ∧
    (s.servicing = some .writeback → s.W = some k →
      exec (.add rd rs rt sh) s = .next (s.writeReg rd s.memResult)) ∧
    (s.servicing = none → s.fault = none →
      exec (.add rd rs rt sh) s = .next (State.writeReg rd v { s.takeNext with exResult := v, memResult := v }))

/-- `sub` completes in each stage and as a whole: `(x[rs] - x[rt]) << sh` through `exResult` and `memResult` into `rd`. -/
def Obligations.SubCompletesWithItsResult : Prop :=
  ∀ (rd rs rt : RegIx) (sh : ShAmt) (s : State) (k : Nat),
    let v := (s.readReg rs - s.readReg rt) <<< sh.toNat
    (s.servicing = some .execute → s.E = some k → exec (.sub rd rs rt sh) s = .next { s with exResult := v }) ∧
    (s.servicing = some .memory → s.M = some k → exec (.sub rd rs rt sh) s = .next { s with memResult := s.exResult }) ∧
    (s.servicing = some .writeback → s.W = some k →
      exec (.sub rd rs rt sh) s = .next (s.writeReg rd s.memResult)) ∧
    (s.servicing = none → s.fault = none →
      exec (.sub rd rs rt sh) s = .next (State.writeReg rd v { s.takeNext with exResult := v, memResult := v }))

/-- `addi` completes: a sum into `exResult`, and nothing in Memory or Writeback. -/
def Obligations.AddiCompletesWithoutAnEffect : Prop :=
  ∀ (rt rs : RegIx) (imm : Int) (s : State) (k : Nat),
    let v := s.readReg rs + BitVec.ofInt 32 imm
    (s.servicing = some .execute → s.E = some k → exec (.addi rt rs imm) s = .next { s with exResult := v }) ∧
    (s.servicing = some .memory → s.M = some k → exec (.addi rt rs imm) s = .next s) ∧
    (s.servicing = some .writeback → s.W = some k → exec (.addi rt rs imm) s = .next s) ∧
    (s.servicing = none → s.fault = none → exec (.addi rt rs imm) s = .next { s.takeNext with exResult := v })

/-- `lw` completes: the word index into `exResult`, the data word at it into `memResult`, and that into `rt`. -/
def Obligations.LwCompletesWithTheDataWord : Prop :=
  ∀ (rt rs : RegIx) (off : Int) (s : State) (k a : Nat),
    let v := s.readReg rs + BitVec.ofInt 32 off
    (s.servicing = some .execute → s.E = some k → exec (.lw rt rs off) s = .next { s with exResult := v }) ∧
    (s.servicing = some .memory → s.M = some k → a ≤ 31 → s.exResult.toInt = a →
      exec (.lw rt rs off) s = .next { s with memResult := s.dmRead a }) ∧
    (s.servicing = some .writeback → s.W = some k →
      exec (.lw rt rs off) s = .next (s.writeReg rt s.memResult)) ∧
    (s.servicing = none → s.fault = none → a ≤ 31 → v.toInt = a →
      exec (.lw rt rs off) s =
        .next (State.writeReg rt (s.dmRead a) { s.takeNext with exResult := v, memResult := s.dmRead a }))

/-- `sw` completes: the word index into `exResult`, `x[rt]` into the data word at it, and nothing in Writeback. -/
def Obligations.SwCompletesWithTheStore : Prop :=
  ∀ (rt rs : RegIx) (off : Int) (s : State) (k a : Nat),
    let v := s.readReg rs + BitVec.ofInt 32 off
    (s.servicing = some .execute → s.E = some k → exec (.sw rt rs off) s = .next { s with exResult := v }) ∧
    (s.servicing = some .memory → s.M = some k → a ≤ 31 → s.exResult.toInt = a →
      exec (.sw rt rs off) s = .next (s.dmWrite a (s.readReg rt))) ∧
    (s.servicing = some .writeback → s.W = some k → exec (.sw rt rs off) s = .next s) ∧
    (s.servicing = none → s.fault = none → a ≤ 31 → v.toInt = a →
      exec (.sw rt rs off) s = .next (State.dmWrite a (s.readReg rt) { s.takeNext with exResult := v }))

/-- R242: in the Memory step of a `lw` or `sw` whose `exResult` lies outside 0..31, MemoryRangeFault is raised and nothing is
read or written. Run as a whole (R160, log entry 2), it raises too and the cursor stays at the instruction. The record's cycle
number is the model's (log entries 7, 16). -/
def Obligations.LoadAndStoreOutsideTheMemoryRaise : Prop :=
  ∀ (rt rs : RegIx) (off : Int) (i : Instr) (s : State) (k : Nat), i = .lw rt rs off ∨ i = .sw rt rs off →
    let v := s.readReg rs + BitVec.ofInt 32 off
    (s.servicing = some .memory → s.M = some k → s.exResult.toInt < 0 ∨ 31 < s.exResult.toInt →
      exec i s = .next { s with fault := some (.memoryRange k s.exResult.toInt (s.cycle + 1)) }) ∧
    (s.servicing = none → s.fault = none → v.toInt < 0 ∨ 31 < v.toInt →
      exec i s = .next { s.takeNext with
        pc := s.nextIndex, exResult := v, fault := some (.memoryRange s.nextIndex v.toInt (s.cycle + 1)) })

/-- `beq` completes: not taken where the registers differ or the displacement is 0, else to entry `k - disp / 4`, with Fetch
and Decode discarded; nothing in Memory or Writeback. -/
def Obligations.BeqCompletesTakenOrNot : Prop :=
  ∀ (rt rs : RegIx) (disp : Int) (s : State) (k t : Nat),
    (s.servicing = some .execute → s.E = some k →
      (s.readReg rs ≠ s.readReg rt ∨ disp = 0 → exec (.beq rt rs disp) s = .next { s with exResult := 0#32 }) ∧
      (s.readReg rs = s.readReg rt → immInRange disp = true → disp ≠ 0 → (t : Int) * 4 = (k : Int) * 4 - disp →
        t ≤ s.IS.length →
        exec (.beq rt rs disp) s = .next { s with exResult := BitVec.ofInt 32 disp, F := none, D := none, pc := t })) ∧
    (s.servicing = some .memory → s.M = some k → exec (.beq rt rs disp) s = .next s) ∧
    (s.servicing = some .writeback → s.W = some k → exec (.beq rt rs disp) s = .next s) ∧
    (s.servicing = none → s.fault = none →
      (s.readReg rs ≠ s.readReg rt ∨ disp = 0 → exec (.beq rt rs disp) s = .next { s.takeNext with exResult := 0#32 }) ∧
      (s.readReg rs = s.readReg rt → immInRange disp = true → disp ≠ 0 →
        (t : Int) * 4 = (s.nextIndex : Int) * 4 - disp → t ≤ s.IS.length →
        exec (.beq rt rs disp) s = .next { s.takeNext with exResult := BitVec.ofInt 32 disp, pc := t }))

/-- A taken `beq` whose displacement is no multiple of 4, or whose target is below 0 or above `N`, raises BranchTargetFault
and neither flushes nor moves the cursor. Run as a whole (R160, log entry 2), it raises too and the cursor stays at the
instruction. The `exResult` written and the record's cycle number are the model's readings (log entries 6, 7, 16). -/
def Obligations.TakenBeqOutsideTheProgramRaises : Prop :=
  ∀ (rt rs : RegIx) (disp : Int) (s : State) (k : Nat),
    s.readReg rs = s.readReg rt → immInRange disp = true → disp ≠ 0 →
    (disp % 4 ≠ 0 ∨ (k : Int) * 4 - disp < 0 ∨ (s.IS.length : Int) * 4 < (k : Int) * 4 - disp) →
    (s.servicing = some .execute → s.E = some k →
      exec (.beq rt rs disp) s =
        .next { s with exResult := BitVec.ofInt 32 disp, fault := some (.branchTarget k disp (s.cycle + 1)) }) ∧
    (s.servicing = none → s.fault = none → s.nextIndex = k →
      exec (.beq rt rs disp) s = .next { s.takeNext with
        pc := k, exResult := BitVec.ofInt 32 disp, fault := some (.branchTarget k disp (s.cycle + 1)) })

/-- `Unknown` completes and does nothing in any stage. -/
def Obligations.UnknownCompletesWithoutAnEffect : Prop :=
  ∀ (s : State) (k : Nat),
    (s.servicing = some .execute → s.E = some k → exec .unknown s = .next s) ∧
    (s.servicing = some .memory → s.M = some k → exec .unknown s = .next s) ∧
    (s.servicing = some .writeback → s.W = some k → exec .unknown s = .next s) ∧
    (s.servicing = none → s.fault = none → exec .unknown s = .next s.takeNext)

/-! ### Frames -/

/-- `add` and `sub` change no register but `rd`, and that only in Writeback (or as a whole), and no data word; they raise
nothing and, serviced in a stage, leave the slots and the other stage's result. The stage is chosen by `servicing` (log entry
1), and "as a whole" is `exec` with none serviced (log entry 2). -/
def Obligations.AddAndSubChangeOnlyTheirDestination : Prop :=
  ∀ (rd rs rt : RegIx) (sh : ShAmt) (i : Instr) (s t : State), i = .add rd rs rt sh ∨ i = .sub rd rs rt sh →
    exec i s = .next t →
    (∀ r, r ≠ rd → t.readReg r = s.readReg r) ∧
    (s.servicing ≠ none → s.servicing ≠ some .writeback → ∀ r, t.readReg r = s.readReg r) ∧
    (∀ a, t.dmRead a = s.dmRead a) ∧ t.fault = s.fault ∧ keepsRun s t ∧
    (s.servicing ≠ none → keepsSlots s t ∧
      (s.servicing ≠ some .execute → t.exResult = s.exResult) ∧ (s.servicing ≠ some .memory → t.memResult = s.memResult))

/-- `lw` changes no register but `rt`, and that only in Writeback (or as a whole), and no data word; serviced in a stage it
leaves the slots and the other stage's result, and it raises in Memory only. The stage is chosen by `servicing` (log entry 1),
and "as a whole" is `exec` with none serviced (log entry 2). -/
def Obligations.LwChangesOnlyItsTarget : Prop :=
  ∀ (rt rs : RegIx) (off : Int) (s t : State), exec (.lw rt rs off) s = .next t →
    (∀ r, r ≠ rt → t.readReg r = s.readReg r) ∧
    (s.servicing ≠ none → s.servicing ≠ some .writeback → ∀ r, t.readReg r = s.readReg r) ∧
    (∀ a, t.dmRead a = s.dmRead a) ∧ keepsRun s t ∧
    (s.servicing ≠ none → keepsSlots s t ∧ (s.servicing ≠ some .memory → t.fault = s.fault) ∧
      (s.servicing ≠ some .execute → t.exResult = s.exResult) ∧ (s.servicing ≠ some .memory → t.memResult = s.memResult))

/-- `sw` changes no register, and no data word but the one at the index in `exResult` in Memory, or at its effective address
as a whole; where that index is outside the memory, no data word at all. The stage is chosen by `servicing` (log entry 1), and
"as a whole" is `exec` with none serviced (log entry 2). -/
def Obligations.SwChangesOnlyTheWordStored : Prop :=
  ∀ (rt rs : RegIx) (off : Int) (s t : State), exec (.sw rt rs off) s = .next t →
    (∀ r, t.readReg r = s.readReg r) ∧ t.memResult = s.memResult ∧ keepsRun s t ∧
    (s.servicing = some .memory →
      (∀ a, dataIndex s.exResult = some a → ∀ b, b ≠ a → t.dmRead b = s.dmRead b) ∧
      (dataIndex s.exResult = none → ∀ b, t.dmRead b = s.dmRead b)) ∧
    (s.servicing = none →
      (∀ a, dataIndex (s.basePlusOffset rs off) = some a → ∀ b, b ≠ a → t.dmRead b = s.dmRead b) ∧
      (dataIndex (s.basePlusOffset rs off) = none → ∀ b, t.dmRead b = s.dmRead b)) ∧
    (s.servicing ≠ some .memory → s.servicing ≠ none → ∀ b, t.dmRead b = s.dmRead b) ∧
    (s.servicing ≠ none → keepsSlots s t ∧ (s.servicing ≠ some .memory → t.fault = s.fault) ∧
      (s.servicing ≠ some .execute → t.exResult = s.exResult))

/-- `addi`, `beq` and `Unknown` change no register, no data word and not `memResult`; `addi` and `Unknown` raise nothing,
`Unknown` leaves `exResult`, and only a `beq` in Execute touches Fetch, Decode and the cursor. The stage is chosen by
`servicing` (log entry 1); where none is serviced the instruction runs as a whole (log entry 2). -/
def Obligations.AddiBeqAndUnknownChangeNoRegisterAndNoWord : Prop :=
  ∀ (rt rs : RegIx) (v : Int) (i : Instr) (s t : State), i = .addi rt rs v ∨ i = .beq rt rs v ∨ i = .unknown →
    exec i s = .next t →
    (∀ r, t.readReg r = s.readReg r) ∧ (∀ a, t.dmRead a = s.dmRead a) ∧ t.memResult = s.memResult ∧ keepsRun s t ∧
    (kindOf i ≠ .beq → t.fault = s.fault) ∧ (kindOf i = .unknown → t.exResult = s.exResult) ∧
    (s.servicing ≠ none →
      t.E = s.E ∧ t.M = s.M ∧ t.W = s.W ∧ (s.servicing ≠ some .execute → t.exResult = s.exResult ∧ t.fault = s.fault) ∧
      (kindOf i ≠ .beq ∨ s.servicing ≠ some .execute → keepsSlots s t))

/-! ### Registers and data memory -/

/-- Every register, 0 included, reads what was last written to it, and a write leaves every other one. -/
def Obligations.EveryRegisterIsWritable : Prop :=
  ∀ (s : State) (r q : RegIx) (v : Word), (s.writeReg r v).readReg q = if q = r then v else s.readReg q

/-- Every data word reads what was last written to it, a write leaves every other one, and writes keep the canonical form. -/
def Obligations.DataMemoryReadsTheLatestWrite : Prop :=
  ∀ (s : State) (a b : Nat) (v : Word), Memory.wf s.DM = true → a < 32 →
    (s.dmWrite a v).dmRead b = (if b = a then v else s.dmRead b) ∧ Memory.wf (s.dmWrite a v).DM = true

/-- A register changes only in the Writeback step: to `memResult`, at the destination of the `add`, `sub` or `lw` that was in
Memory. -/
def Obligations.RegistersChangeOnlyInWriteback : Prop :=
  ∀ (s t : State) (r : RegIx), step s = .next t → t.readReg r ≠ s.readReg r →
    ∃ k i, s.M = some k ∧ s.IS[k]? = some i ∧ commitOf i = some r ∧ t.readReg r = s.memResult

/-- A data word changes only in the Memory step of a `sw`, at the index in `exResult`, to the stored register as this cycle's
Writeback step left it. The premise is the memory's canonical form (log entry 3). -/
def Obligations.DataMemoryChangesOnlyByAStore : Prop :=
  ∀ (s t : State) (a : Nat), Memory.wf s.DM = true → step s = .next t → t.dmRead a ≠ s.dmRead a →
    ∃ k rt rs off, s.E = some k ∧ s.IS[k]? = some (.sw rt rs off) ∧ dataIndex s.exResult = some a ∧
      t.dmRead a = t.readReg rt

/-- A `sw` and then a `lw` of the same effective address, each run as a whole as SEQ runs it (R160, the model's `exec` with no
stage serviced, log entry 2), yield the value stored: the round trip of R194 on the sequential machine. -/
def Obligations.StoreThenLoadYieldsTheValueStored : Prop :=
  ∀ (rt rt2 rs : RegIx) (off : Int) (s t u : State), Memory.wf s.DM = true → s.servicing = none → s.fault = none →
    exec (.sw rt rs off) s = .next t → t.fault = none → exec (.lw rt2 rs off) t = .next u →
    u.fault = none ∧ u.readReg rt2 = s.readReg rt

/-! ### Hazards, branches, faults -/

/-- R141, R142: the destination and the sources of every form. -/
def Obligations.HazardTablesAsStated : Prop :=
  ∀ (rd rs rt : RegIx) (sh : ShAmt) (v : Int),
    destOf (.add rd rs rt sh) = some rd ∧ destOf (.sub rd rs rt sh) = some rd ∧ destOf (.addi rt rs v) = some rt ∧
    destOf (.lw rt rs v) = some rt ∧ destOf (.sw rt rs v) = none ∧ destOf (.beq rt rs v) = none ∧
    destOf .unknown = none ∧
    (∀ r, (r ∈ srcsOf (.add rd rs rt sh) ↔ r = rs ∨ r = rt) ∧ (r ∈ srcsOf (.sub rd rs rt sh) ↔ r = rs ∨ r = rt) ∧
      (r ∈ srcsOf (.addi rt rs v) ↔ r = rs) ∧ (r ∈ srcsOf (.lw rt rs v) ↔ r = rs) ∧
      (r ∈ srcsOf (.sw rt rs v) ↔ r = rs ∨ r = rt) ∧ (r ∈ srcsOf (.beq rt rs v) ↔ r = rs ∨ r = rt) ∧
      r ∉ srcsOf .unknown)

/-- R139: the hazard predicate compares the sources of the instruction in Decode with the destination of the one in Memory
and, with forwarding disabled, of the one in Writeback. -/
def Obligations.HazardPredicateAsStated : Prop :=
  ∀ (s : State) (i : Instr), s.hazard i = true ↔
    ∃ r ∈ srcsOf i,
      (∃ m j, s.M = some m ∧ s.IS[m]? = some j ∧ destOf j = some r) ∨
      (s.cfg.forwardingEnabled = false ∧ ∃ w j, s.W = some w ∧ s.IS[w]? = some j ∧ destOf j = some r)

/-- A cycle moves entries one stage at a time, and drops none but the one in Fetch behind a branch that enters Execute and is
taken: Writeback and Memory take what Memory and Execute held, Execute takes nothing or Decode's entry, an entry leaves
Decode only into Execute, and an entry leaves Fetch only into Decode or by that branch's flush. What it says of the slots of
the raising step in a cycle that faults is the model's reading (log entry 6). -/
def Obligations.SlotsAdvanceOneStage : Prop :=
  ∀ s t : State, s.running = true → step s = .next t →
    t.W = s.M ∧ t.M = s.E ∧ (t.E = none ∨ t.E = s.D) ∧ (∀ k, s.D = some k → t.D = some k ∨ t.E = some k) ∧
    (t.D = none ∨ t.D = s.D ∨ (t.D = s.F ∧ s.F.isSome = true)) ∧
    (t.F = none ∨ t.F = s.F ∨ (t.F = some (t.pc - 1) ∧ 0 < t.pc ∧ t.pc ≤ t.IS.length)) ∧
    (∀ f, s.F = some f → t.F = some f ∨ t.D = some f ∨
      ∃ k rt rs disp, s.D = some k ∧ t.E = some k ∧ s.IS[k]? = some (.beq rt rs disp) ∧
        t.readReg rs = t.readReg rt ∧ t.exResult = BitVec.ofInt 32 disp ∧ t.exResult ≠ 0#32 ∧ t.fault = none)

/-- The hazard predicate decides whether the instruction in Decode enters Execute. With `u` the state after this cycle's
Writeback and Memory steps: a source of it is the destination of the instruction that was in Execute (now in Memory) or, with
forwarding disabled only, of the one that was in Memory (now in Writeback), and it stays in Decode; otherwise, a producer in
Writeback with forwarding enabled included, it enters Execute in this cycle and runs its Execute action there. The last clause
says that it stays in a cycle that faults too (the slots of such a cycle: log entry 6). The action is `exec` with Execute
being serviced (log entry 1). -/
def Obligations.HazardDecidesAdmissionToExecute : Prop :=
  (∀ (s u : State) (k : Nat) (i : Instr), olderSteps s = .next u → u.fault = none → u.D = some k → s.IS[k]? = some i →
    (u.hazard i = true ↔ ∃ r ∈ srcsOf i,
      (∃ m j, s.E = some m ∧ s.IS[m]? = some j ∧ destOf j = some r) ∨
      (s.cfg.forwardingEnabled = false ∧ ∃ w j, s.M = some w ∧ s.IS[w]? = some j ∧ destOf j = some r)) ∧
    (u.hazard i = true → u.E = none ∧ step s = .next (State.countCycle (fetchStep u))) ∧
    (u.hazard i = false → ∃ v t,
      exec i { u with E := some k, D := none, servicing := some .execute } = .next v ∧ step s = .next t ∧
      t.E = some k ∧ t.M = u.M ∧ t.W = u.W ∧ t.exResult = v.exResult ∧ t.fault = v.fault)) ∧
  (∀ (s t : State) (k m : Nat) (i j : Instr) (r : RegIx), s.running = true → s.D = some k → s.IS[k]? = some i →
    r ∈ srcsOf i → s.IS[m]? = some j → destOf j = some r →
    s.E = some m ∨ (s.cfg.forwardingEnabled = false ∧ s.M = some m) →
    step s = .next t → t.D = some k ∧ t.E = none)

/-- No stall lasts: an instruction in Decode enters Execute in one of the next three cycles, unless a fault ends the run. -/
def Obligations.EveryStallEndsWithinTwoCycles : Prop :=
  ∀ (s : State) (k : Nat), s.Inv → s.fault = none → s.D = some k →
    ∃ n t u, n ≤ 2 ∧ runsTo n s t ∧ step t = .next u ∧ (u.fault ≠ none ∨ u.E = some k)

/-- No instruction enters Decode while a branch is in Execute: a cycle that leaves a `beq` in Execute leaves Decode empty. In a
cycle in which that branch raises this is the model's reading (log entry 6). -/
def Obligations.BranchInFlightBlocksDecode : Prop :=
  ∀ s t : State, s.running = true → step s = .next t → t.holdsBranch t.E = true → t.D = none

/-- R138, R144, R145: a taken branch that enters Execute, whatever is older in flight, discards the entries in Fetch and
Decode, and the same cycle fetches the target if there is an entry there. `u` is the state after this cycle's Writeback and
Memory steps, in which the registers are compared. -/
def Obligations.TakenBranchRefillsFromItsTarget : Prop :=
  ∀ (rt rs : RegIx) (disp : Int) (s u : State) (k t : Nat), olderSteps s = .next u → u.fault = none → u.D = some k →
    s.IS[k]? = some (.beq rt rs disp) → u.hazard (.beq rt rs disp) = false → u.readReg rs = u.readReg rt →
    immInRange disp = true → disp ≠ 0 → (t : Int) * 4 = (k : Int) * 4 - disp → t ≤ s.IS.length →
    step s = .next { u with
      E := some k, D := none, F := if t < s.IS.length then some t else none,
      pc := if t < s.IS.length then t + 1 else t, exResult := BitVec.ofInt 32 disp, cycle := s.cycle + 1,
      servicing := none }

/-- R211: the target of a branch at entry `k` with displacement `disp` in a program of `n` entries. -/
def Obligations.BranchTargetAsStated : Prop :=
  ∀ (n k : Nat) (disp : Int),
    (branchTarget n k disp = none ↔ disp % 4 ≠ 0 ∨ (k : Int) - disp / 4 < 0 ∨ (k : Int) - disp / 4 > n) ∧
    (∀ t : Nat, branchTarget n k disp = some t ↔ (t : Int) * 4 = (k : Int) * 4 - disp ∧ t ≤ n)

/-- A `lw` or `sw` that enters Memory with an index outside 0..31 stops the cycle there: its record is set, the cycle is
counted, the Execute, Decode and Fetch steps do not run (so that no branch can raise in that cycle), and Writeback has run.
That the raising step has promoted its slot (Memory filled, Execute empty) is the model's reading (log entry 6), and so is the
record's cycle number (log entry 7). -/
def Obligations.MemoryFaultStopsTheCycle : Prop :=
  ∀ (s : State) (k : Nat) (rt rs : RegIx) (off : Int), s.running = true → s.slotInStore s.M → s.E = some k →
    s.IS[k]? = some (.lw rt rs off) ∨ s.IS[k]? = some (.sw rt rs off) →
    s.exResult.toInt < 0 ∨ 31 < s.exResult.toInt →
    ∃ w, writebackStep s = .next w ∧
      step s = .next { w with
        M := some k, E := none, fault := some (.memoryRange k s.exResult.toInt (s.cycle + 1)), cycle := s.cycle + 1,
        servicing := none } ∧
      w.F = s.F ∧ w.D = s.D ∧ w.pc = s.pc ∧ w.DM = s.DM ∧ w.W = s.M ∧ w.exResult = s.exResult ∧ w.memResult = s.memResult

/-- A taken `beq` with a bad target that enters Execute, whatever is older in flight, stops the cycle: its record is set, the
cycle is counted, and Fetch and the cursor are not touched. `u` is the state after this cycle's Writeback and Memory steps,
which stand. That Decode is already empty, Execute filled and `exResult` written when it raises is the model's reading (log
entry 6), and so is the record's cycle number (log entry 7). -/
def Obligations.BranchFaultStopsTheCycle : Prop :=
  ∀ (rt rs : RegIx) (disp : Int) (s u : State) (k : Nat), olderSteps s = .next u → u.fault = none → u.D = some k →
    s.IS[k]? = some (.beq rt rs disp) → u.hazard (.beq rt rs disp) = false → u.readReg rs = u.readReg rt →
    immInRange disp = true → disp ≠ 0 →
    (disp % 4 ≠ 0 ∨ (k : Int) * 4 - disp < 0 ∨ (s.IS.length : Int) * 4 < (k : Int) * 4 - disp) →
    step s = .next { u with
      E := some k, D := none, exResult := BitVec.ofInt 32 disp,
      fault := some (.branchTarget k disp (s.cycle + 1)), cycle := s.cycle + 1, servicing := none }

/-! ### Timing, the trace, and the sequential machine -/

/-- An instruction other than a branch with nothing else in flight takes three cycles from Decode, and leaves what `exec`
gives it as a whole. -/
def Obligations.LoneInstructionTakesThreeCyclesFromDecode : Prop :=
  ∀ (s u : State) (k : Nat) (i : Instr), s.fault = none → s.servicing = none → s.D = some k → s.IS[k]? = some i →
    s.F = none → s.E = none → s.M = none → s.pc = s.IS.length → s.IS.length = k + 1 → kindOf i ≠ .beq →
    exec i s = .next u → u.fault = none → runsTo 3 s { u with W := some k, cycle := s.cycle + 3 }

/-- The timing the spec derives in R161: with no `beq`, no stall and, a premise of this statement, no fault, entry `k` is in
Fetch, Decode, Execute, Memory and Writeback in cycles `k + 1` to `k + 5`, and the run is drained after cycle `N + 4` and not
before; an empty program takes 0 cycles. -/
def Obligations.StraightLineTiming : Prop :=
  ∀ (cfg : Cfg) (prog : List Instr) (n : Nat) (t : State),
    (∀ i ∈ prog, kindOf i ≠ .beq) →
    (∀ m u, m < n → runsTo m (State.boot cfg prog) u → ¬ u.stalls) →
    runsTo n (State.boot cfg prog) t → t.fault = none → n ≤ prog.length + 4 →
    (prog = [] → t.drained = true ∧ t.cycle = 0) ∧
    (prog ≠ [] → t.cycle = n ∧ (t.drained = true ↔ n = prog.length + 4) ∧
      ∀ k, k < prog.length →
        (t.F = some k ↔ n = k + 1) ∧ (t.D = some k ↔ n = k + 2) ∧ (t.E = some k ↔ n = k + 3) ∧
        (t.M = some k ↔ n = k + 4) ∧ (t.W = some k ↔ n = k + 5))

/-- R149: what a cycle emits: its marker, then the fault alone if it raised one, else an event for each occupied slot in the
order Writeback, Memory, Execute, Decode, Fetch; a step that runs no cycle emits nothing. -/
def Obligations.TraceOfACycle : Prop :=
  ∀ s t : State, t.Inv → step s = .next t →
    (s.running = false → stepTrace s = []) ∧
    (s.running = true → ∀ f, t.fault = some f → stepTrace s = [.cycleMark t.cycle, .fault f]) ∧
    (s.running = true → t.fault = none → ∃ evs, stepTrace s = .cycleMark t.cycle :: evs ∧
      evs = ([(Stage.writeback, t.W), (.memory, t.M), (.execute, t.E), (.decode, t.D), (.fetch, t.F)].flatMap fun p =>
        match p.2 with
        | some k => [.occupied (kindName (kindOf (t.IS.getD k .unknown))) k p.1]
        | none => []))

/-- R160: the pipeline halts exactly when the sequential machine halts, and then with the same registers and data memory; it
faults exactly when that faults, with the same kind and entry; for every program and both settings of forwarding. -/
def Obligations.PipelineRefinesTheSequentialMachine : Prop :=
  ∀ (cfg : Cfg) (prog : List Instr),
    let s := State.boot cfg prog
    (∀ n t, runsTo n s t → t.halted → ∃ m u, seqRunsTo m s u ∧ u.seqHalted ∧ u.x = t.x ∧ u.DM = t.DM) ∧
    (∀ m u, seqRunsTo m s u → u.seqHalted → ∃ n t, runsTo n s t ∧ t.halted ∧ t.x = u.x ∧ t.DM = u.DM) ∧
    (∀ n t f, runsTo n s t → t.fault = some f →
      ∃ m u g, seqRunsTo m s u ∧ u.fault = some g ∧ g.kind = f.kind ∧ g.index = f.index) ∧
    (∀ m u g, seqRunsTo m s u → u.fault = some g →
      ∃ n t f, runsTo n s t ∧ t.fault = some f ∧ f.kind = g.kind ∧ f.index = g.index)

/-- Forwarding changes only when things happen: two runs of a program that halt, one with it and one without, leave the same
registers and data memory, and one halts exactly when the other does. -/
def Obligations.ForwardingChangesOnlyTiming : Prop :=
  ∀ (mode : Nat) (prog : List Instr) (fwd : Bool) (n : Nat) (t : State),
    runsTo n (State.boot ⟨fwd, mode⟩ prog) t → t.halted →
    ∃ m u, runsTo m (State.boot ⟨!fwd, mode⟩ prog) u ∧ u.halted ∧ u.x = t.x ∧ u.DM = t.DM

/-! ### The encoder -/

/-- A program the encoder accepts is well-formed, fits the 32-bit byte addresses, and holds no shift amount but 0. -/
def Obligations.AcceptedProgramsAreWellFormed : Prop :=
  ∀ (p : EncoderParams) (text : List Char) (prog : List Instr), assemble p text = .ok prog →
    programWellFormed prog = true ∧ p.baseAddress + 4 * prog.length ≤ 4294967295 ∧
    (∀ rd rs rt sh, .add rd rs rt sh ∈ prog ∨ .sub rd rs rt sh ∈ prog → sh = 0#5)

/-- Lines that hold only label definitions, and blank lines, push nothing; such a label gets the address of the next
instruction pushed, the latest definition winning. -/
def Obligations.LabelLinesPushNothing : Prop :=
  ∀ (p : EncoderParams) (st : EncoderState) (line : List Char),
    (∀ t ∈ tokensOf line, endsWithColon t = true ∧ isLabelName t.dropLast = true) →
    ∃ sym, encodeLine p st line = .ok { IS := st.IS, sym := sym } ∧
      (∀ t ∈ tokensOf line, sym.lookup t.dropLast = some (p.baseAddress + 4 * st.IS.length)) ∧
      (∀ name, name ++ [':'] ∉ tokensOf line → sym.lookup name = st.sym.lookup name)

/-- R97: an unrecognized mnemonic pushes `Unknown`, whatever the tokens after it, where the addresses still fit; the labels a
line defines before it get that entry's address (R94, R95), and every other label stays. -/
def Obligations.UnknownMnemonicPushesUnknown : Prop :=
  ∀ (p : EncoderParams) (st : EncoderState) (line m : List Char) (labels rest : List (List Char)),
    tokensOf line = labels ++ m :: rest → (∀ t ∈ labels, endsWithColon t = true ∧ isLabelName t.dropLast = true) →
    endsWithColon m = false → mnemonicKind m = none → p.baseAddress + 4 * (st.IS.length + 1) ≤ 4294967295 →
    ∃ sym, encodeLine p st line = .ok { IS := st.IS ++ [.unknown], sym := sym } ∧
      (∀ t ∈ labels, sym.lookup t.dropLast = some (p.baseAddress + 4 * st.IS.length)) ∧
      (∀ name, name ++ [':'] ∉ labels → sym.lookup name = st.sym.lookup name)

/-- A branch encoded to a label defined earlier lands, when taken, exactly on the entry the label stands for. -/
def Obligations.BranchToAnEarlierLabelLandsOnIt : Prop :=
  ∀ (p : EncoderParams) (sym : SymbolTable) (name : List Char) (n k j : Nat) (disp : Int),
    isLabelName name = true → sym.lookup name = some (p.baseAddress + 4 * j) → j ≤ n →
    parseBranchTarget p sym (p.baseAddress + 4 * k) name = .ok disp →
    disp = 4 * (k : Int) - 4 * (j : Int) ∧ branchTarget n k disp = some j

/-- R108: a label referenced before its definition has address 0 under the policy `Zero`, so that the displacement is the
branch's own address, by which a branch at a base address of 0 goes to entry 0; it is refused under `Refuse`. -/
def Obligations.UndefinedLabelFollowsThePolicy : Prop :=
  ∀ (p : EncoderParams) (sym : SymbolTable) (name : List Char) (current : Nat),
    isLabelName name = true → sym.lookup name = none →
    (p.undefinedLabel = .zero → current ≤ 32767 → parseBranchTarget p sym current name = .ok (current : Int)) ∧
    (p.undefinedLabel = .zero → 32767 < current → parseBranchTarget p sym current name = .error .immediateOutOfRange) ∧
    (p.undefinedLabel = .refuse → parseBranchTarget p sym current name = .error .undefinedLabel) ∧
    ∀ n k : Nat, current = 4 * k → branchTarget n k current = some 0
end

