-- ==== Sys2Proof/Laws/Decode.lean ====
section
/-! SUPPORT. The fields of the words the encoder writes, the decoder as one chain of cases, and the bytes of a word. -/

namespace Sys2Proof

/-! ### The fields of an R-format word -/

section
variable (rs rt rd : RegIx) (sh : ShAmt) (f : BitVec 6)

@[simp] theorem opcodeField_rWord : opcodeField (rWord rs rt rd sh f) = 0#6 := by
  simp only [opcodeField, rWord]
  ext i hi
  simp
  grind

@[simp] theorem rsField_rWord : rsField (rWord rs rt rd sh f) = rs := by
  simp only [rsField, rWord]
  ext i hi
  simp
  grind

@[simp] theorem rtField_rWord : rtField (rWord rs rt rd sh f) = rt := by
  simp only [rtField, rWord]
  ext i hi
  simp
  grind

@[simp] theorem rdField_rWord : rdField (rWord rs rt rd sh f) = rd := by
  simp only [rdField, rWord]
  ext i hi
  simp
  grind

@[simp] theorem shamtField_rWord : shamtField (rWord rs rt rd sh f) = sh := by
  simp only [shamtField, rWord]
  ext i hi
  simp
  grind

@[simp] theorem functField_rWord : functField (rWord rs rt rd sh f) = f := by
  simp only [functField, rWord]
  ext i hi
  simp
  grind

end

/-! ### The fields of an I-format word -/

section
variable (op : BitVec 6) (rs rt : RegIx) (imm : Int)

@[simp] theorem opcodeField_iWord : opcodeField (iWord op rs rt imm) = op := by
  simp only [opcodeField, iWord]
  ext i hi
  simp
  grind

@[simp] theorem rsField_iWord : rsField (iWord op rs rt imm) = rs := by
  simp only [rsField, iWord]
  ext i hi
  simp
  grind

@[simp] theorem rtField_iWord : rtField (iWord op rs rt imm) = rt := by
  simp only [rtField, iWord]
  ext i hi
  simp
  grind

/-- The immediate field of an I-format word is the immediate, where it is in range. -/
theorem immField_iWord (h : immInRange imm = true) : immField (iWord op rs rt imm) = imm := by
  have hb : (iWord op rs rt imm).extractLsb' 0 16 = BitVec.ofInt 16 imm := by
    simp only [iWord]
    ext i hi
    simp
    grind
  simp only [immInRange, immMin, immMax, decide_eq_true_eq] at h
  rw [immField, hb, BitVec.toInt_ofInt, Int.bmod_eq_of_le] <;> omega

end

/-! ### The decoder -/

/-- The decoder as one chain of cases over the fields. -/
theorem decode_eq (w : Word) : decode w =
    if opcodeField w = 0x00#6 ∧ functField w = 0x20#6 then .add (rdField w) (rsField w) (rtField w) (shamtField w)
    else if opcodeField w = 0x00#6 ∧ functField w = 0x22#6 then .sub (rdField w) (rsField w) (rtField w) (shamtField w)
    else if opcodeField w = 0x08#6 then .addi (rtField w) (rsField w) (immField w)
    else if opcodeField w = 0x23#6 then .lw (rtField w) (rsField w) (immField w)
    else if opcodeField w = 0x2B#6 then .sw (rtField w) (rsField w) (immField w)
    else if opcodeField w = 0x04#6 then .beq (rtField w) (rsField w) (immField w)
    else .unknown := rfl

/-- The four bytes of a word give the word back. -/
theorem wordOfBytes_bytes (w : Word) :
    wordOfBytes (w.extractLsb' 0 8) (w.extractLsb' 8 8) (w.extractLsb' 16 8) (w.extractLsb' 24 8) = w := by
  simp only [wordOfBytes]
  ext i hi
  simp
  grind

/-- A decoded immediate is in range. -/
theorem immInRange_immField (w : Word) : immInRange (immField w) = true := by
  have h1 := BitVec.toInt_lt (x := w.extractLsb' 0 16)
  have h2 := BitVec.le_toInt (x := w.extractLsb' 0 16)
  simp [immInRange, immField, immMin, immMax] at *
  omega

end Sys2Proof
end

