-- ==== Sys2Proof/Laws/State.lean ====
section
/-! SUPPORT. What each update of the state leaves in each field: one lemma per field per update, all by definition. -/

namespace Sys2Proof.Machine.State

variable (s : State)

@[simp] theorem dmWrite_cfg (a : Nat) (v : Word) : (s.dmWrite a v).cfg = s.cfg := rfl
@[simp] theorem dmWrite_IS (a : Nat) (v : Word) : (s.dmWrite a v).IS = s.IS := rfl
@[simp] theorem dmWrite_x (a : Nat) (v : Word) : (s.dmWrite a v).x = s.x := rfl
@[simp] theorem dmWrite_DM (a : Nat) (v : Word) : (s.dmWrite a v).DM = Memory.write s.DM a v := rfl
@[simp] theorem dmWrite_pc (a : Nat) (v : Word) : (s.dmWrite a v).pc = s.pc := rfl
@[simp] theorem dmWrite_F (a : Nat) (v : Word) : (s.dmWrite a v).F = s.F := rfl
@[simp] theorem dmWrite_D (a : Nat) (v : Word) : (s.dmWrite a v).D = s.D := rfl
@[simp] theorem dmWrite_E (a : Nat) (v : Word) : (s.dmWrite a v).E = s.E := rfl
@[simp] theorem dmWrite_M (a : Nat) (v : Word) : (s.dmWrite a v).M = s.M := rfl
@[simp] theorem dmWrite_W (a : Nat) (v : Word) : (s.dmWrite a v).W = s.W := rfl
@[simp] theorem dmWrite_exResult (a : Nat) (v : Word) : (s.dmWrite a v).exResult = s.exResult := rfl
@[simp] theorem dmWrite_memResult (a : Nat) (v : Word) : (s.dmWrite a v).memResult = s.memResult := rfl
@[simp] theorem dmWrite_cycle (a : Nat) (v : Word) : (s.dmWrite a v).cycle = s.cycle := rfl
@[simp] theorem dmWrite_fault (a : Nat) (v : Word) : (s.dmWrite a v).fault = s.fault := rfl
@[simp] theorem dmWrite_servicing (a : Nat) (v : Word) : (s.dmWrite a v).servicing = s.servicing := rfl

@[simp] theorem writeReg_cfg (r : RegIx) (v : Word) : (s.writeReg r v).cfg = s.cfg := rfl
@[simp] theorem writeReg_IS (r : RegIx) (v : Word) : (s.writeReg r v).IS = s.IS := rfl
@[simp] theorem writeReg_x (r : RegIx) (v : Word) : (s.writeReg r v).x = s.x.set r.toNat v r.isLt := rfl
@[simp] theorem writeReg_DM (r : RegIx) (v : Word) : (s.writeReg r v).DM = s.DM := rfl
@[simp] theorem writeReg_pc (r : RegIx) (v : Word) : (s.writeReg r v).pc = s.pc := rfl
@[simp] theorem writeReg_F (r : RegIx) (v : Word) : (s.writeReg r v).F = s.F := rfl
@[simp] theorem writeReg_D (r : RegIx) (v : Word) : (s.writeReg r v).D = s.D := rfl
@[simp] theorem writeReg_E (r : RegIx) (v : Word) : (s.writeReg r v).E = s.E := rfl
@[simp] theorem writeReg_M (r : RegIx) (v : Word) : (s.writeReg r v).M = s.M := rfl
@[simp] theorem writeReg_W (r : RegIx) (v : Word) : (s.writeReg r v).W = s.W := rfl
@[simp] theorem writeReg_exResult (r : RegIx) (v : Word) : (s.writeReg r v).exResult = s.exResult := rfl
@[simp] theorem writeReg_memResult (r : RegIx) (v : Word) : (s.writeReg r v).memResult = s.memResult := rfl
@[simp] theorem writeReg_cycle (r : RegIx) (v : Word) : (s.writeReg r v).cycle = s.cycle := rfl
@[simp] theorem writeReg_fault (r : RegIx) (v : Word) : (s.writeReg r v).fault = s.fault := rfl
@[simp] theorem writeReg_servicing (r : RegIx) (v : Word) : (s.writeReg r v).servicing = s.servicing := rfl

@[simp] theorem setExResult_cfg (v : Word) : (s.setExResult v).cfg = s.cfg := rfl
@[simp] theorem setExResult_IS (v : Word) : (s.setExResult v).IS = s.IS := rfl
@[simp] theorem setExResult_x (v : Word) : (s.setExResult v).x = s.x := rfl
@[simp] theorem setExResult_DM (v : Word) : (s.setExResult v).DM = s.DM := rfl
@[simp] theorem setExResult_pc (v : Word) : (s.setExResult v).pc = s.pc := rfl
@[simp] theorem setExResult_F (v : Word) : (s.setExResult v).F = s.F := rfl
@[simp] theorem setExResult_D (v : Word) : (s.setExResult v).D = s.D := rfl
@[simp] theorem setExResult_E (v : Word) : (s.setExResult v).E = s.E := rfl
@[simp] theorem setExResult_M (v : Word) : (s.setExResult v).M = s.M := rfl
@[simp] theorem setExResult_W (v : Word) : (s.setExResult v).W = s.W := rfl
@[simp] theorem setExResult_exResult (v : Word) : (s.setExResult v).exResult = v := rfl
@[simp] theorem setExResult_memResult (v : Word) : (s.setExResult v).memResult = s.memResult := rfl
@[simp] theorem setExResult_cycle (v : Word) : (s.setExResult v).cycle = s.cycle := rfl
@[simp] theorem setExResult_fault (v : Word) : (s.setExResult v).fault = s.fault := rfl
@[simp] theorem setExResult_servicing (v : Word) : (s.setExResult v).servicing = s.servicing := rfl

@[simp] theorem setMemResult_cfg (v : Word) : (s.setMemResult v).cfg = s.cfg := rfl
@[simp] theorem setMemResult_IS (v : Word) : (s.setMemResult v).IS = s.IS := rfl
@[simp] theorem setMemResult_x (v : Word) : (s.setMemResult v).x = s.x := rfl
@[simp] theorem setMemResult_DM (v : Word) : (s.setMemResult v).DM = s.DM := rfl
@[simp] theorem setMemResult_pc (v : Word) : (s.setMemResult v).pc = s.pc := rfl
@[simp] theorem setMemResult_F (v : Word) : (s.setMemResult v).F = s.F := rfl
@[simp] theorem setMemResult_D (v : Word) : (s.setMemResult v).D = s.D := rfl
@[simp] theorem setMemResult_E (v : Word) : (s.setMemResult v).E = s.E := rfl
@[simp] theorem setMemResult_M (v : Word) : (s.setMemResult v).M = s.M := rfl
@[simp] theorem setMemResult_W (v : Word) : (s.setMemResult v).W = s.W := rfl
@[simp] theorem setMemResult_exResult (v : Word) : (s.setMemResult v).exResult = s.exResult := rfl
@[simp] theorem setMemResult_memResult (v : Word) : (s.setMemResult v).memResult = v := rfl
@[simp] theorem setMemResult_cycle (v : Word) : (s.setMemResult v).cycle = s.cycle := rfl
@[simp] theorem setMemResult_fault (v : Word) : (s.setMemResult v).fault = s.fault := rfl
@[simp] theorem setMemResult_servicing (v : Word) : (s.setMemResult v).servicing = s.servicing := rfl

@[simp] theorem raise_cfg (kind : FaultKind) (k : Nat) (v : Int) : (s.raise kind k v).cfg = s.cfg := rfl
@[simp] theorem raise_IS (kind : FaultKind) (k : Nat) (v : Int) : (s.raise kind k v).IS = s.IS := rfl
@[simp] theorem raise_x (kind : FaultKind) (k : Nat) (v : Int) : (s.raise kind k v).x = s.x := rfl
@[simp] theorem raise_DM (kind : FaultKind) (k : Nat) (v : Int) : (s.raise kind k v).DM = s.DM := rfl
@[simp] theorem raise_pc (kind : FaultKind) (k : Nat) (v : Int) : (s.raise kind k v).pc = s.pc := rfl
@[simp] theorem raise_F (kind : FaultKind) (k : Nat) (v : Int) : (s.raise kind k v).F = s.F := rfl
@[simp] theorem raise_D (kind : FaultKind) (k : Nat) (v : Int) : (s.raise kind k v).D = s.D := rfl
@[simp] theorem raise_E (kind : FaultKind) (k : Nat) (v : Int) : (s.raise kind k v).E = s.E := rfl
@[simp] theorem raise_M (kind : FaultKind) (k : Nat) (v : Int) : (s.raise kind k v).M = s.M := rfl
@[simp] theorem raise_W (kind : FaultKind) (k : Nat) (v : Int) : (s.raise kind k v).W = s.W := rfl
@[simp] theorem raise_exResult (kind : FaultKind) (k : Nat) (v : Int) : (s.raise kind k v).exResult = s.exResult := rfl
@[simp] theorem raise_memResult (kind : FaultKind) (k : Nat) (v : Int) : (s.raise kind k v).memResult = s.memResult := rfl
@[simp] theorem raise_cycle (kind : FaultKind) (k : Nat) (v : Int) : (s.raise kind k v).cycle = s.cycle := rfl
@[simp] theorem raise_fault (kind : FaultKind) (k : Nat) (v : Int) : (s.raise kind k v).fault = some (faultRecord kind k v (s.cycle + 1)) := rfl
@[simp] theorem raise_servicing (kind : FaultKind) (k : Nat) (v : Int) : (s.raise kind k v).servicing = s.servicing := rfl

@[simp] theorem takeNext_cfg : (s.takeNext).cfg = s.cfg := rfl
@[simp] theorem takeNext_IS : (s.takeNext).IS = s.IS := rfl
@[simp] theorem takeNext_x : (s.takeNext).x = s.x := rfl
@[simp] theorem takeNext_DM : (s.takeNext).DM = s.DM := rfl
@[simp] theorem takeNext_pc : (s.takeNext).pc = s.nextIndex + 1 := rfl
@[simp] theorem takeNext_F : (s.takeNext).F = none := rfl
@[simp] theorem takeNext_D : (s.takeNext).D = none := rfl
@[simp] theorem takeNext_E : (s.takeNext).E = none := rfl
@[simp] theorem takeNext_M : (s.takeNext).M = none := rfl
@[simp] theorem takeNext_W : (s.takeNext).W = none := rfl
@[simp] theorem takeNext_exResult : (s.takeNext).exResult = s.exResult := rfl
@[simp] theorem takeNext_memResult : (s.takeNext).memResult = s.memResult := rfl
@[simp] theorem takeNext_cycle : (s.takeNext).cycle = s.cycle := rfl
@[simp] theorem takeNext_fault : (s.takeNext).fault = s.fault := rfl
@[simp] theorem takeNext_servicing : (s.takeNext).servicing = s.servicing := rfl

@[simp] theorem holdOnFault_cfg (k : Nat) : (s.holdOnFault k).cfg = s.cfg := by
  unfold State.holdOnFault; split <;> rfl
@[simp] theorem holdOnFault_IS (k : Nat) : (s.holdOnFault k).IS = s.IS := by
  unfold State.holdOnFault; split <;> rfl
@[simp] theorem holdOnFault_x (k : Nat) : (s.holdOnFault k).x = s.x := by
  unfold State.holdOnFault; split <;> rfl
@[simp] theorem holdOnFault_DM (k : Nat) : (s.holdOnFault k).DM = s.DM := by
  unfold State.holdOnFault; split <;> rfl
@[simp] theorem holdOnFault_F (k : Nat) : (s.holdOnFault k).F = s.F := by
  unfold State.holdOnFault; split <;> rfl
@[simp] theorem holdOnFault_D (k : Nat) : (s.holdOnFault k).D = s.D := by
  unfold State.holdOnFault; split <;> rfl
@[simp] theorem holdOnFault_E (k : Nat) : (s.holdOnFault k).E = s.E := by
  unfold State.holdOnFault; split <;> rfl
@[simp] theorem holdOnFault_M (k : Nat) : (s.holdOnFault k).M = s.M := by
  unfold State.holdOnFault; split <;> rfl
@[simp] theorem holdOnFault_W (k : Nat) : (s.holdOnFault k).W = s.W := by
  unfold State.holdOnFault; split <;> rfl
@[simp] theorem holdOnFault_exResult (k : Nat) : (s.holdOnFault k).exResult = s.exResult := by
  unfold State.holdOnFault; split <;> rfl
@[simp] theorem holdOnFault_memResult (k : Nat) : (s.holdOnFault k).memResult = s.memResult := by
  unfold State.holdOnFault; split <;> rfl
@[simp] theorem holdOnFault_cycle (k : Nat) : (s.holdOnFault k).cycle = s.cycle := by
  unfold State.holdOnFault; split <;> rfl
@[simp] theorem holdOnFault_fault (k : Nat) : (s.holdOnFault k).fault = s.fault := by
  unfold State.holdOnFault; split <;> rfl
@[simp] theorem holdOnFault_servicing (k : Nat) : (s.holdOnFault k).servicing = s.servicing := by
  unfold State.holdOnFault; split <;> rfl
@[simp] theorem holdOnFault_pc (k : Nat) : (s.holdOnFault k).pc = if s.fault.isSome then k else s.pc := by
  unfold State.holdOnFault; split <;> rfl

@[simp] theorem flushTo_cfg (t : Nat) : (s.flushTo t).cfg = s.cfg := rfl
@[simp] theorem flushTo_IS (t : Nat) : (s.flushTo t).IS = s.IS := rfl
@[simp] theorem flushTo_x (t : Nat) : (s.flushTo t).x = s.x := rfl
@[simp] theorem flushTo_DM (t : Nat) : (s.flushTo t).DM = s.DM := rfl
@[simp] theorem flushTo_pc (t : Nat) : (s.flushTo t).pc = t := rfl
@[simp] theorem flushTo_F (t : Nat) : (s.flushTo t).F = none := rfl
@[simp] theorem flushTo_D (t : Nat) : (s.flushTo t).D = none := rfl
@[simp] theorem flushTo_E (t : Nat) : (s.flushTo t).E = s.E := rfl
@[simp] theorem flushTo_M (t : Nat) : (s.flushTo t).M = s.M := rfl
@[simp] theorem flushTo_W (t : Nat) : (s.flushTo t).W = s.W := rfl
@[simp] theorem flushTo_exResult (t : Nat) : (s.flushTo t).exResult = s.exResult := rfl
@[simp] theorem flushTo_memResult (t : Nat) : (s.flushTo t).memResult = s.memResult := rfl
@[simp] theorem flushTo_cycle (t : Nat) : (s.flushTo t).cycle = s.cycle := rfl
@[simp] theorem flushTo_fault (t : Nat) : (s.flushTo t).fault = s.fault := rfl
@[simp] theorem flushTo_servicing (t : Nat) : (s.flushTo t).servicing = s.servicing := rfl

@[simp] theorem promoteToWriteback_cfg : (s.promoteToWriteback).cfg = s.cfg := rfl
@[simp] theorem promoteToWriteback_IS : (s.promoteToWriteback).IS = s.IS := rfl
@[simp] theorem promoteToWriteback_x : (s.promoteToWriteback).x = s.x := rfl
@[simp] theorem promoteToWriteback_DM : (s.promoteToWriteback).DM = s.DM := rfl
@[simp] theorem promoteToWriteback_pc : (s.promoteToWriteback).pc = s.pc := rfl
@[simp] theorem promoteToWriteback_F : (s.promoteToWriteback).F = s.F := rfl
@[simp] theorem promoteToWriteback_D : (s.promoteToWriteback).D = s.D := rfl
@[simp] theorem promoteToWriteback_E : (s.promoteToWriteback).E = s.E := rfl
@[simp] theorem promoteToWriteback_M : (s.promoteToWriteback).M = none := rfl
@[simp] theorem promoteToWriteback_W : (s.promoteToWriteback).W = s.M := rfl
@[simp] theorem promoteToWriteback_exResult : (s.promoteToWriteback).exResult = s.exResult := rfl
@[simp] theorem promoteToWriteback_memResult : (s.promoteToWriteback).memResult = s.memResult := rfl
@[simp] theorem promoteToWriteback_cycle : (s.promoteToWriteback).cycle = s.cycle := rfl
@[simp] theorem promoteToWriteback_fault : (s.promoteToWriteback).fault = s.fault := rfl
@[simp] theorem promoteToWriteback_servicing : (s.promoteToWriteback).servicing = s.servicing := rfl

@[simp] theorem promoteToMemory_cfg : (s.promoteToMemory).cfg = s.cfg := rfl
@[simp] theorem promoteToMemory_IS : (s.promoteToMemory).IS = s.IS := rfl
@[simp] theorem promoteToMemory_x : (s.promoteToMemory).x = s.x := rfl
@[simp] theorem promoteToMemory_DM : (s.promoteToMemory).DM = s.DM := rfl
@[simp] theorem promoteToMemory_pc : (s.promoteToMemory).pc = s.pc := rfl
@[simp] theorem promoteToMemory_F : (s.promoteToMemory).F = s.F := rfl
@[simp] theorem promoteToMemory_D : (s.promoteToMemory).D = s.D := rfl
@[simp] theorem promoteToMemory_E : (s.promoteToMemory).E = none := rfl
@[simp] theorem promoteToMemory_M : (s.promoteToMemory).M = s.E := rfl
@[simp] theorem promoteToMemory_W : (s.promoteToMemory).W = s.W := rfl
@[simp] theorem promoteToMemory_exResult : (s.promoteToMemory).exResult = s.exResult := rfl
@[simp] theorem promoteToMemory_memResult : (s.promoteToMemory).memResult = s.memResult := rfl
@[simp] theorem promoteToMemory_cycle : (s.promoteToMemory).cycle = s.cycle := rfl
@[simp] theorem promoteToMemory_fault : (s.promoteToMemory).fault = s.fault := rfl
@[simp] theorem promoteToMemory_servicing : (s.promoteToMemory).servicing = s.servicing := rfl

@[simp] theorem admitToExecute_cfg (k : Nat) : (s.admitToExecute k).cfg = s.cfg := rfl
@[simp] theorem admitToExecute_IS (k : Nat) : (s.admitToExecute k).IS = s.IS := rfl
@[simp] theorem admitToExecute_x (k : Nat) : (s.admitToExecute k).x = s.x := rfl
@[simp] theorem admitToExecute_DM (k : Nat) : (s.admitToExecute k).DM = s.DM := rfl
@[simp] theorem admitToExecute_pc (k : Nat) : (s.admitToExecute k).pc = s.pc := rfl
@[simp] theorem admitToExecute_F (k : Nat) : (s.admitToExecute k).F = s.F := rfl
@[simp] theorem admitToExecute_D (k : Nat) : (s.admitToExecute k).D = none := rfl
@[simp] theorem admitToExecute_E (k : Nat) : (s.admitToExecute k).E = some k := rfl
@[simp] theorem admitToExecute_M (k : Nat) : (s.admitToExecute k).M = s.M := rfl
@[simp] theorem admitToExecute_W (k : Nat) : (s.admitToExecute k).W = s.W := rfl
@[simp] theorem admitToExecute_exResult (k : Nat) : (s.admitToExecute k).exResult = s.exResult := rfl
@[simp] theorem admitToExecute_memResult (k : Nat) : (s.admitToExecute k).memResult = s.memResult := rfl
@[simp] theorem admitToExecute_cycle (k : Nat) : (s.admitToExecute k).cycle = s.cycle := rfl
@[simp] theorem admitToExecute_fault (k : Nat) : (s.admitToExecute k).fault = s.fault := rfl
@[simp] theorem admitToExecute_servicing (k : Nat) : (s.admitToExecute k).servicing = s.servicing := rfl

@[simp] theorem countCycle_cfg : (s.countCycle).cfg = s.cfg := rfl
@[simp] theorem countCycle_IS : (s.countCycle).IS = s.IS := rfl
@[simp] theorem countCycle_x : (s.countCycle).x = s.x := rfl
@[simp] theorem countCycle_DM : (s.countCycle).DM = s.DM := rfl
@[simp] theorem countCycle_pc : (s.countCycle).pc = s.pc := rfl
@[simp] theorem countCycle_F : (s.countCycle).F = s.F := rfl
@[simp] theorem countCycle_D : (s.countCycle).D = s.D := rfl
@[simp] theorem countCycle_E : (s.countCycle).E = s.E := rfl
@[simp] theorem countCycle_M : (s.countCycle).M = s.M := rfl
@[simp] theorem countCycle_W : (s.countCycle).W = s.W := rfl
@[simp] theorem countCycle_exResult : (s.countCycle).exResult = s.exResult := rfl
@[simp] theorem countCycle_memResult : (s.countCycle).memResult = s.memResult := rfl
@[simp] theorem countCycle_cycle : (s.countCycle).cycle = s.cycle + 1 := rfl
@[simp] theorem countCycle_fault : (s.countCycle).fault = s.fault := rfl
@[simp] theorem countCycle_servicing : (s.countCycle).servicing = s.servicing := rfl
@[simp] theorem setServicing_cfg (st : Option Stage) : (s.setServicing st).cfg = s.cfg := rfl
@[simp] theorem setServicing_IS (st : Option Stage) : (s.setServicing st).IS = s.IS := rfl
@[simp] theorem setServicing_x (st : Option Stage) : (s.setServicing st).x = s.x := rfl
@[simp] theorem setServicing_DM (st : Option Stage) : (s.setServicing st).DM = s.DM := rfl
@[simp] theorem setServicing_pc (st : Option Stage) : (s.setServicing st).pc = s.pc := rfl
@[simp] theorem setServicing_F (st : Option Stage) : (s.setServicing st).F = s.F := rfl
@[simp] theorem setServicing_D (st : Option Stage) : (s.setServicing st).D = s.D := rfl
@[simp] theorem setServicing_E (st : Option Stage) : (s.setServicing st).E = s.E := rfl
@[simp] theorem setServicing_M (st : Option Stage) : (s.setServicing st).M = s.M := rfl
@[simp] theorem setServicing_W (st : Option Stage) : (s.setServicing st).W = s.W := rfl
@[simp] theorem setServicing_exResult (st : Option Stage) : (s.setServicing st).exResult = s.exResult := rfl
@[simp] theorem setServicing_memResult (st : Option Stage) : (s.setServicing st).memResult = s.memResult := rfl
@[simp] theorem setServicing_cycle (st : Option Stage) : (s.setServicing st).cycle = s.cycle := rfl
@[simp] theorem setServicing_fault (st : Option Stage) : (s.setServicing st).fault = s.fault := rfl
@[simp] theorem setServicing_servicing (st : Option Stage) : (s.setServicing st).servicing = st := rfl

end Sys2Proof.Machine.State
end

