-- ==== Sys2Proof/Laws/Ops.lean ====
section
/-! SUPPORT. What each shared operation can do, said once: register access, sequencing, and the form of a meaning. -/

namespace Sys2Proof.Machine

/-! ### The register file -/

/-- A write to a register is read back; register 0 is no exception. -/
@[simp] theorem readReg_writeReg_same (s : State) (r : RegIx) (v : Word) : (s.writeReg r v).readReg r = v := by
  simp [State.readReg, State.writeReg]

/-- A write to a register leaves every other one. -/
theorem readReg_writeReg_other (s : State) {r q : RegIx} (v : Word) (h : q ≠ r) :
    (s.writeReg r v).readReg q = s.readReg q := by
  have : r.toNat ≠ q.toNat := fun e => h (BitVec.eq_of_toNat_eq e.symm)
  simp [State.readReg, State.writeReg, Vector.getElem_set_ne _ _ this]

/-- Reading a register depends on the register file alone. -/
theorem readReg_congr {s t : State} (h : s.x = t.x) (r : RegIx) : s.readReg r = t.readReg r := by
  simp [State.readReg, h]

/-- Reading a data word depends on the data memory alone. -/
theorem dmRead_congr {s t : State} (h : s.DM = t.DM) (a : Nat) : s.dmRead a = t.dmRead a := by
  simp [State.dmRead, h]

/-! ### Sequencing -/

/-- A next state of a mapped outcome is the map of a next state. -/
theorem mapNext_next {f : State → State} {o : Host.Outcome State Fault Refusal} {t : State} :
    mapNext f o = .next t ↔ ∃ u, o = .next u ∧ t = f u := by
  cases o with
  | next u => simp [mapNext, eq_comm]
  | fault r => simp [mapNext]
  | refused r => simp [mapNext]

/-- A next state of two stage steps: the first raised and its state stands, or the second ran on it. -/
theorem thenStep_next {o : Host.Outcome State Fault Refusal} {f : State → Host.Outcome State Fault Refusal} {t : State} :
    thenStep o f = .next t ↔
      ∃ u, o = .next u ∧ ((u.fault.isSome = true ∧ t = u) ∨ (u.fault = none ∧ f u = .next t)) := by
  cases o with
  | next u =>
    cases hu : u.fault with
    | none => simp [thenStep, hu]
    | some f =>
      simp only [thenStep, hu, Option.isSome_some, if_true, Host.Outcome.next.injEq]
      exact ⟨fun h => ⟨u, rfl, .inl ⟨by simp [hu], h.symm⟩⟩, by
        rintro ⟨v, rfl, ⟨-, rfl⟩ | ⟨hn, -⟩⟩
        · rfl
        · simp [hu] at hn⟩
  | fault r => simp [thenStep]
  | refused r => simp [thenStep]

@[simp] theorem thenStep_clear {u : State} (h : u.fault = none) (f : State → Host.Outcome State Fault Refusal) :
    thenStep (.next u) f = f u := by
  simp [thenStep, h]

@[simp] theorem thenStep_raised {u : State} (h : u.fault.isSome = true) (f : State → Host.Outcome State Fault Refusal) :
    thenStep (.next u) f = .next u := by
  simp [thenStep, h]

@[simp] theorem mapNext_of_next (f : State → State) (u : State) : mapNext f (.next u) = .next (f u) := rfl

@[simp] theorem unlessFaulted_clear {s : State} (h : s.fault = none) (f : State → State) : unlessFaulted f s = f s := by
  simp [unlessFaulted, h]

@[simp] theorem unlessFaulted_raised {s : State} (h : s.fault.isSome = true) (f : State → State) :
    unlessFaulted f s = s := by
  simp [unlessFaulted, h]

@[simp] theorem holdOnFault_clear {s : State} (h : s.fault = none) (k : Nat) : s.holdOnFault k = s := by
  simp [State.holdOnFault, h]

@[simp] theorem holdOnFault_raised {s : State} (h : s.fault.isSome = true) (k : Nat) :
    s.holdOnFault k = { s with pc := k } := by
  simp [State.holdOnFault, h]

/-! ### The form of a meaning -/

/-- The whole passage from a state without a fault starts with the Execute action. -/
theorem alone_clear {a b c : Nat → State → State} {s : State} (h : s.fault = none) :
    alone a b c s = State.holdOnFault s.nextIndex
      (unlessFaulted (c s.nextIndex) (unlessFaulted (b s.nextIndex) (a s.nextIndex s.takeNext))) := by
  simp [alone, h]

/-- The whole passage of an instruction whose Execute action raises: the cursor stays at it. -/
theorem alone_executeRaises {a b c : Nat → State → State} {s : State} (h : s.fault = none)
    (ha : (a s.nextIndex s.takeNext).fault.isSome = true) :
    alone a b c s = { a s.nextIndex s.takeNext with pc := s.nextIndex } := by
  simp [alone, h, ha]

/-- The whole passage of an instruction whose Memory action raises: the cursor stays at it. -/
theorem alone_memoryRaises {a b c : Nat → State → State} {s : State} (h : s.fault = none)
    (ha : (a s.nextIndex s.takeNext).fault = none) (hb : (b s.nextIndex (a s.nextIndex s.takeNext)).fault.isSome = true) :
    alone a b c s = { b s.nextIndex (a s.nextIndex s.takeNext) with pc := s.nextIndex } := by
  simp [alone, h, ha, hb]

/-- The whole passage of an instruction none of whose actions raises. -/
theorem alone_unfaulted {a b c : Nat → State → State} {s : State} (h : s.fault = none)
    (ha : (a s.nextIndex s.takeNext).fault = none) (hb : (b s.nextIndex (a s.nextIndex s.takeNext)).fault = none)
    (hc : (c s.nextIndex (b s.nextIndex (a s.nextIndex s.takeNext))).fault = none) :
    alone a b c s = c s.nextIndex (b s.nextIndex (a s.nextIndex s.takeNext)) := by
  simp [alone, h, ha, hb, hc]

/-- Everything a meaning can answer as a next state. -/
theorem perStage_next {onExecute onMemory onWriteback : Nat → State → State} {s t : State}
    (h : perStage onExecute onMemory onWriteback s = .next t) :
    ((s.servicing = some .fetch ∨ s.servicing = some .decode) ∧ t = s) ∨
    (s.servicing = some .execute ∧ ∃ k, s.E = some k ∧ t = onExecute k s) ∨
    (s.servicing = some .memory ∧ ∃ k, s.M = some k ∧ t = onMemory k s) ∨
    (s.servicing = some .writeback ∧ ∃ k, s.W = some k ∧ t = onWriteback k s) ∨
    (s.servicing = none ∧ t = alone onExecute onMemory onWriteback s) := by
  unfold perStage at h
  split at h <;> rename_i hs
  · simp_all
  · simp_all
  · cases hE : s.E <;> simp_all [inSlot]
  · cases hM : s.M <;> simp_all [inSlot]
  · cases hW : s.W <;> simp_all [inSlot]
  · simp_all

/-- The Execute action, of the instruction in Execute. -/
theorem perStage_execute {a b c : Nat → State → State} {s : State} {k : Nat} (hs : s.servicing = some .execute)
    (hk : s.E = some k) : perStage a b c s = .next (a k s) := by
  simp [perStage, hs, inSlot, hk]

/-- The Memory action, of the instruction in Memory. -/
theorem perStage_memory {a b c : Nat → State → State} {s : State} {k : Nat} (hs : s.servicing = some .memory)
    (hk : s.M = some k) : perStage a b c s = .next (b k s) := by
  simp [perStage, hs, inSlot, hk]

/-- The Writeback action, of the instruction in Writeback. -/
theorem perStage_writeback {a b c : Nat → State → State} {s : State} {k : Nat} (hs : s.servicing = some .writeback)
    (hk : s.W = some k) : perStage a b c s = .next (c k s) := by
  simp [perStage, hs, inSlot, hk]

/-- No stage being serviced: the whole passage. -/
theorem perStage_alone {a b c : Nat → State → State} {s : State} (hs : s.servicing = none) :
    perStage a b c s = .next (alone a b c s) := by
  simp [perStage, hs]

end Sys2Proof.Machine
end

