-- ==== Sys2Proof/Laws/Exec.lean ====
section
/-! SUPPORT. The stage actions of every instruction as three functions, `exec` in terms of them, and what each stage step and
a cycle can do. -/

namespace Sys2Proof.Machine

/-- The Execute action of an instruction. -/
def executeAction : Instr → Nat → State → State
  | .add _ rs rt sh => rTypeExecute (· + ·) rs rt sh
  | .sub _ rs rt sh => rTypeExecute (· - ·) rs rt sh
  | .addi _ rs imm => addiExecute rs imm
  | .lw _ rs off => addressExecute rs off
  | .sw _ rs off => addressExecute rs off
  | .beq rt rs disp => beqExecute rt rs disp
  | .unknown => noAction

/-- The Memory action of an instruction. -/
def memoryAction : Instr → Nat → State → State
  | .add _ _ _ _ => forwardResult
  | .sub _ _ _ _ => forwardResult
  | .addi _ _ _ => noAction
  | .lw _ _ _ => dataAccess loadWord
  | .sw rt _ _ => dataAccess (storeWord rt)
  | .beq _ _ _ => noAction
  | .unknown => noAction

/-- The Writeback action of an instruction. -/
def writebackAction : Instr → Nat → State → State
  | .add rd _ _ _ => commitResult rd
  | .sub rd _ _ _ => commitResult rd
  | .addi _ _ _ => noAction
  | .lw rt _ _ => commitResult rt
  | .sw _ _ _ => noAction
  | .beq _ _ _ => noAction
  | .unknown => noAction

/-- Every meaning is its three stage actions. -/
theorem exec_eq_perStage (i : Instr) (s : State) :
    exec i s = perStage (executeAction i) (memoryAction i) (writebackAction i) s := by
  cases i <;> rfl

/-! ### What an action leaves -/

/-- A data access at an index in the memory. -/
theorem dataAccess_in {act : Nat → State → State} {s : State} {a : Nat} (k : Nat) (h : dataIndex s.exResult = some a) :
    dataAccess act k s = act a s := by
  simp [dataAccess, h]

/-- A data access outside the memory raises. -/
theorem dataAccess_out {act : Nat → State → State} {s : State} (k : Nat) (h : dataIndex s.exResult = none) :
    dataAccess act k s = s.raise .memoryRange k s.exResult.toInt := by
  simp [dataAccess, h]

/-- An index found is in 0..31 and is the word's value. -/
theorem dataIndex_some {v : Word} {a : Nat} (h : dataIndex v = some a) : a < 32 ∧ v.toInt = (a : Int) := by
  unfold dataIndex at h
  split at h
  · simp only [Option.some.injEq] at h
    omega
  · cases h

/-- A target found is in 0..n. -/
theorem branchTarget_le {n k t : Nat} {disp : Int} (h : branchTarget n k disp = some t) : t ≤ n := by
  unfold branchTarget at h
  split at h
  · cases h
  · dsimp only at h
    split at h
    · cases h
    · simp only [Option.some.injEq] at h
      omega

/-- The three things an Execute action can do: nothing but a result, a flush to a target, or a BranchTargetFault. -/
theorem executeAction_cases (i : Instr) (k : Nat) (s : State) :
    (∃ v, executeAction i k s = s.setExResult v) ∨
    (∃ v t, t ≤ s.IS.length ∧ kindOf i = .beq ∧ executeAction i k s = (s.setExResult v).flushTo t) ∨
    (∃ v disp, kindOf i = .beq ∧ executeAction i k s = (s.setExResult v).raise .branchTarget k disp) := by
  cases i with
  | beq rt rs disp =>
    simp only [executeAction, beqExecute]
    split
    · unfold branchTaken
      split
      · rename_i t ht
        exact .inr (.inl ⟨_, t, branchTarget_le ht, rfl, rfl⟩)
      · exact .inr (.inr ⟨_, disp, rfl, rfl⟩)
    · exact .inl ⟨_, rfl⟩
  | unknown => exact .inl ⟨s.exResult, rfl⟩
  | _ => exact .inl ⟨_, rfl⟩

/-- The things a Memory action can do: set `memResult`, store a word in the memory, raise a MemoryRangeFault, or nothing. -/
theorem memoryAction_cases (i : Instr) (k : Nat) (s : State) :
    memoryAction i k s = s ∨ (∃ v, memoryAction i k s = s.setMemResult v) ∨
    (∃ rt rs off a, i = .sw rt rs off ∧ dataIndex s.exResult = some a ∧ memoryAction i k s = s.dmWrite a (s.readReg rt)) ∨
    (dataIndex s.exResult = none ∧ memoryAction i k s = s.raise .memoryRange k s.exResult.toInt) := by
  cases i with
  | lw rt rs off =>
    cases h : dataIndex s.exResult with
    | some a => exact .inr (.inl ⟨s.dmRead a, by simp [memoryAction, dataAccess, h, loadWord]⟩)
    | none => exact .inr (.inr (.inr ⟨rfl, by simp [memoryAction, dataAccess, h]⟩))
  | sw rt rs off =>
    cases h : dataIndex s.exResult with
    | some a => exact .inr (.inr (.inl ⟨rt, rs, off, a, rfl, rfl, by simp [memoryAction, dataAccess, h, storeWord]⟩))
    | none => exact .inr (.inr (.inr ⟨rfl, by simp [memoryAction, dataAccess, h]⟩))
  | add => exact .inr (.inl ⟨_, rfl⟩)
  | sub => exact .inr (.inl ⟨_, rfl⟩)
  | _ => exact .inl rfl

/-- The two things a Writeback action can do: write one register with `memResult`, or nothing. -/
theorem writebackAction_cases (i : Instr) (k : Nat) (s : State) :
    writebackAction i k s = s ∨ ∃ r, destOf i = some r ∧ writebackAction i k s = s.writeReg r s.memResult := by
  cases i with
  | add => exact .inr ⟨_, rfl, rfl⟩
  | sub => exact .inr ⟨_, rfl, rfl⟩
  | lw => exact .inr ⟨_, rfl, rfl⟩
  | _ => exact .inl rfl

/-! ### Which stage is being serviced plays no part in an action -/

theorem branchTaken_setServicing (disp : Int) (k : Nat) (s : State) (st : Option Stage) :
    branchTaken disp k (s.setServicing st) = (branchTaken disp k s).setServicing st := by
  simp only [branchTaken, State.setServicing_IS]
  split <;> rfl

theorem executeAction_setServicing (i : Instr) (k : Nat) (s : State) (st : Option Stage) :
    executeAction i k (s.setServicing st) = (executeAction i k s).setServicing st := by
  cases i with
  | beq rt rs disp =>
    have h : (s.setServicing st).branchResult rt rs disp = s.branchResult rt rs disp := rfl
    have h' (v : Word) : (s.setServicing st).setExResult v = (s.setExResult v).setServicing st := rfl
    simp only [executeAction, beqExecute, h, h', branchTaken_setServicing]
    split <;> rfl
  | _ => rfl

theorem memoryAction_setServicing (i : Instr) (k : Nat) (s : State) (st : Option Stage) :
    memoryAction i k (s.setServicing st) = (memoryAction i k s).setServicing st := by
  cases i with
  | lw rt rs off =>
    simp only [memoryAction, dataAccess, State.setServicing_exResult]
    split <;> rfl
  | sw rt rs off =>
    simp only [memoryAction, dataAccess, State.setServicing_exResult]
    split <;> rfl
  | _ => rfl

theorem writebackAction_setServicing (i : Instr) (k : Nat) (s : State) (st : Option Stage) :
    writebackAction i k (s.setServicing st) = (writebackAction i k s).setServicing st := by
  cases i <;> rfl

/-! ### Servicing a slot -/

/-- Servicing Execute runs the Execute action of the entry in Execute. -/
theorem service_execute {s : State} {k : Nat} {i : Instr} (hi : s.IS[k]? = some i) (hk : s.E = some k) :
    service .execute k s = .next ((executeAction i k s).setServicing none) := by
  simp only [service, hi, exec_eq_perStage]
  rw [perStage_execute rfl (k := k) (by simpa using hk), mapNext_of_next, executeAction_setServicing]
  rfl

/-- Servicing Memory runs the Memory action of the entry in Memory. -/
theorem service_memory {s : State} {k : Nat} {i : Instr} (hi : s.IS[k]? = some i) (hk : s.M = some k) :
    service .memory k s = .next ((memoryAction i k s).setServicing none) := by
  simp only [service, hi, exec_eq_perStage]
  rw [perStage_memory rfl (k := k) (by simpa using hk), mapNext_of_next, memoryAction_setServicing]
  rfl

/-- Servicing Writeback runs the Writeback action of the entry in Writeback. -/
theorem service_writeback {s : State} {k : Nat} {i : Instr} (hi : s.IS[k]? = some i) (hk : s.W = some k) :
    service .writeback k s = .next ((writebackAction i k s).setServicing none) := by
  simp only [service, hi, exec_eq_perStage]
  rw [perStage_writeback rfl (k := k) (by simpa using hk), mapNext_of_next, writebackAction_setServicing]
  rfl

/-- A slot naming no entry is refused. -/
theorem service_dangling {s : State} {k : Nat} (stage : Stage) (hi : s.IS[k]? = none) :
    service stage k s = .refused (.danglingSlot k) := by
  simp [service, hi]

/-! ### The stage steps -/

/-- Everything the Writeback step can do. -/
theorem writebackStep_next {s t : State} : writebackStep s = .next t ↔
    (s.M = none ∧ t = s.promoteToWriteback) ∨
    ∃ k i, s.M = some k ∧ s.IS[k]? = some i ∧ t = (writebackAction i k s.promoteToWriteback).setServicing none := by
  cases hM : s.M with
  | none => simp [writebackStep, serviceSlot, hM, eq_comm]
  | some k =>
    cases hi : s.IS[k]? with
    | none => simp [writebackStep, serviceSlot, hM, service, hi]
    | some i =>
      have h := service_writeback (s := s.promoteToWriteback) (k := k) (i := i) (by simpa using hi) (by simpa using hM)
      simp [writebackStep, serviceSlot, hM, h, hi, eq_comm]

/-- Everything the Memory step can do. -/
theorem memoryStep_next {s t : State} : memoryStep s = .next t ↔
    (s.E = none ∧ t = s.promoteToMemory) ∨
    ∃ k i, s.E = some k ∧ s.IS[k]? = some i ∧ t = (memoryAction i k s.promoteToMemory).setServicing none := by
  cases hE : s.E with
  | none => simp [memoryStep, serviceSlot, hE, eq_comm]
  | some k =>
    cases hi : s.IS[k]? with
    | none => simp [memoryStep, serviceSlot, hE, service, hi]
    | some i =>
      have h := service_memory (s := s.promoteToMemory) (k := k) (i := i) (by simpa using hi) (by simpa using hE)
      simp [memoryStep, serviceSlot, hE, h, hi, eq_comm]

/-- Everything the Execute step can do: nothing to admit, a stall, or an admission. -/
theorem executeStep_next {s t : State} : executeStep s = .next t ↔
    (s.D = none ∧ t = s) ∨
    ∃ k i, s.D = some k ∧ s.IS[k]? = some i ∧
      ((s.hazard i = true ∧ t = s) ∨
       (s.hazard i = false ∧ t = (executeAction i k (s.admitToExecute k)).setServicing none)) := by
  unfold executeStep
  cases hD : s.D with
  | none => simp [@eq_comm _ t s]
  | some k =>
    cases hi : s.IS[k]? with
    | none => simp [hi]
    | some i =>
      have h := service_execute (s := s.admitToExecute k) (k := k) (i := i) (by simpa using hi) (by simp)
      cases hz : s.hazard i with
      | true => simp [hi, hz, @eq_comm _ t s]
      | false => simp [hi, hz, h, @eq_comm _ t]

/-- Everything a cycle can do: the Memory step raised, the Execute step raised, or all five steps ran. -/
theorem cycle_next {s t : State} : cycle s = .next t ↔
    ∃ w m, writebackStep s = .next w ∧
      ((w.fault.isSome = true ∧ m = w) ∨ (w.fault = none ∧ memoryStep w = .next m)) ∧
      ((m.fault.isSome = true ∧ t = m.countCycle) ∨
       (m.fault = none ∧ ∃ e, executeStep m = .next e ∧
         ((e.fault.isSome = true ∧ t = e.countCycle) ∨
          (e.fault = none ∧ t = (fetchStep (decodeStep e)).countCycle)))) := by
  simp only [cycle, olderSteps, youngerSteps, mapNext_next, thenStep_next]
  constructor
  · rintro ⟨u, ⟨e, ⟨m, ⟨w, hw, hwm⟩, hme⟩, heu⟩, rfl⟩
    refine ⟨w, m, hw, hwm, ?_⟩
    rcases hme with ⟨hm, rfl⟩ | ⟨hm, he⟩
    · rcases heu with ⟨-, rfl⟩ | ⟨hn, -⟩
      · exact .inl ⟨hm, rfl⟩
      · simp [hn] at hm
    · rcases heu with ⟨hf, rfl⟩ | ⟨hn, hu⟩
      · exact .inr ⟨hm, u, he, .inl ⟨hf, rfl⟩⟩
      · cases hu
        exact .inr ⟨hm, e, he, .inr ⟨hn, rfl⟩⟩
  · rintro ⟨w, m, hw, hwm, h⟩
    rcases h with ⟨hm, rfl⟩ | ⟨hm, e, he, h⟩
    · exact ⟨m, ⟨m, ⟨m, ⟨w, hw, hwm⟩, .inl ⟨hm, rfl⟩⟩, .inl ⟨hm, rfl⟩⟩, rfl⟩
    · rcases h with ⟨hf, rfl⟩ | ⟨hn, rfl⟩
      · exact ⟨e, ⟨e, ⟨m, ⟨w, hw, hwm⟩, .inr ⟨hm, he⟩⟩, .inl ⟨hf, rfl⟩⟩, rfl⟩
      · exact ⟨_, ⟨e, ⟨m, ⟨w, hw, hwm⟩, .inr ⟨hm, he⟩⟩, .inr ⟨hn, rfl⟩⟩, rfl⟩

/-- Everything a step can do: a cycle while the block runs, nothing otherwise. -/
theorem step_next {s t : State} : step s = .next t ↔
    (s.running = false ∧ t = s) ∨ (s.running = true ∧ cycle s = .next t) := by
  cases h : s.running <;> simp [step, h, eq_comm]

/-- The Decode step moves Fetch's entry into Decode or does nothing. -/
theorem decodeStep_cases (s : State) :
    (s.decodeAdmits = true ∧ decodeStep s = { s with D := s.F, F := none }) ∨ (s.decodeAdmits = false ∧ decodeStep s = s) := by
  cases h : s.decodeAdmits <;> simp [decodeStep, h]

/-- The Fetch step pulls the cursor's entry or does nothing. -/
theorem fetchStep_cases (s : State) :
    (s.F = none ∧ s.pc < s.IS.length ∧ fetchStep s = { s with F := some s.pc, pc := s.pc + 1 }) ∨
    ((s.F.isSome = true ∨ s.IS.length ≤ s.pc) ∧ fetchStep s = s) := by
  by_cases h : s.F = none ∧ s.pc < s.IS.length
  · refine .inl ⟨h.1, h.2, ?_⟩
    simp [fetchStep, State.exhausted, h.1, Nat.not_le.mpr h.2]
  · refine .inr ?_
    cases hF : s.F with
    | none =>
      have : s.IS.length ≤ s.pc := Nat.not_lt.mp fun hp => h ⟨hF, hp⟩
      exact ⟨.inr this, by simp [fetchStep, State.exhausted, hF, this]⟩
    | some k => exact ⟨.inl rfl, by simp [fetchStep, hF]⟩

/-- What a Writeback action leaves: everything but the registers. -/
theorem writebackAction_keeps (i : Instr) (k : Nat) (s : State) :
    { writebackAction i k s with x := s.x } = s := by
  rcases writebackAction_cases i k s with h | ⟨r, -, h⟩
  · rw [h]
  · rw [h]; rfl

/-- What a Memory action leaves: everything but the data memory, `memResult` and the fault record. -/
theorem memoryAction_keeps (i : Instr) (k : Nat) (s : State) :
    { memoryAction i k s with DM := s.DM, memResult := s.memResult, fault := s.fault } = s := by
  rcases memoryAction_cases i k s with h | ⟨v, h⟩ | ⟨_, _, _, _, _, _, h⟩ | ⟨_, h⟩ <;> rw [h] <;> rfl

/-- The Writeback step promotes Memory into Writeback and changes, beside that, the registers and `servicing` alone. -/
theorem writebackStep_keeps {s t : State} (h : writebackStep s = .next t) :
    { t with x := s.x, servicing := s.servicing } = { s with W := s.M, M := none } := by
  rcases writebackStep_next.1 h with ⟨-, rfl⟩ | ⟨k, i, -, -, rfl⟩
  · rfl
  · exact congrArg (State.setServicing s.servicing) (writebackAction_keeps i k s.promoteToWriteback)

/-- The Memory step promotes Execute into Memory and changes, beside that, the data memory, `memResult`, the fault record and
`servicing` alone. -/
theorem memoryStep_keeps {s t : State} (h : memoryStep s = .next t) :
    { t with DM := s.DM, memResult := s.memResult, fault := s.fault, servicing := s.servicing } =
      { s with M := s.E, E := none } := by
  rcases memoryStep_next.1 h with ⟨-, rfl⟩ | ⟨k, i, -, -, rfl⟩
  · rfl
  · exact congrArg (State.setServicing s.servicing) (memoryAction_keeps i k s.promoteToMemory)

/-- Where the Writeback and Memory steps raise nothing, they leave Memory and Execute promoted, and the program, the cursor,
Fetch, Decode, `exResult` and the count as they were. -/
theorem olderSteps_unfaulted {s u : State} (h : olderSteps s = .next u) (hu : u.fault = none) :
    s.fault = none ∧ u.W = s.M ∧ u.M = s.E ∧ u.E = none ∧ u.D = s.D ∧ u.F = s.F ∧ u.pc = s.pc ∧ u.IS = s.IS ∧
    u.cfg = s.cfg ∧ u.exResult = s.exResult ∧ u.cycle = s.cycle := by
  obtain ⟨w, hw, ⟨hf, rfl⟩ | ⟨hf, hm⟩⟩ := thenStep_next.1 h
  · simp [hu] at hf
  · have hk := writebackStep_keeps hw
    have hl := memoryStep_keeps hm
    simp only [State.mk.injEq] at hk hl
    simp_all

/-- A step in which the Writeback and Memory steps raise nothing and Decode holds an entry goes on with the Execute step. -/
theorem step_of_olderSteps {s u : State} {k : Nat} (h : olderSteps s = .next u) (hu : u.fault = none) (hD : u.D = some k) :
    step s = mapNext State.countCycle (thenStep (executeStep u) youngerSteps) := by
  obtain ⟨hf, -, -, -, hsD, -⟩ := olderSteps_unfaulted h hu
  have hr : s.running = true := by simp [State.running, State.drained, State.faulted, hf, ← hsD, hD]
  rw [step, if_pos hr, cycle, h, thenStep_clear hu]

/-- The Execute step admits an entry without a hazard and runs `exec` of it. -/
theorem executeStep_admits {u : State} {k : Nat} {i : Instr} (hD : u.D = some k) (hi : u.IS[k]? = some i)
    (hz : u.hazard i = false) : executeStep u =
      mapNext (State.setServicing none) (exec i { u with E := some k, D := none, servicing := some .execute }) := by
  simp [executeStep, hD, hi, hz, service, State.admitToExecute, State.setServicing]

end Sys2Proof.Machine
end

