-- ==== Sys2Proof/Laws/Memory.lean ====
section
/-! SUPPORT. The data memory: reading after writing, and the canonical form every operation keeps. -/

namespace Sys2Proof.Machine

/-- An index below every listed one reads as its reset value. -/
theorem Memory.read_below {m : Memory} {lo a : Nat} (h : Memory.wfFrom lo m = true) (ha : a < lo) :
    Memory.read m a = Memory.resetWord a := by
  induction m generalizing lo with
  | nil => rfl
  | cons p m ih =>
    obtain ⟨b, v⟩ := p
    simp only [Memory.wfFrom, Bool.and_eq_true, decide_eq_true_eq] at h
    have hab : a ≠ b := by omega
    simp only [Memory.read, if_neg hab]
    exact ih h.2 (by omega)

/-- A canonical memory is canonical from any lower bound. -/
theorem Memory.wfFrom_mono {m : Memory} {lo hi : Nat} (h : Memory.wfFrom hi m = true) (hl : lo ≤ hi) :
    Memory.wfFrom lo m = true := by
  cases m with
  | nil => rfl
  | cons p m =>
    obtain ⟨b, v⟩ := p
    simp only [Memory.wfFrom, Bool.and_eq_true, decide_eq_true_eq] at h ⊢
    exact ⟨⟨⟨by omega, h.1.1.2⟩, h.1.2⟩, h.2⟩

/-- Reading the word just written gives the value written. -/
theorem Memory.read_write_same {m : Memory} {lo : Nat} (a : Nat) (v : Word) (h : Memory.wfFrom lo m = true) :
    Memory.read (Memory.write m a v) a = v := by
  induction m generalizing lo with
  | nil => by_cases hv : v = Memory.resetWord a <;> simp [Memory.write, Memory.read, hv]
  | cons p m ih =>
    obtain ⟨b, u⟩ := p
    simp only [Memory.wfFrom, Bool.and_eq_true, decide_eq_true_eq] at h
    rcases Nat.lt_trichotomy a b with hab | hab | hab
    · by_cases hv : v = Memory.resetWord a
      · have := Memory.read_below h.2 (a := a) (by omega)
        simp [Memory.write, Memory.read, hab, hv, Nat.ne_of_lt hab, this]
      · simp [Memory.write, Memory.read, hab, hv]
    · subst hab
      by_cases hv : v = Memory.resetWord a
      · have := Memory.read_below h.2 (a := a) (by omega)
        simp [Memory.write, hv, this]
      · simp [Memory.write, Memory.read, hv]
    · have h1 : ¬ a < b := by omega
      have h2 : a ≠ b := by omega
      simp only [Memory.write, if_neg h1, if_neg h2, Memory.read]
      exact ih h.2

/-- A write leaves every other word as it was. -/
theorem Memory.read_write_other (m : Memory) {a b : Nat} (v : Word) (h : b ≠ a) :
    Memory.read (Memory.write m a v) b = Memory.read m b := by
  induction m with
  | nil => by_cases hv : v = Memory.resetWord a <;> simp [Memory.write, Memory.read, hv, h]
  | cons p m ih =>
    obtain ⟨c, u⟩ := p
    by_cases hac : a < c
    · by_cases hv : v = Memory.resetWord a <;> simp [Memory.write, Memory.read, hac, hv, h]
    · by_cases hac' : a = c
      · subst hac'
        by_cases hv : v = Memory.resetWord a <;> simp [Memory.write, Memory.read, hv, h]
      · simp only [Memory.write, if_neg hac, if_neg hac', Memory.read]
        split
        · rfl
        · exact ih

/-- A write inside the memory keeps the canonical form, from any bound. -/
theorem Memory.wfFrom_write {m : Memory} {lo a : Nat} (v : Word) (h : Memory.wfFrom lo m = true) (hlo : lo ≤ a) (ha : a < 32) :
    Memory.wfFrom lo (Memory.write m a v) = true := by
  induction m generalizing lo with
  | nil => by_cases hv : v = Memory.resetWord a <;> simp [Memory.write, Memory.wfFrom, hv, hlo, ha]
  | cons p m ih =>
    obtain ⟨b, u⟩ := p
    have h' := h
    simp only [Memory.wfFrom, Bool.and_eq_true, decide_eq_true_eq] at h
    rcases Nat.lt_trichotomy a b with hab | hab | hab
    · by_cases hv : v = Memory.resetWord a
      · simpa [Memory.write, hab, hv] using h'
      · simp [Memory.write, Memory.wfFrom, hab, hv, hlo, ha, h.1.1.2, h.1.2, h.2, Nat.succ_le_of_lt hab]
    · subst hab
      by_cases hv : v = Memory.resetWord a
      · simpa [Memory.write, hv] using Memory.wfFrom_mono h.2 (by omega : lo ≤ a + 1)
      · simp [Memory.write, Memory.wfFrom, hv, hlo, ha, h.2]
    · have h1 : ¬ a < b := by omega
      have h2 : a ≠ b := by omega
      simp only [Memory.write, if_neg h1, if_neg h2, Memory.wfFrom, Bool.and_eq_true, decide_eq_true_eq]
      exact ⟨h.1, ih h.2 (by omega)⟩

/-- Every write inside the memory keeps the canonical form. -/
theorem Memory.wf_write {m : Memory} {a : Nat} (v : Word) (h : Memory.wf m = true) (ha : a < 32) :
    Memory.wf (Memory.write m a v) = true :=
  Memory.wfFrom_write v h (Nat.zero_le a) ha

/-- The memory at reset has the canonical form. -/
theorem Memory.wf_reset : Memory.wf State.reset.DM = true := rfl

/-- Two canonical memories that read alike are equal. -/
theorem Memory.ext_read {m n : Memory} {lo : Nat} (hm : Memory.wfFrom lo m = true) (hn : Memory.wfFrom lo n = true)
    (h : ∀ a, Memory.read m a = Memory.read n a) : m = n := by
  induction m generalizing lo n with
  | nil =>
    cases n with
    | nil => rfl
    | cons q n =>
      obtain ⟨c, w⟩ := q
      simp only [Memory.wfFrom, Bool.and_eq_true, decide_eq_true_eq, bne_iff_ne] at hn
      have := h c
      simp only [Memory.read, if_true] at this
      exact absurd this.symm hn.1.2
  | cons p m ih =>
    obtain ⟨b, v⟩ := p
    have hm' := hm
    simp only [Memory.wfFrom, Bool.and_eq_true, decide_eq_true_eq, bne_iff_ne] at hm
    cases n with
    | nil =>
      have := h b
      simp only [Memory.read, if_true] at this
      exact absurd this hm.1.2
    | cons q n =>
      obtain ⟨c, w⟩ := q
      have hn' := hn
      simp only [Memory.wfFrom, Bool.and_eq_true, decide_eq_true_eq, bne_iff_ne] at hn
      have hbc : b = c := by
        rcases Nat.lt_trichotomy b c with hlt | heq | hgt
        · have := h b
          have hb := Memory.read_below hn.2 (a := b) (by omega)
          simp only [Memory.read, if_true, if_neg (Nat.ne_of_lt hlt), hb] at this
          exact absurd this hm.1.2
        · exact heq
        · have := h c
          have hc := Memory.read_below hm.2 (a := c) (by omega)
          simp only [Memory.read, if_true, if_neg (Nat.ne_of_lt hgt), hc] at this
          exact absurd this.symm hn.1.2
      subst hbc
      have hvw : v = w := by simpa [Memory.read] using h b
      subst hvw
      have htail : m = n := by
        refine ih hm.2 hn.2 fun a => ?_
        by_cases hab : a = b
        · subst hab
          rw [Memory.read_below hm.2 (by omega), Memory.read_below hn.2 (by omega)]
        · simpa [Memory.read, hab] using h a
      rw [htail]

end Sys2Proof.Machine
end

