-- ==== Sys2Proof/Laws/PerInstr.lean ====
section
/-! SUPPORT. A law of every instruction as syntax: the register its Writeback commits is the one the hazard predicate tracks
(spec/40_pipeline.md R133, R141). -/

namespace Sys2Proof.Laws.CommittedRegisterIsTracked

open Sys2Proof.Machine

/-- Writeback commits to no register but the destination the hazard predicate compares. -/
def Statement (i : Instr) : Prop := ∀ r, commitOf i = some r → destOf i = some r

theorem add (rd rs rt : RegIx) (sh : ShAmt) : Statement (.add rd rs rt sh) := fun _ h => h

theorem sub (rd rs rt : RegIx) (sh : ShAmt) : Statement (.sub rd rs rt sh) := fun _ h => h

theorem addi (rt rs : RegIx) (imm : Int) : Statement (.addi rt rs imm) := nofun

theorem lw (rt rs : RegIx) (off : Int) : Statement (.lw rt rs off) := fun _ h => h

theorem sw (rt rs : RegIx) (off : Int) : Statement (.sw rt rs off) := nofun

theorem beq (rt rs : RegIx) (disp : Int) : Statement (.beq rt rs disp) := nofun

theorem unknown : Statement .unknown := nofun

end Sys2Proof.Laws.CommittedRegisterIsTracked
end

