-- ==== Sys2Proof/Tests/Slice0.lean ====
section
/-! SUPPORT. Tests. Expected values come from the spec: the words and results of spec/95_test_vectors.md and
spec/30_encoding.md section 7 (cited as "95" and "30"), or a hand calculation from the rule named. The `wit_` theorems show
states and operands that meet the hypotheses of the statement they name, clause by clause. -/

namespace Sys2Proof.Tests

open Sys2Proof.Machine

/-! ### Well-formedness (30 R72): a term each check refuses -/

theorem test_addi_immediate_above : (Instr.addi 1#5 2#5 32768).wellFormed = false := by decide
theorem test_lw_offset_below : (Instr.lw 1#5 2#5 (-32769)).wellFormed = false := by decide
theorem test_sw_offset_above : (Instr.sw 1#5 0#5 32768).wellFormed = false := by decide
theorem test_beq_displacement_above : (Instr.beq 1#5 2#5 40000).wellFormed = false := by decide
theorem test_immediate_bounds : immInRange (-32768) = true ∧ immInRange 32767 = true := by decide
theorem test_variant_function_code : (Variant.rType 0x21 0 3 2 1).wellFormed = false := by decide
theorem test_variant_shift : (Variant.rType 0x20 32 3 2 1).wellFormed = false := by decide
theorem test_variant_dest_reg : (Variant.rType 0x20 0 32 2 1).wellFormed = false := by decide
theorem test_variant_source_reg_b : (Variant.rType 0x20 0 3 32 1).wellFormed = false := by decide
theorem test_variant_source_reg_a : (Variant.rType 0x20 0 3 2 32).wellFormed = false := by decide
theorem test_variant_opcode : (Variant.iType 0x05 1 2 0).wellFormed = false := by decide
theorem test_variant_source_reg : (Variant.iType 0x23 32 2 0).wellFormed = false := by decide
theorem test_variant_target_reg : (Variant.iType 0x23 1 32 0).wellFormed = false := by decide
theorem test_variant_immediate : (Variant.iType 0x08 1 2 40000).wellFormed = false := by decide
theorem test_program_refused : programWellFormed [.unknown, .addi 1#5 1#5 32768] = false := by decide
theorem test_addresses_overflow : addressesFit { baseAddress := 4294967292 } 1 = false := by decide

/-! ### Decoding (95 2.1, 2.3): words written out by the layout of 30 R75 and R76 -/

/-- 0x00221860: 000000 00001 00010 00011 00001 100000. -/
theorem test_decode_add : decode 0b00000000001000100001100001100000#32 = .add 3#5 1#5 2#5 1#5 := by decide
/-- 0x001F2822: 000000 00000 11111 00101 00000 100010. -/
theorem test_decode_sub : decode 0b00000000000111110010100000100010#32 = .sub 5#5 0#5 31#5 0#5 := by decide
/-- 0x2084FFFF: 001000 00100 00100 1111111111111111. -/
theorem test_decode_addi : decode 0b00100000100001001111111111111111#32 = .addi 4#5 4#5 (-1) := by decide
/-- 0x8C220008: 100011 00001 00010 0000000000001000. -/
theorem test_decode_lw : decode 0b10001100001000100000000000001000#32 = .lw 2#5 1#5 8 := by decide
/-- 0xAFC7FFFC: 101011 11110 00111 1111111111111100. -/
theorem test_decode_sw : decode 0b10101111110001111111111111111100#32 = .sw 7#5 30#5 (-4) := by decide
/-- 0x10410008: 000100 00010 00001 0000000000001000. -/
theorem test_decode_beq : decode 0b00010000010000010000000000001000#32 = .beq 1#5 2#5 8 := by decide
theorem test_decode_unknown_funct : decode 0x00000021#32 = .unknown := by decide
theorem test_decode_unknown_opcodes :
    decode 0xFFFFFFFF#32 = .unknown ∧ decode 0x0C000000#32 = .unknown ∧ decode 0#32 = .unknown := by decide
theorem test_decode_shift_31 :
    decode 0x00221FE0#32 = .add 3#5 1#5 2#5 31#5 ∧ decode 0x000007E2#32 = .sub 0#5 0#5 0#5 31#5 := by decide
theorem test_encode_words :
    encode (.add 3#5 1#5 2#5 0#5) = 0x00221820#32 ∧ encode (.sub 5#5 0#5 31#5 0#5) = 0x001F2822#32 ∧
    encode (.addi 9#5 0#5 (-32768)) = 0x20098000#32 ∧ encode (.lw 1#5 0#5 5) = 0x8C010005#32 ∧
    encode (.sw 7#5 30#5 (-4)) = 0xAFC7FFFC#32 ∧ encode (.beq 0#5 0#5 (-16)) = 0x1000FFF0#32 ∧
    encode .unknown = 0#32 := by decide
theorem test_decode_table_word :
    decodeTableWord 32 0x8C22FFFF = some (.lw 2#5 1#5 (-1)) ∧ decodeTableWord 0 0 = some .unknown := by decide
/-- 20 R55: the least significant byte first. -/
theorem test_image_bytes : decodeImage [0x08#8, 0x00#8, 0x22#8, 0x8C#8] = .ok [.lw 2#5 1#5 8] := by rfl
theorem test_image_partial : decodeImage [0x08#8, 0x00#8, 0x22#8] = .error (.partialWord 3) := by rfl
/-- 30 R80: no word belongs to two rows. -/
theorem test_rows_disjoint : opcodeMap.Pairwise
    fun a b => (a.pattern ^^^ b.pattern) &&& a.mask &&& b.mask ≠ 0#32 := by decide

/-! ### The encoder (95 2.1, 2.2) -/

/-- The store of a text, if it is accepted. -/
def accepted (text : String) : Option (List Instr) :=
  match assemble {} text.toList with
  | .ok prog => some prog
  | .error _ => none

/-- The refusal of a text. -/
def refusal (text : String) (p : EncoderParams := {}) : Option TextRefusal :=
  match assemble p text.toList with
  | .ok _ => none
  | .error e => some e

theorem test_text_commas : accepted ",add, $1,, $2, $3," = some [.add 1#5 2#5 3#5 0#5] := by decide
theorem test_text_zero : accepted "add $zero, $zero5, $zero31" = some [.add 0#5 0#5 0#5 0#5] := by decide
theorem test_text_binary : accepted "lw $1, 0b101($zero)" = some [.lw 1#5 0#5 5] := by decide
theorem test_text_hex : accepted "beq $zero, $0, -0x10" = some [.beq 0#5 0#5 (-16)] := by decide
theorem test_text_store : accepted "sw $7, -4($30)" = some [.sw 7#5 30#5 (-4)] := by decide
theorem test_text_unknown : accepted "foo $99, garbage(\nADD $1, $2, $3" = some [.unknown, .unknown] := by decide
theorem test_text_labels : accepted "L1: L2: add $1, $1, $1\n\nbeq $2, $0, L2\nL3:" =
    some [.add 1#5 1#5 1#5 0#5, .beq 2#5 0#5 4] := by decide
theorem test_text_forward_label : accepted "nop\nbeq $0, $0, later\nlater: nop" = some [.unknown, .beq 0#5 0#5 4, .unknown] := by
  decide
theorem test_text_empty : accepted "" = some [] := by decide
theorem test_refuse_count : refusal "add $1,$2,$3" = some ⟨.operandCount, 1⟩ := by decide
theorem test_refuse_register : refusal "add $32, $1, $2" = some ⟨.registerOutOfRange, 1⟩ ∧
    refusal "add r1, $2, $3" = some ⟨.badRegister, 1⟩ := by decide
theorem test_refuse_immediate : refusal "addi $1, $2, 40000" = some ⟨.immediateOutOfRange, 1⟩ ∧
    refusal "addi $1, $2, abc" = some ⟨.operandKind, 1⟩ ∧ refusal "addi $1, $2, 0x" = some ⟨.badLiteral, 1⟩ := by decide
theorem test_refuse_memory : refusal "lw $1, ($2)" = some ⟨.badMemoryOperand, 1⟩ ∧
    refusal "lw $1, 4($2" = some ⟨.badMemoryOperand, 1⟩ ∧ refusal "lw $1, 4($40)" = some ⟨.registerOutOfRange, 1⟩ := by decide
theorem test_refuse_labels : refusal "beq $1, $2, L:" = some ⟨.labelAfterMnemonic, 1⟩ ∧
    refusal "nop\n1abc: nop" = some ⟨.badLabelName, 2⟩ ∧
    refusal "beq $1, $2, ahead" { undefinedLabel := .refuse } = some ⟨.undefinedLabel, 1⟩ := by decide
theorem test_refuse_overflow : refusal "nop" { baseAddress := 4294967292 } = some ⟨.addressOverflow, 1⟩ := by decide

/-! ### One step -/

/-- The next state, or the same state where there is none. -/
def after (o : Host.Outcome State Fault Refusal) (s : State) : State :=
  match o with
  | .next t => t
  | .fault _ => s
  | .refused _ => s

/-- A program's start. -/
def start (prog : List Instr) : State := State.boot {} prog

/-- A start with an instruction serviced in a stage, every slot naming it. -/
def serving (i : Instr) (st : Option Stage) : State :=
  { start [i] with E := some 0, M := some 0, W := some 0, servicing := st }

/-- An instruction in Decode with nothing else in flight. -/
def inDecode (i : Instr) : State := { start [i] with D := some 0, pc := 1 }

/-- The start with two registers set. -/
def withRegs (a b : Word) (s : State) : State := (s.writeReg 1#5 a).writeReg 2#5 b

/-- 95 2.4: 0x7FFFFFFF + 0x7FFFFFFF wraps to -2. -/
theorem test_add_wraps : (after (exec (.add 3#5 1#5 2#5 0#5) (withRegs 0x7FFFFFFF#32 0x7FFFFFFF#32 (start [.unknown])))
    (start [])).readReg 3#5 = 0xFFFFFFFE#32 := by decide
/-- 95 2.4: (1 + 1) << 31 = 0. -/
theorem test_add_shifts : (after (exec (.add 3#5 1#5 2#5 31#5) (start [.unknown])) (start [])).readReg 3#5 = 0#32 := by decide
/-- 95 2.4: -2^31 - 1 wraps, and the order of the operands matters. -/
theorem test_sub_wraps : (after (exec (.sub 3#5 1#5 2#5 0#5) (withRegs 0x80000000#32 1#32 (start [.unknown])))
    (start [])).readReg 3#5 = 0x7FFFFFFF#32 := by decide
/-- 95 2.4: (-3 - 1) << 1 = -8. -/
theorem test_sub_shifts : (after (exec (.sub 3#5 1#5 2#5 1#5) (withRegs 0xFFFFFFFD#32 1#32 (start [.unknown])))
    (start [])).readReg 3#5 = 0xFFFFFFF8#32 := by decide
/-- 95 S11: register 0 is writable. -/
theorem test_register_zero_written : (after (exec (.add 0#5 1#5 1#5 0#5) (start [.unknown])) (start [])).readReg 0#5 = 2#32 := by
  decide
/-- 95 2.4: `addi` is never committed. -/
theorem test_addi_commits_nothing :
    let t := after (exec (.addi 5#5 0#5 100) (start [.unknown])) (start [])
    t.readReg 5#5 = 1#32 ∧ t.exResult = 100#32 := by decide
/-- 95 2.5: `lw $2, -1($1)` from reset reads DM[0] = 0. -/
theorem test_lw_negative_offset : (after (exec (.lw 2#5 1#5 (-1)) (start [.unknown])) (start [])).readReg 2#5 = 0#32 := by decide
/-- 95 2.5: `lw $2, 31($1)` raises with index 32. -/
theorem test_lw_out_of_range : (after (exec (.lw 2#5 1#5 31) (start [.unknown])) (start [])).fault =
    some (.memoryRange 0 32 1) := by decide
/-- 40 R160: SEQ faults before it moves the cursor past the entry, for a load and for a branch. -/
theorem test_seq_fault_holds_cursor :
    let s := { start [.unknown, .lw 2#5 1#5 31] with pc := 1 }
    let q := { start [.unknown, .beq 1#5 2#5 6] with pc := 1 }
    (after (seqStep s) s).pc = 1 ∧ (after (seqStep q) q).fault = some (.branchTarget 1 6 1) ∧ (after (seqStep q) q).pc = 1 := by
  decide
/-- 95 2.5: `sw $0, 7($0)` writes 0. -/
theorem test_sw_writes : (after (exec (.sw 0#5 0#5 7) (start [.unknown])) (start [])).DM = [(7, 0#32)] := by decide
/-- 10 R25: a word written back to its reset value is listed no more. -/
theorem test_sw_canonical : (after (exec (.sw 1#5 0#5 7) { start [.unknown] with DM := [(7, 0#32)] }) (start [])).DM = [] := by
  decide
/-- 43 R210, its example: entry 5, displacement 12, target 2. -/
theorem test_beq_target : branchTarget 7 5 12 = some 2 := by decide
/-- 95 2.6: a misaligned target, one before the program, one beyond its end, and the legal one at its end. -/
theorem test_beq_bounds : branchTarget 1 0 6 = none ∧ branchTarget 1 0 4 = none ∧ branchTarget 1 0 (-12) = none ∧
    branchTarget 1 0 (-4) = some 1 := by decide
/-- 43 R212: displacement 0 is not taken. -/
theorem test_beq_zero_displacement : (after (step (inDecode (.beq 1#5 1#5 0))) (start [])).fault = none ∧
    (after (step (inDecode (.beq 1#5 1#5 0))) (start [])).pc = 1 := by decide
/-- 95 2.6: `beq $1, $2, 6` raises in its Execute cycle. -/
theorem test_beq_faults : (after (step (inDecode (.beq 1#5 2#5 6))) (start [])).fault = some (.branchTarget 0 6 1) := by decide
theorem test_unknown_does_nothing : (after (step (inDecode .unknown)) (start [])) =
    { inDecode .unknown with D := none, E := some 0, cycle := 1 } := by decide
/-- 95 P1, cycle 4 with forwarding off: the second `add` stays in Decode while the first is in Memory. -/
theorem test_hazard_stalls :
    let t := after (step { start [.add 3#5 1#5 2#5 0#5, .add 5#5 3#5 4#5 0#5] with E := some 0, D := some 1, pc := 2 }) (start [])
    t.M = some 0 ∧ t.D = some 1 ∧ t.E = none := by decide
/-- 95 P1, cycle 5 with forwarding on: the first is in Writeback and the second enters Execute. -/
theorem test_forwarding_admits :
    let t := after (step { State.boot ⟨true, 0⟩ [.add 3#5 1#5 2#5 0#5, .add 5#5 3#5 4#5 0#5] with
      M := some 0, D := some 1, pc := 2 }) (start [])
    t.W = some 0 ∧ t.E = some 1 := by decide
/-- 95 P3, cycle 15: the branch in Execute, its target fetched in the same cycle, the fall-through entry gone. -/
theorem test_branch_refills :
    let t := after (step { start [.unknown, .beq 0#5 0#5 4, .unknown] with D := some 1, F := some 2, pc := 3 }) (start [])
    t.E = some 1 ∧ t.D = none ∧ t.F = some 0 ∧ t.pc = 1 := by decide
/-- 95 2.10: the Memory step raises first. -/
theorem test_fault_priority :
    (after (step { start [.lw 1#5 0#5 40, .beq 0#5 0#5 6] with E := some 0, D := some 1, pc := 2, exResult := 40#32 })
      (start [])).fault = some (.memoryRange 0 40 1) := by decide
/-- 40 R149: the trace of a cycle, in the order W, M, E, D, F. -/
theorem test_trace : stepTrace { start [.add 3#5 1#5 2#5 0#5, .unknown] with D := some 0, F := some 1, pc := 2, cycle := 2 } =
    [.cycleMark 3, .occupied "add" 0 .execute, .occupied "unknown" 1 .decode] := by decide
theorem test_fetch_word : (after (step (State.reset.withFetchWord 32 0x20050064)) (start [])).exResult = 100#32 := by decide

/-! ### Witnesses of the statements' hypotheses -/

theorem wit_StepRunsACycleOrChangesNothing :
    ((start [.unknown]).drained = false ∧ (start [.unknown]).fault = none) ∧ State.reset.drained = true ∧
    ({ start [.unknown] with fault := some (.branchTarget 0 6 0) } : State).fault = some (.branchTarget 0 6 0) := by decide

/-- Two `add`s in flight ahead of a third instruction: an instruction in every stage. -/
def busy (i : Instr) : State :=
  { start [.add 3#5 1#5 2#5 0#5, .add 4#5 1#5 2#5 0#5, i, .unknown] with
    M := some 0, E := some 1, D := some 2, F := some 3, pc := 4, exResult := 2#32, memResult := 2#32 }

/-- What the Writeback and Memory steps leave of `busy`. -/
def busyOlder (i : Instr) : State := after (olderSteps (busy i)) (start [])

theorem wit_StepRunsTheDecodedInstruction :
    let s := busy .unknown
    (s.IS[2]? = some .unknown ∧ olderSteps s = .next (busyOlder .unknown) ∧ (busyOlder .unknown).fault = none ∧
      (busyOlder .unknown).D = some 2 ∧ (busyOlder .unknown).hazard .unknown = false) ∧
    (s.fault = none ∧ s.IS[1]? = some (.add 4#5 1#5 2#5 0#5) ∧ (∃ w, writebackStep s = .next w) ∧ s.E = some 1) ∧
    (s.IS[0]? = some (.add 3#5 1#5 2#5 0#5) ∧ s.M = some 0) :=
  ⟨⟨rfl, rfl, rfl, rfl, rfl⟩, ⟨rfl, rfl, ⟨_, rfl⟩, rfl⟩, rfl, rfl⟩

theorem wit_FirstCycleFetchesEntryZero : [Instr.unknown] ≠ [] := by decide

/-- A slot that names entry 0 of a program that has one. -/
theorem slot_zero {s : State} {slot : Option Nat} (hs : slot = none ∨ slot = some 0) (h : 0 < s.IS.length) :
    s.slotInStore slot := by
  rintro k rfl
  simp only [reduceCtorEq, Option.some.injEq, false_or] at hs
  exact hs ▸ h

/-- The invariant holds with an instruction in Decode. -/
theorem inv_inDecode (i : Instr) : (inDecode i).Inv where
  pcInRange := Nat.le_refl 1
  fetchInStore := slot_zero (.inl rfl) Nat.one_pos
  decodeInStore := slot_zero (.inr rfl) Nat.one_pos
  executeInStore := slot_zero (.inl rfl) Nat.one_pos
  memoryInStore := slot_zero (.inl rfl) Nat.one_pos
  writebackInStore := slot_zero (.inl rfl) Nat.one_pos
  memoryCanonical := rfl
  branchClearsDecode := nofun
  faultInStore := nofun
  notServicing := rfl

theorem wit_StepKeepsTheInvariant :
    (inDecode (.beq 1#5 1#5 4)).Inv ∧ ∃ t, step (inDecode (.beq 1#5 1#5 4)) = .next t := ⟨inv_inDecode _, _, rfl⟩

theorem wit_StepAlwaysHasANextState : (inDecode (.lw 1#5 1#5 31)).Inv := inv_inDecode _

theorem wit_StepKeepsProgramAndConfiguration : ∃ t, step (inDecode (.sw 1#5 1#5 0)) = .next t := ⟨_, rfl⟩

theorem wit_EveryCycleRunIsCounted : (∃ t, step (inDecode .unknown) = .next t) ∧
    (∃ t, runsTo 1 (start [.unknown]) t ∧ t.running = true) ∧ ∃ t, runsTo 3 (start []) t :=
  ⟨⟨_, rfl⟩, ⟨_, rfl, rfl⟩, ⟨_, rfl⟩⟩

theorem wit_FaultedStateIsFinal :
    let s : State := { start [.unknown] with fault := some (.branchTarget 0 6 0) }
    s.fault = some (.branchTarget 0 6 0) ∧ ∃ t, runsTo 2 s t := ⟨rfl, _, rfl⟩

theorem wit_DecodeInvertsEncode : (Instr.addi 31#5 0#5 (-32768)).wellFormed = true ∧
    (Instr.beq 31#5 0#5 32767).wellFormed = true := by decide

theorem wit_DecodeFollowsTheOpcodeMap :
    (⟨.add, 0x00000020, 0xFC00003F⟩ : OpcodeRow) ∈ opcodeMap ∧
    OpcodeRow.matchesWord ⟨.add, 0x00000020, 0xFC00003F⟩ 0x00221FE0#32 = true ∧ matchesSomeRow 0x00000021#32 = false := by
  decide

theorem wit_ImageRoundTrip : programWellFormed [.unknown, .lw 2#5 1#5 (-32768)] = true := by decide

theorem wit_VariantsInRangeAreTheInstructions : (Instr.sw 31#5 31#5 32767).wellFormed = true ∧
    (Variant.rType 0x22 31 31 31 31).wellFormed = true ∧ (Variant.rType 0x22 32 0 0 0).wellFormed = false := by decide

theorem wit_DecodeAndFetchChangeOnlyTheirSlotsAndTheCursor :
    (let s := { start [.beq 1#5 0#5 4, .unknown] with F := some 0, pc := 1 }
     s.D = none ∧ s.F = some 0 ∧ s.holdsBranch s.E = false) ∧
    (let s := { start [.beq 1#5 0#5 4, .unknown] with E := some 0, F := some 1, pc := 2 }
     s.holdsBranch s.E = true ∧ s.IS.length ≤ s.pc) ∧
    (let s := { start [.unknown, .unknown] with pc := 1 }
     s.F = none ∧ s.pc < s.IS.length) ∧
    (busy .unknown).running = true ∧
    ∃ u, thenStep (olderSteps (busy .unknown)) executeStep = .next u ∧ u.fault = none :=
  ⟨by decide, by decide, by decide, rfl, _, rfl, rfl⟩

/-- The hypotheses on the stage of `AddCompletesWithItsResult`, `SubCompletesWithItsResult`, `AddiCompletesWithoutAnEffect`
and `UnknownCompletesWithoutAnEffect`, clause by clause. -/
theorem wit_CompletionStages (i : Instr) :
    ((serving i (some .execute)).servicing = some .execute ∧ (serving i (some .execute)).E = some 0) ∧
    ((serving i (some .memory)).servicing = some .memory ∧ (serving i (some .memory)).M = some 0) ∧
    ((serving i (some .writeback)).servicing = some .writeback ∧ (serving i (some .writeback)).W = some 0) ∧
    ((serving i none).servicing = none ∧ (serving i none).fault = none) := ⟨⟨rfl, rfl⟩, ⟨rfl, rfl⟩, ⟨rfl, rfl⟩, ⟨rfl, rfl⟩⟩

theorem wit_AddCompletesWithItsResult : (serving (.add 0#5 1#5 31#5 31#5) (some .execute)).E = some 0 ∧
    (serving (.add 0#5 1#5 31#5 31#5) none).fault = none := ⟨rfl, rfl⟩
theorem wit_SubCompletesWithItsResult : (serving (.sub 0#5 1#5 31#5 31#5) (some .execute)).E = some 0 ∧
    (serving (.sub 0#5 1#5 31#5 31#5) none).fault = none := ⟨rfl, rfl⟩
theorem wit_AddiCompletesWithoutAnEffect : (serving (.addi 1#5 1#5 (-32768)) (some .execute)).E = some 0 ∧
    (serving (.addi 1#5 1#5 (-32768)) none).fault = none := ⟨rfl, rfl⟩
theorem wit_UnknownCompletesWithoutAnEffect : (serving .unknown (some .execute)).E = some 0 ∧
    (serving .unknown none).fault = none := ⟨rfl, rfl⟩

/-- The last word and the first, in the Memory stage and as a whole (the hypotheses of `SwCompletesWithTheStore` too). -/
theorem wit_LwCompletesWithTheDataWord :
    (let s := { serving (.lw 2#5 1#5 0) (some .memory) with exResult := 31#32 }
     s.servicing = some .memory ∧ s.M = some 0 ∧ (31 : Nat) ≤ 31 ∧ s.exResult.toInt = ((31 : Nat) : Int)) ∧
    (let s := { serving (.lw 2#5 1#5 0) (some .memory) with exResult := 0#32 }
     s.M = some 0 ∧ s.exResult.toInt = ((0 : Nat) : Int)) ∧
    (let s := serving (.lw 2#5 1#5 (-1)) none
     s.servicing = none ∧ s.fault = none ∧ (s.readReg 1#5 + BitVec.ofInt 32 (-1)).toInt = ((0 : Nat) : Int) ∧
     (s.readReg 1#5 + BitVec.ofInt 32 30).toInt = ((31 : Nat) : Int)) := by decide

theorem wit_SwCompletesWithTheStore :
    (let s := { serving (.sw 2#5 1#5 0) (some .memory) with exResult := 31#32 }
     s.servicing = some .memory ∧ s.M = some 0 ∧ (31 : Nat) ≤ 31 ∧ s.exResult.toInt = ((31 : Nat) : Int)) ∧
    (let s := serving (.sw 2#5 1#5 (-1)) none
     s.servicing = none ∧ s.fault = none ∧ (s.readReg 1#5 + BitVec.ofInt 32 (-1)).toInt = ((0 : Nat) : Int)) := by decide

theorem wit_LoadAndStoreOutsideTheMemoryRaise :
    (let s := { serving (.lw 2#5 1#5 0) (some .memory) with exResult := 32#32 }
     s.servicing = some .memory ∧ s.M = some 0 ∧ 31 < s.exResult.toInt) ∧
    (let s := { serving (.sw 2#5 1#5 0) (some .memory) with exResult := 0xFFFFFFFF#32 }
     s.servicing = some .memory ∧ s.M = some 0 ∧ s.exResult.toInt < 0) ∧
    (let s := serving (.lw 2#5 1#5 31) none
     s.servicing = none ∧ s.fault = none ∧ 31 < (s.readReg 1#5 + BitVec.ofInt 32 31).toInt ∧
     (s.readReg 1#5 + BitVec.ofInt 32 (-2)).toInt < 0) := by decide

/-- Not taken by displacement and by registers; taken to the first entry and to the end of the program. -/
theorem wit_BeqCompletesTakenOrNot :
    (let s := serving (.beq 1#5 0#5 4) (some .execute)
     s.servicing = some .execute ∧ s.E = some 0 ∧ s.readReg 0#5 ≠ s.readReg 1#5) ∧
    (let s := serving (.beq 1#5 1#5 (-4)) (some .execute)
     s.servicing = some .execute ∧ s.E = some 0 ∧ s.readReg 1#5 = s.readReg 1#5 ∧ immInRange (-4) = true ∧ (-4 : Int) ≠ 0 ∧
     ((1 : Nat) : Int) * 4 = ((0 : Nat) : Int) * 4 - (-4) ∧ 1 ≤ s.IS.length) ∧
    (let s := { serving (.beq 1#5 1#5 4) none with D := some 1 }
     s.servicing = none ∧ s.fault = none ∧ s.readReg 1#5 = s.readReg 1#5 ∧ immInRange 4 = true ∧ (4 : Int) ≠ 0 ∧
     ((0 : Nat) : Int) * 4 = (s.nextIndex : Int) * 4 - 4 ∧ 0 ≤ s.IS.length) := by decide

/-- A misaligned displacement, a target of -1 and one of N + 1. -/
theorem wit_TakenBeqOutsideTheProgramRaises :
    let s := serving (.beq 1#5 2#5 6) (some .execute)
    s.servicing = some .execute ∧ s.E = some 0 ∧ s.readReg 2#5 = s.readReg 1#5 ∧ immInRange 6 = true ∧ (6 : Int) ≠ 0 ∧
    (6 : Int) % 4 ≠ 0 ∧ ((0 : Nat) : Int) * 4 - 4 < 0 ∧ (s.IS.length : Int) * 4 < ((0 : Nat) : Int) * 4 - (-8) ∧
    (let q := start [.beq 1#5 2#5 6]
     q.servicing = none ∧ q.fault = none ∧ q.nextIndex = 0 ∧ q.readReg 2#5 = q.readReg 1#5) := by decide

theorem wit_AddAndSubChangeOnlyTheirDestination :
    ∃ t, exec (.add 3#5 1#5 2#5 0#5) (serving (.add 3#5 1#5 2#5 0#5) (some .writeback)) = .next t := ⟨_, rfl⟩

theorem wit_LwChangesOnlyItsTarget : ∃ t, exec (.lw 2#5 1#5 30) (serving (.lw 2#5 1#5 30) none) = .next t := ⟨_, rfl⟩

theorem wit_SwChangesOnlyTheWordStored :
    (∃ t, exec (.sw 2#5 1#5 30) { serving (.sw 2#5 1#5 30) (some .memory) with exResult := 31#32 } = .next t) ∧
    dataIndex 31#32 = some 31 ∧ dataIndex 32#32 = none ∧ dataIndex 0xFFFFFFFF#32 = none ∧
    ∃ t, exec (.sw 2#5 1#5 30) (serving (.sw 2#5 1#5 30) none) = .next t := ⟨⟨_, rfl⟩, rfl, rfl, rfl, ⟨_, rfl⟩⟩

theorem wit_AddiBeqAndUnknownChangeNoRegisterAndNoWord :
    (∃ t, exec (.addi 1#5 1#5 5) (serving .unknown none) = .next t) ∧
    (∃ t, exec (.beq 1#5 1#5 (-4)) (serving .unknown (some .execute)) = .next t) ∧
    ∃ t, exec .unknown (serving .unknown (some .writeback)) = .next t := ⟨⟨_, rfl⟩, ⟨_, rfl⟩, ⟨_, rfl⟩⟩

theorem wit_DataMemoryReadsTheLatestWrite : Memory.wf (start []).DM = true ∧ Memory.wf [(31, 7#32)] = true ∧ 31 < 32 := by decide

theorem wit_RegistersChangeOnlyInWriteback :
    let s := { start [.add 3#5 1#5 2#5 0#5] with M := some 0, pc := 1, memResult := 2#32 }
    ∃ t, step s = .next t ∧ t.readReg 3#5 ≠ s.readReg 3#5 := ⟨_, rfl, by decide⟩

theorem wit_DataMemoryChangesOnlyByAStore :
    let s := { start [.sw 0#5 1#5 30] with E := some 0, pc := 1, exResult := 31#32 }
    Memory.wf s.DM = true ∧ ∃ t, step s = .next t ∧ t.dmRead 31 ≠ s.dmRead 31 := ⟨rfl, _, rfl, by decide⟩

theorem wit_StoreThenLoadYieldsTheValueStored :
    let s := start [.sw 0#5 1#5 30, .lw 5#5 1#5 30]
    Memory.wf s.DM = true ∧ s.servicing = none ∧ s.fault = none ∧
    ∃ t, exec (.sw 0#5 1#5 30) s = .next t ∧ t.fault = none ∧ ∃ u, exec (.lw 5#5 1#5 30) t = .next u :=
  ⟨rfl, rfl, rfl, _, rfl, rfl, _, rfl⟩

theorem wit_SlotsAdvanceOneStage :
    ((inDecode .unknown).running = true ∧ ∃ t, step (inDecode .unknown) = .next t) ∧
    (busy (.beq 1#5 2#5 8)).running = true ∧ (busy (.beq 1#5 2#5 8)).F = some 3 ∧
    ∃ t, step (busy (.beq 1#5 2#5 8)) = .next t ∧ t.F = some 0 ∧ t.D = none := ⟨⟨rfl, _, rfl⟩, rfl, rfl, _, rfl, rfl, rfl⟩

/-- No hazard; a producer in Execute (then Memory); one in Memory (then Writeback), with forwarding off and on. -/
theorem wit_HazardDecidesAdmissionToExecute :
    (olderSteps (busy .unknown) = .next (busyOlder .unknown) ∧ (busyOlder .unknown).fault = none ∧
      (busyOlder .unknown).D = some 2 ∧ (busyOlder .unknown).hazard .unknown = false) ∧
    (let i : Instr := .sub 5#5 4#5 1#5 0#5
     (busy i).IS[2]? = some i ∧ olderSteps (busy i) = .next (busyOlder i) ∧ (busyOlder i).hazard i = true) ∧
    (let i : Instr := .sub 5#5 3#5 1#5 0#5
     olderSteps (busy i) = .next (busyOlder i) ∧ (busyOlder i).hazard i = true) ∧
    (let i : Instr := .sub 5#5 3#5 1#5 0#5
     let s := { busy i with cfg := ⟨true, 0⟩ }
     ∃ u, olderSteps s = .next u ∧ u.fault = none ∧ u.D = some 2 ∧ u.hazard i = false) :=
  ⟨⟨rfl, rfl, rfl, rfl⟩, ⟨rfl, rfl, rfl⟩, ⟨rfl, rfl⟩, _, rfl, rfl, rfl, rfl⟩

theorem wit_HazardHoldsInEveryCycle :
    (let s := { start [.add 3#5 1#5 2#5 0#5, .add 5#5 3#5 4#5 0#5] with E := some 0, D := some 1, pc := 2 }
     s.running = true ∧ s.D = some 1 ∧ s.IS[1]? = some (.add 5#5 3#5 4#5 0#5) ∧ 3#5 ∈ srcsOf (.add 5#5 3#5 4#5 0#5) ∧
     s.IS[0]? = some (.add 3#5 1#5 2#5 0#5) ∧ destOf (.add 3#5 1#5 2#5 0#5) = some 3#5 ∧ s.E = some 0 ∧
     ∃ t, step s = .next t) ∧
    (let s := { start [.lw 3#5 1#5 0, .sw 3#5 1#5 0] with M := some 0, D := some 1, pc := 2 }
     s.running = true ∧ s.D = some 1 ∧ s.IS[1]? = some (.sw 3#5 1#5 0) ∧ 3#5 ∈ srcsOf (.sw 3#5 1#5 0) ∧
     s.IS[0]? = some (.lw 3#5 1#5 0) ∧ destOf (.lw 3#5 1#5 0) = some 3#5 ∧ s.cfg.forwardingEnabled = false ∧ s.M = some 0 ∧
     ∃ t, step s = .next t) :=
  ⟨⟨rfl, rfl, rfl, by decide, rfl, rfl, rfl, _, rfl⟩, ⟨rfl, rfl, rfl, by decide, rfl, rfl, rfl, rfl, _, rfl⟩⟩

theorem wit_EveryStallEndsWithinTwoCycles :
    (inDecode (.add 1#5 1#5 1#5 0#5)).Inv ∧ (inDecode (.add 1#5 1#5 1#5 0#5)).fault = none ∧
    (inDecode (.add 1#5 1#5 1#5 0#5)).D = some 0 := ⟨inv_inDecode _, rfl, rfl⟩

theorem wit_BranchInFlightBlocksDecode :
    let s := { start [.beq 1#5 0#5 4, .unknown] with D := some 0, F := some 1, pc := 2 }
    s.running = true ∧ ∃ t, step s = .next t ∧ t.holdsBranch t.E = true := ⟨rfl, _, rfl, rfl⟩

/-- With two older instructions in flight: taken to the first entry, and to the end of the program. -/
theorem wit_TakenBranchRefillsFromItsTarget :
    (let i : Instr := .beq 1#5 2#5 8
     let u := busyOlder i
     olderSteps (busy i) = .next u ∧ u.fault = none ∧ u.D = some 2 ∧ (busy i).IS[2]? = some i ∧ u.hazard i = false ∧
     u.readReg 2#5 = u.readReg 1#5 ∧ immInRange 8 = true ∧ (8 : Int) ≠ 0 ∧
     ((0 : Nat) : Int) * 4 = ((2 : Nat) : Int) * 4 - 8 ∧ 0 ≤ (busy i).IS.length) ∧
    (let i : Instr := .beq 1#5 2#5 (-8)
     let u := busyOlder i
     olderSteps (busy i) = .next u ∧ u.fault = none ∧ u.D = some 2 ∧ (busy i).IS[2]? = some i ∧ u.hazard i = false ∧
     u.readReg 2#5 = u.readReg 1#5 ∧ immInRange (-8) = true ∧ (-8 : Int) ≠ 0 ∧
     ((4 : Nat) : Int) * 4 = ((2 : Nat) : Int) * 4 - (-8) ∧ 4 ≤ (busy i).IS.length) := ⟨⟨rfl, by decide⟩, rfl, by decide⟩

/-- Indices 32 and -1. -/
theorem wit_MemoryFaultStopsTheCycle :
    (let s := { start [.lw 2#5 1#5 31] with E := some 0, pc := 1, exResult := 32#32 }
     s.running = true ∧ s.slotInStore s.M ∧ s.E = some 0 ∧ s.IS[0]? = some (.lw 2#5 1#5 31) ∧ 31 < s.exResult.toInt) ∧
    (let s := { start [.sw 2#5 0#5 (-1)] with E := some 0, pc := 1, exResult := 0xFFFFFFFF#32 }
     s.running = true ∧ s.slotInStore s.M ∧ s.E = some 0 ∧ s.IS[0]? = some (.sw 2#5 0#5 (-1)) ∧ s.exResult.toInt < 0) :=
  ⟨⟨rfl, nofun, rfl, rfl, by decide⟩, ⟨rfl, nofun, rfl, rfl, by decide⟩⟩

/-- With two older instructions in flight: a misaligned displacement, a target of -1 and one of N + 1. -/
theorem wit_BranchFaultStopsTheCycle :
    let i : Instr := .beq 1#5 2#5 6
    let u := busyOlder i
    olderSteps (busy i) = .next u ∧ u.fault = none ∧ u.D = some 2 ∧ (busy i).IS[2]? = some i ∧ u.hazard i = false ∧
    u.readReg 2#5 = u.readReg 1#5 ∧ immInRange 6 = true ∧ (6 : Int) ≠ 0 ∧ (6 : Int) % 4 ≠ 0 ∧
    ((2 : Nat) : Int) * 4 - 12 < 0 ∧ ((busy i).IS.length : Int) * 4 < ((2 : Nat) : Int) * 4 - (-12) := ⟨rfl, by decide⟩

theorem wit_LoneInstructionTakesThreeCyclesFromDecode :
    let s := inDecode (.lw 2#5 1#5 (-1))
    s.fault = none ∧ s.servicing = none ∧ s.D = some 0 ∧ s.IS[0]? = some (.lw 2#5 1#5 (-1)) ∧ s.F = none ∧ s.E = none ∧
    s.M = none ∧ s.pc = s.IS.length ∧ s.IS.length = 0 + 1 ∧ kindOf (.lw 2#5 1#5 (-1)) ≠ .beq ∧
    ∃ u, exec (.lw 2#5 1#5 (-1)) s = .next u ∧ u.fault = none :=
  ⟨rfl, rfl, rfl, rfl, rfl, rfl, rfl, rfl, rfl, by decide, _, rfl, rfl⟩

/-- The first cycle of a one-entry program, and an empty program. -/
theorem wit_StraightLineTiming :
    (∀ i ∈ [Instr.unknown], kindOf i ≠ .beq) ∧
    (∀ m u, m < 1 → runsTo m (start [.unknown]) u → ¬ u.stalls) ∧
    (∃ t, runsTo 1 (start [.unknown]) t ∧ t.fault = none) ∧ 1 ≤ [Instr.unknown].length + 4 ∧
    ∃ t, runsTo 0 (start []) t ∧ t.fault = none := by
  refine ⟨by decide, ?_, ⟨_, rfl, rfl⟩, by decide, ⟨_, rfl, rfl⟩⟩
  rintro m u hm hu ⟨v, k, i, hv, hD, -⟩
  obtain rfl : m = 0 := by omega
  cases hu
  cases hv
  cases hD

theorem wit_TraceOfACycle :
    ∃ t, t.Inv ∧ step (start [.unknown]) = .next t ∧ (start [.unknown]).running = true ∧ t.fault = none :=
  ⟨after (step (start [.unknown])) (start []), {
    pcInRange := Nat.le_refl 1
    fetchInStore := slot_zero (.inr rfl) Nat.one_pos
    decodeInStore := slot_zero (.inl rfl) Nat.one_pos
    executeInStore := slot_zero (.inl rfl) Nat.one_pos
    memoryInStore := slot_zero (.inl rfl) Nat.one_pos
    writebackInStore := slot_zero (.inl rfl) Nat.one_pos
    memoryCanonical := rfl
    branchClearsDecode := nofun
    faultInStore := nofun
    notServicing := rfl }, rfl, rfl, rfl⟩

/-- A faulting cycle. -/
theorem wit_TraceOfAFaultingCycle :
    let s := inDecode (.beq 1#5 2#5 6)
    ∃ t, t.Inv ∧ step s = .next t ∧ s.running = true ∧ t.fault = some (.branchTarget 0 6 1) :=
  ⟨after (step (inDecode (.beq 1#5 2#5 6))) (start []), {
    pcInRange := Nat.le_refl 1
    fetchInStore := slot_zero (.inl rfl) Nat.one_pos
    decodeInStore := slot_zero (.inl rfl) Nat.one_pos
    executeInStore := slot_zero (.inr rfl) Nat.one_pos
    memoryInStore := slot_zero (.inl rfl) Nat.one_pos
    writebackInStore := slot_zero (.inl rfl) Nat.one_pos
    memoryCanonical := rfl
    branchClearsDecode := fun _ => rfl
    faultInStore := fun f hf => by cases hf; exact ⟨Nat.one_pos, rfl⟩
    notServicing := rfl }, rfl, rfl, rfl⟩

/-- The pipeline halts and faults, and so does SEQ. -/
theorem wit_PipelineRefinesTheSequentialMachine :
    (∃ t, runsTo 5 (start [.unknown]) t ∧ t.halted) ∧ (∃ u, seqRunsTo 1 (start [.unknown]) u ∧ u.seqHalted) ∧
    (∃ t f, runsTo 3 (start [.beq 1#5 2#5 6]) t ∧ t.fault = some f) ∧
    ∃ u g, seqRunsTo 1 (start [.beq 1#5 2#5 6]) u ∧ u.fault = some g :=
  ⟨⟨_, rfl, rfl, rfl⟩, ⟨_, rfl, rfl, rfl⟩, ⟨_, _, rfl, rfl⟩, ⟨_, _, rfl, rfl⟩⟩

theorem wit_ForwardingChangesOnlyTiming :
    ∃ t, runsTo 5 (State.boot ⟨true, 0⟩ [.unknown]) t ∧ t.halted := ⟨_, rfl, rfl, rfl⟩

theorem wit_AcceptedProgramsAreWellFormed :
    assemble {} "sub $5, $zero, $31".toList = .ok [.sub 5#5 0#5 31#5 0#5] := by rfl

theorem wit_LabelLinesPushNothing :
    ∀ t ∈ tokensOf "L1: L2:".toList, endsWithColon t = true ∧ isLabelName t.dropLast = true := by decide

theorem wit_UnknownMnemonicPushesUnknown :
    tokensOf "L1: L2: nop $1".toList = ["L1:".toList, "L2:".toList] ++ "nop".toList :: ["$1".toList] ∧
    (∀ t ∈ ["L1:".toList, "L2:".toList], endsWithColon t = true ∧ isLabelName t.dropLast = true) ∧
    tokensOf "nop $1".toList = [] ++ "nop".toList :: ["$1".toList] ∧ endsWithColon "nop".toList = false ∧
    mnemonicKind "nop".toList = none ∧ (4294967291 : Nat) + 4 * (0 + 1) ≤ 4294967295 := by decide

theorem wit_BranchToAnEarlierLabelLandsOnIt :
    isLabelName "loop".toList = true ∧ List.lookup "loop".toList [("loop".toList, 0 + 4 * 1)] = some (0 + 4 * 1) ∧ 1 ≤ 1 ∧
    parseBranchTarget {} [("loop".toList, 4)] (0 + 4 * 2) "loop".toList = .ok 4 := ⟨by decide, by decide, by decide, rfl⟩

theorem wit_UndefinedLabelFollowsThePolicy :
    isLabelName "ahead".toList = true ∧ List.lookup "ahead".toList ([] : SymbolTable) = none ∧
    ({} : EncoderParams).undefinedLabel = .zero ∧ (32767 : Nat) ≤ 32767 ∧ 32767 < (32768 : Nat) ∧ 32768 = 4 * 8192 ∧
    ({ undefinedLabel := .refuse } : EncoderParams).undefinedLabel = .refuse := by decide

end Sys2Proof.Tests
end

/-! O11: no operation of the block reads `datapath_mode` (spec/00_scope.md R8), so setting it commutes with every stage action,
every stage step, and a step. -/

namespace Sys2Proof.Machine

/-- The state with another value of `datapath_mode`. spec/00_scope.md R8. -/
def State.withMode (m : Nat) (s : State) : State := { s with cfg := { s.cfg with datapathMode := m } }

/-! ### The fields and the tests a step reads -/

namespace State

variable (m : Nat) (s : State)

@[simp] theorem withMode_IS : (s.withMode m).IS = s.IS := rfl
@[simp] theorem withMode_F : (s.withMode m).F = s.F := rfl
@[simp] theorem withMode_D : (s.withMode m).D = s.D := rfl
@[simp] theorem withMode_exResult : (s.withMode m).exResult = s.exResult := rfl
@[simp] theorem withMode_fault : (s.withMode m).fault = s.fault := rfl
@[simp] theorem withMode_running : (s.withMode m).running = s.running := rfl
@[simp] theorem withMode_decodeAdmits : (s.withMode m).decodeAdmits = s.decodeAdmits := rfl
@[simp] theorem withMode_exhausted : (s.withMode m).exhausted = s.exhausted := rfl
/-- The hazard predicate reads the other configuration bit, forwarding, which stays. -/
@[simp] theorem withMode_hazard (i : Instr) : (s.withMode m).hazard i = s.hazard i := rfl

/-! ### The updates it commutes with -/

theorem setServicing_withMode (st : Option Stage) :
    (s.withMode m).setServicing st = (s.setServicing st).withMode m := rfl
theorem setExResult_withMode (v : Word) : (s.withMode m).setExResult v = (s.setExResult v).withMode m := rfl
theorem raise_withMode (kind : FaultKind) (k : Nat) (v : Int) :
    (s.withMode m).raise kind k v = (s.raise kind k v).withMode m := rfl
theorem flushTo_withMode (t : Nat) : (s.withMode m).flushTo t = (s.flushTo t).withMode m := rfl
theorem admitToExecute_withMode (k : Nat) : (s.withMode m).admitToExecute k = (s.admitToExecute k).withMode m := rfl
theorem countCycle_withMode : (s.withMode m).countCycle = s.countCycle.withMode m := rfl

end State

/-! ### Sequencing -/

/-- Two maps of an outcome that commute on states commute on outcomes. -/
theorem mapNext_comm {f g : State → State} (h : ∀ s, f (g s) = g (f s)) (o : Host.Outcome State Fault Refusal) :
    mapNext f (mapNext g o) = mapNext g (mapNext f o) := by
  cases o with
  | next s => simp [h]
  | fault r => rfl
  | refused r => rfl

/-- A second stage step that does not see `datapath_mode` does not see it after a first one either: whether it runs at all is
the fault record's say. -/
theorem thenStep_withMode {m : Nat} {f : State → Host.Outcome State Fault Refusal}
    (h : ∀ s : State, f (s.withMode m) = mapNext (State.withMode m) (f s)) (o : Host.Outcome State Fault Refusal) :
    thenStep (mapNext (State.withMode m) o) f = mapNext (State.withMode m) (thenStep o f) := by
  cases o with
  | next s =>
    cases hf : s.fault with
    | none => simp [hf, h]
    | some r => simp [hf]
  | fault r => rfl
  | refused r => rfl

/-! ### The stage actions -/

theorem branchTaken_withMode (m : Nat) (disp : Int) (k : Nat) (s : State) :
    branchTaken disp k (s.withMode m) = (branchTaken disp k s).withMode m := by
  simp only [branchTaken, State.withMode_IS, State.flushTo_withMode, State.raise_withMode]
  split <;> rfl

theorem executeAction_withMode (m : Nat) (i : Instr) (k : Nat) (s : State) :
    executeAction i k (s.withMode m) = (executeAction i k s).withMode m := by
  cases i with
  | beq rt rs disp =>
    have hresult : (s.withMode m).branchResult rt rs disp = s.branchResult rt rs disp := rfl
    simp only [executeAction, beqExecute, hresult, State.setExResult_withMode, branchTaken_withMode]
    split <;> rfl
  | _ => rfl

theorem dataAccess_withMode {m : Nat} {act : Nat → State → State}
    (h : ∀ a (s : State), act a (s.withMode m) = (act a s).withMode m) (k : Nat) (s : State) :
    dataAccess act k (s.withMode m) = (dataAccess act k s).withMode m := by
  simp only [dataAccess, State.withMode_exResult, h, State.raise_withMode]
  split <;> rfl

theorem memoryAction_withMode (m : Nat) (i : Instr) (k : Nat) (s : State) :
    memoryAction i k (s.withMode m) = (memoryAction i k s).withMode m := by
  cases i with
  | lw rt rs off => exact dataAccess_withMode (act := loadWord) (fun _ _ => rfl) k s
  | sw rt rs off => exact dataAccess_withMode (act := storeWord rt) (fun _ _ => rfl) k s
  | _ => rfl

theorem writebackAction_withMode (m : Nat) (i : Instr) (k : Nat) (s : State) :
    writebackAction i k (s.withMode m) = (writebackAction i k s).withMode m := by
  cases i <;> rfl

/-! ### Servicing a slot -/

theorem inSlot_withMode {m : Nat} {act : Nat → State → State}
    (h : ∀ k (s : State), act k (s.withMode m) = (act k s).withMode m) (slot : Option Nat) (stage : Stage) (s : State) :
    inSlot slot stage act (s.withMode m) = mapNext (State.withMode m) (inSlot slot stage act s) := by
  cases slot with
  | none => rfl
  | some k => simp [inSlot, h]

/-- `exec` serviced in a stage does not see `datapath_mode`, since none of an instruction's three actions does. -/
theorem exec_withMode (m : Nat) (i : Instr) {stage : Stage} {s : State} (hs : s.servicing = some stage) :
    exec i (s.withMode m) = mapNext (State.withMode m) (exec i s) := by
  have hs' : (s.withMode m).servicing = some stage := hs
  simp only [exec_eq_perStage, perStage, hs, hs']
  cases stage with
  | fetch => rfl
  | decode => rfl
  | execute => exact inSlot_withMode (executeAction_withMode m i) s.E .execute s
  | memory => exact inSlot_withMode (memoryAction_withMode m i) s.M .memory s
  | writeback => exact inSlot_withMode (writebackAction_withMode m i) s.W .writeback s

theorem service_withMode (m : Nat) (stage : Stage) (k : Nat) (s : State) :
    service stage k (s.withMode m) = mapNext (State.withMode m) (service stage k s) := by
  cases hi : s.IS[k]? with
  | none =>
    rw [service_dangling stage hi, service_dangling (s := s.withMode m) stage hi]
    rfl
  | some i =>
    simp only [service, State.withMode_IS, hi, State.setServicing_withMode,
      exec_withMode m i (s.setServicing_servicing (some stage))]
    exact mapNext_comm (State.setServicing_withMode m · none) _

theorem serviceSlot_withMode (m : Nat) (stage : Stage) (slot : Option Nat) (s : State) :
    serviceSlot stage slot (s.withMode m) = mapNext (State.withMode m) (serviceSlot stage slot s) := by
  cases slot with
  | none => rfl
  | some k => exact service_withMode m stage k s

/-! ### The stage steps

A promotion and an admission commute with setting `datapath_mode` by definition; what is left is servicing a slot. -/

theorem writebackStep_withMode (m : Nat) (s : State) :
    writebackStep (s.withMode m) = mapNext (State.withMode m) (writebackStep s) :=
  serviceSlot_withMode m .writeback s.M s.promoteToWriteback

theorem memoryStep_withMode (m : Nat) (s : State) :
    memoryStep (s.withMode m) = mapNext (State.withMode m) (memoryStep s) :=
  serviceSlot_withMode m .memory s.E s.promoteToMemory

theorem executeStep_withMode (m : Nat) (s : State) :
    executeStep (s.withMode m) = mapNext (State.withMode m) (executeStep s) := by
  cases hD : s.D with
  | none => simp [executeStep, hD]
  | some k =>
    cases hi : s.IS[k]? with
    | none => simp [executeStep, hD, hi, mapNext]
    | some i =>
      cases hz : s.hazard i with
      | true => simp [executeStep, hD, hi, hz]
      | false =>
        simpa [executeStep, hD, hi, hz, State.admitToExecute_withMode]
          using service_withMode m .execute k (s.admitToExecute k)

theorem decodeStep_withMode (m : Nat) (s : State) : decodeStep (s.withMode m) = (decodeStep s).withMode m := by
  rw [decodeStep, decodeStep, State.withMode_decodeAdmits]
  split <;> rfl

theorem fetchStep_withMode (m : Nat) (s : State) : fetchStep (s.withMode m) = (fetchStep s).withMode m := by
  rw [fetchStep, fetchStep, State.withMode_F, State.withMode_exhausted]
  split <;> rfl

theorem youngerSteps_withMode (m : Nat) (s : State) :
    youngerSteps (s.withMode m) = mapNext (State.withMode m) (youngerSteps s) := by
  simp [youngerSteps, decodeStep_withMode, fetchStep_withMode]

/-! ### The cycle and the step -/

theorem cycle_withMode (m : Nat) (s : State) : cycle (s.withMode m) = mapNext (State.withMode m) (cycle s) := by
  simp only [cycle, olderSteps, writebackStep_withMode, thenStep_withMode (memoryStep_withMode m),
    thenStep_withMode (executeStep_withMode m), thenStep_withMode (youngerSteps_withMode m)]
  exact mapNext_comm (State.countCycle_withMode m) _

theorem step_withMode (m : Nat) (s : State) : step (s.withMode m) = mapNext (State.withMode m) (step s) := by
  cases hr : s.running with
  | false => simp [step, hr]
  | true => simpa [step, hr] using cycle_withMode m s

/-- Settles O11: a step commutes with setting `datapath_mode`, stage step by stage step. -/
theorem datapathModeHasNoEffect : Obligations.DatapathModeHasNoEffect :=
  fun s m => step_withMode m s

end Sys2Proof.Machine

/-! The state family (spec/10_state.md, spec/70_reset_and_hazards.md): O1, O2, O6, O9, O12, O33, O35, O36. A running step is the
Writeback step, the Memory step and the later steps (`step_cases`), and each of the three has a frame; O9, O35 and O36 read
their change off the frames. O6 goes through one rule per state operation for `State.Inv`. -/

namespace Sys2Proof.Machine

/-! ### Registers, and the state at reset -/

/-- Settles O33. -/
theorem everyRegisterIsWritable : Obligations.EveryRegisterIsWritable := by
  intro s r q v
  split
  case isTrue h => rw [h, readReg_writeReg_same]
  case isFalse h => exact readReg_writeReg_other s v h

/-- The registers at reset. spec/10_state.md R23. -/
theorem readReg_boot (cfg : Cfg) (prog : List Instr) (r : RegIx) :
    (State.boot cfg prog).readReg r = if r = 0#5 then 0#32 else 1#32 := by
  have hx : (State.boot cfg prog).x = (State.writeReg 0#5 0#32 { State.reset with x := Vector.replicate 32 1#32 }).x := rfl
  rw [readReg_congr hx]
  split
  case isTrue h => rw [h, readReg_writeReg_same]
  case isFalse h =>
    rw [readReg_writeReg_other _ _ h]
    simp [State.readReg]

/-- The data words at reset. spec/10_state.md R25. -/
theorem dmRead_boot (cfg : Cfg) (prog : List Instr) (a : Nat) :
    (State.boot cfg prog).dmRead a = if a = 0 then 0#32 else 1#32 := rfl

/-- Settles O1: registers and data words by their values at reset, every other field by definition. -/
theorem resetLeavesTheSpecifiedState : Obligations.ResetLeavesTheSpecifiedState := by
  refine ⟨fun cfg prog => ⟨?reg0, ?regs, ?word0, ?words, rfl, rfl, rfl, rfl, rfl, rfl, rfl, rfl, rfl, rfl, rfl, rfl⟩, rfl, rfl⟩
  case reg0 => simp [readReg_boot]
  case regs =>
    intro r hr
    simp [readReg_boot, hr]
  case word0 => simp [dmRead_boot]
  case words =>
    intro a ha _
    simp [dmRead_boot, Nat.ne_of_gt ha]

/-! ### When a step runs a cycle -/

/-- A running state is neither drained nor faulted. -/
theorem running_iff (s : State) : s.running = true ↔ s.drained = false ∧ s.fault = none := by
  simp [State.running, State.faulted]

theorem step_of_running {s : State} (h : s.running = true) : step s = cycle s := by
  simp [step, h]

theorem step_of_drained {s : State} (h : s.drained = true) : step s = .next s := by
  simp [step, State.running, h]

theorem step_of_faulted {s : State} {f : Fault} (h : s.fault = some f) : step s = .next s := by
  simp [step, State.running, State.faulted, h]

/-- Settles O2. -/
theorem stepRunsACycleOrChangesNothing : Obligations.StepRunsACycleOrChangesNothing :=
  fun s => ⟨fun hd hf => step_of_running ((running_iff s).2 ⟨hd, hf⟩), step_of_drained, fun _ => step_of_faulted⟩

/-! ### Runs -/

theorem coreRun_zero {M : Host.Core} {s t : M.State} : M.run 0 s = .next t ↔ t = s := by
  simp [Host.Core.run, eq_comm]

/-- A run of one step more is a step, then a run. -/
theorem coreRun_succ {M : Host.Core} {n : Nat} {s t : M.State} :
    M.run (n + 1) s = .next t ↔ ∃ u, M.step s = .next u ∧ M.run n u = .next t := by
  cases h : M.step s <;> simp [Host.Core.run, h]

theorem runsTo_zero {s t : State} : runsTo 0 s t ↔ t = s := coreRun_zero

theorem runsTo_succ {n : Nat} {s t : State} : runsTo (n + 1) s t ↔ ∃ u, step s = .next u ∧ runsTo n u t := coreRun_succ

/-- A state that a step answers with itself is where every run from it ends. -/
theorem runsTo_of_step_self {n : Nat} {s t : State} (hs : step s = .next s) (h : runsTo n s t) : t = s := by
  induction n with
  | zero => exact runsTo_zero.1 h
  | succ n ih =>
    obtain ⟨u, hu, hrun⟩ := runsTo_succ.1 h
    obtain rfl : s = u := by simpa [hs] using hu
    exact ih hrun

/-- Settles O12: a step answers a faulted state with itself, so every run from it ends there. -/
theorem faultedStateIsFinal : Obligations.FaultedStateIsFinal :=
  fun _ _ _ _ hf => runsTo_of_step_self (step_of_faulted hf)

/-! ### A running step by its parts -/

/-- The stage steps of a cycle from Execute on, on the state the older steps left. spec/40_pipeline.md R131. -/
def laterSteps (m : State) : Host.Outcome State Fault Refusal := thenStep (thenStep (.next m) executeStep) youngerSteps

/-- A cycle is its older steps, the later ones, and the count. -/
theorem cycle_of_olderSteps {s m : State} (h : olderSteps s = .next m) :
    cycle s = mapNext State.countCycle (laterSteps m) := by
  rw [cycle, h, laterSteps]

/-- Whatever the Execute, Decode and Fetch steps each keep, the later steps keep: they run some of the three, in order. -/
theorem laterSteps_keeps {P : State → Prop} (he : ∀ u v, executeStep u = .next v → P u → P v)
    (hd : ∀ u, P u → P (decodeStep u)) (hf : ∀ u, P u → P (fetchStep u)) {m t : State} (h : laterSteps m = .next t)
    (hm : P m) : P t := by
  obtain ⟨e, hme, het⟩ := thenStep_next.1 h
  have hPe : P e := by
    obtain ⟨u, hu, ⟨-, rfl⟩ | ⟨-, heu⟩⟩ := thenStep_next.1 hme
    · cases hu
      exact hm
    · cases hu
      exact he _ _ heu hm
  rcases het with ⟨-, rfl⟩ | ⟨-, hy⟩
  · exact hPe
  · cases hy
    exact hf _ (hd _ hPe)

/-- The Writeback step leaves the configuration, the program, the data memory, Execute, `exResult` and the fault record. -/
theorem writebackStep_frame {s w : State} (h : writebackStep s = .next w) :
    w.cfg = s.cfg ∧ w.IS = s.IS ∧ w.DM = s.DM ∧ w.E = s.E ∧ w.exResult = s.exResult ∧ w.fault = s.fault := by
  have hk := writebackStep_keeps h
  simp only [State.mk.injEq] at hk
  simp [hk]

/-- The Memory step leaves the configuration, the program and the registers. -/
theorem memoryStep_frame {w m : State} (h : memoryStep w = .next m) : m.cfg = w.cfg ∧ m.IS = w.IS ∧ m.x = w.x := by
  have hk := memoryStep_keeps h
  simp only [State.mk.injEq] at hk
  simp [hk]

/-- Everything a step can do, by its parts: nothing, or the Writeback step, the Memory step, the later steps and the count.
The Memory step always runs, since the Writeback step raises nothing. -/
theorem step_cases {s t : State} (h : step s = .next t) :
    t = s ∨ ∃ w m u, s.fault = none ∧ writebackStep s = .next w ∧ memoryStep w = .next m ∧ laterSteps m = .next u ∧
      t = u.countCycle := by
  rcases step_next.1 h with ⟨-, rfl⟩ | ⟨hr, hc⟩
  · exact .inl rfl
  · have hsf := ((running_iff s).1 hr).2
    obtain ⟨u₁, hu₁, -⟩ := mapNext_next.1 hc
    obtain ⟨u₂, hu₂, -⟩ := thenStep_next.1 hu₁
    obtain ⟨m, hm, -⟩ := thenStep_next.1 hu₂
    obtain ⟨w, hw, hwm⟩ := thenStep_next.1 hm
    obtain ⟨-, -, -, -, -, hwf⟩ := writebackStep_frame hw
    obtain ⟨u, hu, ht⟩ := mapNext_next.1 (cycle_of_olderSteps hm ▸ hc)
    rcases hwm with ⟨hwf', -⟩ | ⟨-, hwm⟩
    · simp [hwf, hsf] at hwf'
    · exact .inr ⟨w, m, u, hsf, hw, hwm, hu, ht⟩

/-! ### What the later steps leave -/

/-- `u` is `s` but for what the later steps may change: `exResult`, Fetch, Decode, Execute, the cursor, the fault record and
`servicing`. -/
structure AgreesBeforeExecute (s u : State) : Prop where
  cfg : u.cfg = s.cfg
  IS : u.IS = s.IS
  x : u.x = s.x
  DM : u.DM = s.DM
  M : u.M = s.M
  W : u.W = s.W
  memResult : u.memResult = s.memResult
  cycle : u.cycle = s.cycle

theorem AgreesBeforeExecute.refl (s : State) : AgreesBeforeExecute s s := by
  constructor <;> rfl

theorem AgreesBeforeExecute.trans {s u v : State} (hsu : AgreesBeforeExecute s u) (huv : AgreesBeforeExecute u v) :
    AgreesBeforeExecute s v where
  cfg := huv.cfg.trans hsu.cfg
  IS := huv.IS.trans hsu.IS
  x := huv.x.trans hsu.x
  DM := huv.DM.trans hsu.DM
  M := huv.M.trans hsu.M
  W := huv.W.trans hsu.W
  memResult := huv.memResult.trans hsu.memResult
  cycle := huv.cycle.trans hsu.cycle

theorem executeAction_agrees (i : Instr) (k : Nat) (s : State) : AgreesBeforeExecute s (executeAction i k s) := by
  rcases executeAction_cases i k s with ⟨_, h⟩ | ⟨_, _, _, _, h⟩ | ⟨_, _, _, h⟩ <;> rw [h] <;> constructor <;> rfl

theorem executeStep_agrees {s t : State} (h : executeStep s = .next t) : AgreesBeforeExecute s t := by
  rcases executeStep_next.1 h with ⟨-, rfl⟩ | ⟨k, i, -, -, ⟨-, rfl⟩ | ⟨-, rfl⟩⟩
  · exact .refl t
  · exact .refl t
  · exact { executeAction_agrees i k (s.admitToExecute k) with }

theorem decodeStep_agrees (s : State) : AgreesBeforeExecute s (decodeStep s) := by
  rcases decodeStep_cases s with ⟨-, h⟩ | ⟨-, h⟩ <;> rw [h] <;> constructor <;> rfl

theorem fetchStep_agrees (s : State) : AgreesBeforeExecute s (fetchStep s) := by
  rcases fetchStep_cases s with ⟨-, -, h⟩ | ⟨-, h⟩ <;> rw [h] <;> constructor <;> rfl

/-- The frame of the later steps. -/
theorem laterSteps_agrees {m t : State} (h : laterSteps m = .next t) : AgreesBeforeExecute m t :=
  laterSteps_keeps (P := AgreesBeforeExecute m) (fun _ _ he hu => hu.trans (executeStep_agrees he))
    (fun u hu => hu.trans (decodeStep_agrees u)) (fun u hu => hu.trans (fetchStep_agrees u)) h (.refl m)

/-! ### What changes the program, the registers and the data memory -/

/-- Settles O9: no part of a step touches the program or the configuration. -/
theorem stepKeepsProgramAndConfiguration : Obligations.StepKeepsProgramAndConfiguration := by
  intro s t h
  rcases step_cases h with rfl | ⟨w, m, u, -, hw, hm, hu, rfl⟩
  · exact ⟨rfl, rfl⟩
  · obtain ⟨hwcfg, hwIS, -⟩ := writebackStep_frame hw
    obtain ⟨hmcfg, hmIS, -⟩ := memoryStep_frame hm
    have hmu := laterSteps_agrees hu
    exact ⟨hmu.cfg.trans (hmcfg.trans hwcfg), hmu.IS.trans (hmIS.trans hwIS)⟩

/-- A Writeback action writes `memResult` to the register the instruction commits, or does nothing where it commits none. -/
theorem writebackAction_commit (i : Instr) (k : Nat) (s : State) :
    (commitOf i = none ∧ writebackAction i k s = s) ∨
    ∃ r, commitOf i = some r ∧ writebackAction i k s = s.writeReg r s.memResult := by
  cases i with
  | add rd => exact .inr ⟨rd, rfl, rfl⟩
  | sub rd => exact .inr ⟨rd, rfl, rfl⟩
  | lw rt => exact .inr ⟨rt, rfl, rfl⟩
  | _ => exact .inl ⟨rfl, rfl⟩

/-- The Writeback step changes a register only by the commit of the instruction that was in Memory. -/
theorem writebackStep_readReg {s w : State} {r : RegIx} (h : writebackStep s = .next w) (hr : w.readReg r ≠ s.readReg r) :
    ∃ k i, s.M = some k ∧ s.IS[k]? = some i ∧ commitOf i = some r ∧ w.readReg r = s.memResult := by
  rcases writebackStep_next.1 h with ⟨-, rfl⟩ | ⟨k, i, hk, hi, rfl⟩
  · exact absurd rfl hr
  · rcases writebackAction_commit i k s.promoteToWriteback with ⟨-, ha⟩ | ⟨q, hq, ha⟩
    · rw [ha] at hr
      exact absurd rfl hr
    · have hx : ((writebackAction i k s.promoteToWriteback).setServicing none).x = (s.writeReg q s.memResult).x := by
        rw [ha]
        rfl
      rw [readReg_congr hx] at hr ⊢
      obtain rfl : r = q := by
        by_contra hne
        exact hr (readReg_writeReg_other s _ hne)
      exact ⟨k, i, hk, hi, hq, readReg_writeReg_same s r s.memResult⟩

/-- Settles O35: after the Writeback step the register file stays as it is, and that step only commits. -/
theorem registersChangeOnlyInWriteback : Obligations.RegistersChangeOnlyInWriteback := by
  intro s t r h hr
  rcases step_cases h with rfl | ⟨w, m, u, -, hw, hm, hu, rfl⟩
  · exact absurd rfl hr
  · obtain ⟨-, -, hmx⟩ := memoryStep_frame hm
    have hx : u.countCycle.x = w.x := (laterSteps_agrees hu).x.trans hmx
    rw [readReg_congr hx] at hr ⊢
    exact writebackStep_readReg hw hr

/-- The Memory step changes a data word only by the store of a `sw` in Execute, at the index in `exResult`. -/
theorem memoryStep_dmRead {w m : State} {a : Nat} (hwf : Memory.wf w.DM = true) (h : memoryStep w = .next m)
    (ha : m.dmRead a ≠ w.dmRead a) :
    ∃ k rt rs off, w.E = some k ∧ w.IS[k]? = some (.sw rt rs off) ∧ dataIndex w.exResult = some a ∧
      m.dmRead a = w.readReg rt := by
  rcases memoryStep_next.1 h with ⟨-, rfl⟩ | ⟨k, i, hk, hi, rfl⟩
  · exact absurd rfl ha
  · rcases memoryAction_cases i k w.promoteToMemory with hact | ⟨v, hact⟩ | ⟨rt, rs, off, b, rfl, hb, hact⟩ | ⟨-, hact⟩ <;>
      rw [hact] at ha ⊢
    · exact absurd rfl ha
    · exact absurd rfl ha
    · obtain rfl : a = b := by
        by_contra hne
        exact ha (Memory.read_write_other w.DM (w.readReg rt) hne)
      exact ⟨k, rt, rs, off, hk, hi, hb, Memory.read_write_same a (w.readReg rt) hwf⟩
    · exact absurd rfl ha

/-- Settles O36: only the Memory step touches the data memory, and the registers it reads are those the Writeback step left
and the step ends with. -/
theorem dataMemoryChangesOnlyByAStore : Obligations.DataMemoryChangesOnlyByAStore := by
  intro s t a hwf h ha
  rcases step_cases h with rfl | ⟨w, m, u, -, hw, hm, hu, rfl⟩
  · exact absurd rfl ha
  · obtain ⟨-, hwIS, hwDM, hwE, hwR, -⟩ := writebackStep_frame hw
    obtain ⟨-, -, hmx⟩ := memoryStep_frame hm
    have hmu := laterSteps_agrees hu
    have hDM : u.countCycle.DM = m.DM := hmu.DM
    have hx : u.countCycle.x = w.x := hmu.x.trans hmx
    rw [dmRead_congr hDM, ← dmRead_congr hwDM] at ha
    obtain ⟨k, rt, rs, off, hk, hi, hidx, hval⟩ := memoryStep_dmRead (hwDM ▸ hwf) hm ha
    refine ⟨k, rt, rs, off, hwE ▸ hk, hwIS ▸ hi, hwR ▸ hidx, ?_⟩
    rw [dmRead_congr hDM, readReg_congr hx, hval]

/-! ### The invariant: one rule per state operation -/

theorem slotInStore_none (s : State) : s.slotInStore none := nofun

theorem slotInStore_some {s : State} {k : Nat} (h : k < s.IS.length) : s.slotInStore (some k) := by
  rintro _ ⟨⟩
  exact h

/-- An index at which the program has an instruction names an entry. -/
theorem lt_of_entry {s : State} {k : Nat} {i : Instr} (h : s.IS[k]? = some i) : k < s.IS.length :=
  (List.getElem?_eq_some_iff.1 h).1

namespace State.Inv

variable {s : State}

theorem writeReg (h : s.Inv) (r : RegIx) (v : Word) : (s.writeReg r v).Inv := { h with }

theorem setExResult (h : s.Inv) (v : Word) : (s.setExResult v).Inv := { h with }

theorem setMemResult (h : s.Inv) (v : Word) : (s.setMemResult v).Inv := { h with }

theorem setServicing_none (h : s.Inv) : (s.setServicing none).Inv := { h with notServicing := rfl }

theorem dmWrite (h : s.Inv) {a : Nat} (v : Word) (ha : a < 32) : (s.dmWrite a v).Inv :=
  { h with memoryCanonical := Memory.wf_write v h.memoryCanonical ha }

theorem promoteToWriteback (h : s.Inv) : s.promoteToWriteback.Inv :=
  { h with memoryInStore := slotInStore_none s, writebackInStore := h.memoryInStore }

theorem promoteToMemory (h : s.Inv) : s.promoteToMemory.Inv :=
  { h with executeInStore := slotInStore_none s, memoryInStore := h.executeInStore, branchClearsDecode := nofun }

theorem admitToExecute (h : s.Inv) {k : Nat} (hk : k < s.IS.length) : (s.admitToExecute k).Inv :=
  { h with decodeInStore := slotInStore_none s, executeInStore := slotInStore_some hk, branchClearsDecode := fun _ => rfl }

theorem flushTo (h : s.Inv) {t : Nat} (ht : t ≤ s.IS.length) : (s.flushTo t).Inv :=
  { h with pcInRange := ht, fetchInStore := slotInStore_none s, decodeInStore := slotInStore_none s,
           branchClearsDecode := fun _ => rfl }

/-- The Decode step admits nothing behind a branch in Execute. -/
theorem decodeStep (h : s.Inv) : (decodeStep s).Inv := by
  rcases decodeStep_cases s with ⟨hadm, hd⟩ | ⟨-, hd⟩ <;> rw [hd]
  · simp only [State.decodeAdmits, Bool.and_eq_true, Bool.not_eq_true'] at hadm
    obtain ⟨-, hE⟩ := hadm
    exact { h with fetchInStore := slotInStore_none s, decodeInStore := h.fetchInStore,
                   branchClearsDecode := fun hb => absurd (hb.symm.trans hE) nofun }
  · exact h

theorem fetchStep (h : s.Inv) : (fetchStep s).Inv := by
  rcases fetchStep_cases s with ⟨-, hpc, hf⟩ | ⟨-, hf⟩ <;> rw [hf]
  · exact { h with pcInRange := hpc, fetchInStore := slotInStore_some hpc }
  · exact h

end State.Inv

/-! ### The invariant within a cycle

A record raised in a cycle shows the number the counter has once the cycle is counted (log entry 7). So what the parts of a
cycle keep is the invariant of the state with the cycle counted. -/

/-- The invariant within a cycle. -/
def State.InvOnceCounted (s : State) : Prop := s.countCycle.Inv

namespace State.InvOnceCounted

variable {s t : State}

/-- A state without a fault meets the invariant within a cycle where it meets it between cycles. -/
theorem of_inv (h : s.Inv) (hf : s.fault = none) : s.InvOnceCounted :=
  { h with faultInStore := fun _ hf' => absurd (hf.symm.trans hf') nofun }

theorem raise (h : s.InvOnceCounted) (kind : FaultKind) {k : Nat} (v : Int) (hk : k < s.IS.length) :
    (s.raise kind k v).InvOnceCounted :=
  have hrecord (f : Fault) (hf : some (faultRecord kind k v (s.cycle + 1)) = some f) :
      f.index < s.IS.length ∧ f.cycle = s.cycle + 1 := by
    cases hf
    cases kind <;> exact ⟨hk, rfl⟩
  { h with faultInStore := hrecord }

theorem writebackAction (h : s.InvOnceCounted) (i : Instr) (k : Nat) : (writebackAction i k s).InvOnceCounted := by
  rcases writebackAction_commit i k s with ⟨-, ha⟩ | ⟨r, -, ha⟩ <;> rw [ha]
  · exact h
  · exact Inv.writeReg h r s.memResult

theorem memoryAction (h : s.InvOnceCounted) (i : Instr) {k : Nat} (hk : k < s.IS.length) :
    (memoryAction i k s).InvOnceCounted := by
  rcases memoryAction_cases i k s with ha | ⟨v, ha⟩ | ⟨rt, _, _, a, _, hidx, ha⟩ | ⟨-, ha⟩ <;> rw [ha]
  · exact h
  · exact Inv.setMemResult h v
  · exact Inv.dmWrite h (s.readReg rt) (dataIndex_some hidx).1
  · exact h.raise .memoryRange s.exResult.toInt hk

theorem executeAction (h : s.InvOnceCounted) (i : Instr) {k : Nat} (hk : k < s.IS.length) :
    (executeAction i k s).InvOnceCounted := by
  rcases executeAction_cases i k s with ⟨v, ha⟩ | ⟨v, t, ht, -, ha⟩ | ⟨v, disp, -, ha⟩ <;> rw [ha]
  · exact Inv.setExResult h v
  · exact (Inv.setExResult h v).flushTo ht
  · have hv : (s.setExResult v).InvOnceCounted := Inv.setExResult h v
    exact hv.raise .branchTarget disp hk

theorem writebackStep (hs : s.InvOnceCounted) (h : writebackStep s = .next t) : t.InvOnceCounted := by
  have hp : s.promoteToWriteback.InvOnceCounted := Inv.promoteToWriteback hs
  rcases writebackStep_next.1 h with ⟨-, rfl⟩ | ⟨k, i, -, -, rfl⟩
  · exact hp
  · exact Inv.setServicing_none (hp.writebackAction i k)

theorem memoryStep (hs : s.InvOnceCounted) (h : memoryStep s = .next t) : t.InvOnceCounted := by
  have hp : s.promoteToMemory.InvOnceCounted := Inv.promoteToMemory hs
  rcases memoryStep_next.1 h with ⟨-, rfl⟩ | ⟨k, i, -, hi, rfl⟩
  · exact hp
  · exact Inv.setServicing_none (hp.memoryAction i (lt_of_entry hi))

theorem executeStep (hs : s.InvOnceCounted) (h : executeStep s = .next t) : t.InvOnceCounted := by
  rcases executeStep_next.1 h with ⟨-, rfl⟩ | ⟨k, i, -, hi, ⟨-, rfl⟩ | ⟨-, rfl⟩⟩
  · exact hs
  · exact hs
  · have hk := lt_of_entry hi
    have ha : (s.admitToExecute k).InvOnceCounted := Inv.admitToExecute hs hk
    exact Inv.setServicing_none (ha.executeAction i hk)

theorem decodeStep (hs : s.InvOnceCounted) : (decodeStep s).InvOnceCounted := by
  have hc : (Machine.decodeStep s).countCycle = Machine.decodeStep s.countCycle := by
    rw [Machine.decodeStep, Machine.decodeStep]
    exact apply_ite State.countCycle _ _ _
  rw [InvOnceCounted, hc]
  exact Inv.decodeStep hs

theorem fetchStep (hs : s.InvOnceCounted) : (fetchStep s).InvOnceCounted := by
  have hc : (Machine.fetchStep s).countCycle = Machine.fetchStep s.countCycle := by
    rw [Machine.fetchStep, Machine.fetchStep]
    exact apply_ite State.countCycle _ _ _
  rw [InvOnceCounted, hc]
  exact Inv.fetchStep hs

end State.InvOnceCounted

/-- Settles O6: every part of a running step keeps the invariant within a cycle, which the count at the end turns into the
invariant. -/
theorem stepKeepsTheInvariant : Obligations.StepKeepsTheInvariant := by
  intro s t hs h
  rcases step_cases h with rfl | ⟨w, m, u, hf, hw, hm, hu, rfl⟩
  · exact hs
  · have hInv : m.InvOnceCounted := ((State.InvOnceCounted.of_inv hs hf).writebackStep hw).memoryStep hm
    exact laterSteps_keeps (P := State.InvOnceCounted) (fun _ _ he hP => hP.executeStep he) (fun _ => .decodeStep)
      (fun _ => .fetchStep) hu hInv

end Sys2Proof.Machine

/-! The memory family (spec/20_memory.md): O17, O34. The byte image of a program is a word's bytes in front of the image of the
rest, so its round trip is an induction over the program, on top of `decode_encode` for one word. -/

namespace Sys2Proof.Machine

/-! ### One word: the decoder undoes the encoder

The codes of a word pick its branch of the decoder's chain, and the fields of that branch are the operands. -/

/-- An R-format word decodes by its function code. -/
theorem decode_rWord (rs rt rd : RegIx) (sh : ShAmt) (f : BitVec 6) : decode (rWord rs rt rd sh f) =
    if f = 0x20#6 then .add rd rs rt sh else if f = 0x22#6 then .sub rd rs rt sh else .unknown := by
  simp [decode_eq]

/-- An I-format word decodes by its opcode; the range of the immediate is what lets its 16 bits hold it. -/
theorem decode_iWord {op : BitVec 6} (rs rt : RegIx) {imm : Int} (hop : op ≠ 0x00#6) (himm : immInRange imm = true) :
    decode (iWord op rs rt imm) =
      if op = 0x08#6 then .addi rt rs imm else if op = 0x23#6 then .lw rt rs imm
      else if op = 0x2B#6 then .sw rt rs imm else if op = 0x04#6 then .beq rt rs imm else .unknown := by
  simp [decode_eq, hop, immField_iWord _ _ _ _ himm]

/-- The word of a well-formed instruction decodes to it. -/
theorem decode_encode {i : Instr} (h : i.wellFormed = true) : decode (encode i) = i := by
  cases i with
  | add rd rs rt sh => exact decode_rWord rs rt rd sh 0x20#6
  | sub rd rs rt sh => exact decode_rWord rs rt rd sh 0x22#6
  | addi rt rs imm => exact decode_iWord rs rt (op := 0x08#6) (by decide) h
  | lw rt rs off => exact decode_iWord rs rt (op := 0x23#6) (by decide) h
  | sw rt rs off => exact decode_iWord rs rt (op := 0x2B#6) (by decide) h
  | beq rt rs disp => exact decode_iWord rs rt (op := 0x04#6) (by decide) h
  | unknown => rfl

/-! ### The byte image -/

@[simp] theorem imageOf_nil : imageOf [] = [] := rfl

@[simp] theorem imageOf_cons (i : Instr) (prog : List Instr) :
    imageOf (i :: prog) = bytesOfWord (encode i) ++ imageOf prog := rfl

/-- A word's bytes in front of an image that decodes add the word's instruction in front. -/
theorem decodeImage_bytesOfWord_append (w : Word) {bytes : List Byte} {prog : List Instr}
    (h : decodeImage bytes = .ok prog) : decodeImage (bytesOfWord w ++ bytes) = .ok (decode w :: prog) := by
  simp [bytesOfWord, decodeImage, h, wordOfBytes_bytes]

/-- Settles O17, by induction on the program. -/
theorem imageRoundTrip : Obligations.ImageRoundTrip := by
  intro prog hwf
  induction prog with
  | nil => rfl
  | cons i prog ih =>
    obtain ⟨hi, hprog⟩ : i.wellFormed = true ∧ programWellFormed prog = true := by
      simpa [programWellFormed] using hwf
    rw [imageOf_cons, decodeImage_bytesOfWord_append _ (ih hprog), decode_encode hi]

/-! ### Data memory -/

/-- Settles O34: the rules of `Memory.write`, read through the state. -/
theorem dataMemoryReadsTheLatestWrite : Obligations.DataMemoryReadsTheLatestWrite := by
  intro s a b v hwf ha
  refine ⟨?read, Memory.wf_write v hwf ha⟩
  split
  case isTrue h =>
    rw [h]
    exact Memory.read_write_same a v hwf
  case isFalse h => exact Memory.read_write_other s.DM v h

end Sys2Proof.Machine

/-! The encoding family, words (spec/30_encoding.md sections 1 to 5): O13, O14, O15, O16, O18. A word is its fields put together again, a
row of the opcode map reads the code fields only, and one relation says which case of the decoder's chain the fields of a word
pick. -/

namespace Sys2Proof.Machine

/-! ### A word and its fields -/

theorem append_eq_append_iff {m n : Nat} (a c : BitVec m) (b d : BitVec n) : a ++ b = c ++ d ↔ a = c ∧ b = d := by
  refine ⟨fun h => ⟨?_, ?_⟩, fun ⟨ha, hb⟩ => ha ▸ hb ▸ rfl⟩
  · simpa [BitVec.extractLsb'_append_eq_left] using congrArg (BitVec.extractLsb' n m) h
  · simpa [BitVec.extractLsb'_append_eq_right] using congrArg (BitVec.extractLsb' 0 n) h

/-- The bits above and below bit 26. -/
theorem opcodeField_append (w : Word) : opcodeField w ++ w.extractLsb' 0 26 = w := by
  simp only [opcodeField]
  ext i hi
  simp
  grind

/-- The two code fields and the bits between them. -/
theorem opcodeField_append_functField (w : Word) : opcodeField w ++ w.extractLsb' 6 20 ++ functField w = w := by
  simp only [opcodeField, functField]
  ext i hi
  simp
  grind

/-- A word of opcode 0 is the R-format word of its fields. spec/30_encoding.md R75. -/
theorem rWord_fields {w : Word} (hop : opcodeField w = 0x00#6) :
    rWord (rsField w) (rtField w) (rdField w) (shamtField w) (functField w) = w := by
  rw [rWord, ← hop]
  simp only [opcodeField, rsField, rtField, rdField, shamtField, functField]
  ext i hi
  simp
  grind

/-- A word is the I-format word of its fields. spec/30_encoding.md R76. -/
theorem iWord_fields (w : Word) : iWord (opcodeField w) (rsField w) (rtField w) (immField w) = w := by
  simp only [iWord, immField, BitVec.ofInt_toInt, opcodeField, rsField, rtField]
  ext i hi
  simp
  grind

/-! ### The rows of the opcode map -/

/-- The mask of an I-format row keeps the opcode. -/
theorem and_opcodeMask (w : Word) (op : BitVec 6) : w &&& 0xFC000000#32 = op ++ 0#26 ↔ opcodeField w = op := by
  have hmask : 0xFC000000#32 = BitVec.allOnes 6 ++ 0#26 := rfl
  have hand : w &&& 0xFC000000#32 = opcodeField w ++ 0#26 := by
    rw [hmask]
    nth_rw 1 [← opcodeField_append w]
    rw [BitVec.and_append, BitVec.and_allOnes, BitVec.and_zero]
  rw [hand, BitVec.append_left_inj]

/-- The mask of an R-format row keeps the opcode and the function code. -/
theorem and_opcodeFunctMask (w : Word) (op f : BitVec 6) :
    w &&& 0xFC00003F#32 = op ++ 0#20 ++ f ↔ opcodeField w = op ∧ functField w = f := by
  have hmask : 0xFC00003F#32 = BitVec.allOnes 6 ++ 0#20 ++ BitVec.allOnes 6 := rfl
  have hand : w &&& 0xFC00003F#32 = opcodeField w ++ 0#20 ++ functField w := by
    rw [hmask]
    nth_rw 1 [← opcodeField_append_functField w]
    rw [BitVec.and_append, BitVec.and_append, BitVec.and_allOnes, BitVec.and_zero, BitVec.and_allOnes]
  rw [hand, append_eq_append_iff, BitVec.append_left_inj]

/-- Each row of the opcode map as a condition on the code fields. spec/30_encoding.md R80. -/
theorem forall_opcodeMap_iff (w : Word) (P : Kind → Prop → Prop) :
    (∀ r ∈ opcodeMap, P r.kind (r.matchesWord w = true)) ↔
      P .add (opcodeField w = 0x00#6 ∧ functField w = 0x20#6) ∧ P .sub (opcodeField w = 0x00#6 ∧ functField w = 0x22#6) ∧
      P .addi (opcodeField w = 0x08#6) ∧ P .lw (opcodeField w = 0x23#6) ∧ P .sw (opcodeField w = 0x2B#6) ∧
      P .beq (opcodeField w = 0x04#6) := by
  simp only [← and_opcodeFunctMask]
  simp only [← and_opcodeMask]
  simp [opcodeMap, OpcodeRow.matchesWord]

/-! ### The decoder as a relation -/

/-- The case of the decoder's chain that the code fields of a word pick, with the operands it reads. -/
inductive DecodesTo (w : Word) : Instr → Prop where
  | add (hop : opcodeField w = 0x00#6) (hfunct : functField w = 0x20#6) :
      DecodesTo w (.add (rdField w) (rsField w) (rtField w) (shamtField w))
  | sub (hop : opcodeField w = 0x00#6) (hfunct : functField w = 0x22#6) :
      DecodesTo w (.sub (rdField w) (rsField w) (rtField w) (shamtField w))
  | addi (hop : opcodeField w = 0x08#6) : DecodesTo w (.addi (rtField w) (rsField w) (immField w))
  | lw (hop : opcodeField w = 0x23#6) : DecodesTo w (.lw (rtField w) (rsField w) (immField w))
  | sw (hop : opcodeField w = 0x2B#6) : DecodesTo w (.sw (rtField w) (rsField w) (immField w))
  | beq (hop : opcodeField w = 0x04#6) : DecodesTo w (.beq (rtField w) (rsField w) (immField w))
  | unknown (hadd : ¬(opcodeField w = 0x00#6 ∧ functField w = 0x20#6))
      (hsub : ¬(opcodeField w = 0x00#6 ∧ functField w = 0x22#6)) (haddi : opcodeField w ≠ 0x08#6)
      (hlw : opcodeField w ≠ 0x23#6) (hsw : opcodeField w ≠ 0x2B#6) (hbeq : opcodeField w ≠ 0x04#6) : DecodesTo w .unknown

/-- The relation holds of what the decoder answers. -/
theorem decodesTo_decode (w : Word) : DecodesTo w (decode w) := by
  rw [decode_eq]
  split_ifs with hadd hsub haddi hlw hsw hbeq
  · exact .add hadd.1 hadd.2
  · exact .sub hsub.1 hsub.2
  · exact .addi haddi
  · exact .lw hlw
  · exact .sw hsw
  · exact .beq hbeq
  · exact .unknown hadd hsub haddi hlw hsw hbeq

namespace DecodesTo

variable {w : Word} {i : Instr}

theorem wellFormed (h : DecodesTo w i) : i.wellFormed = true := by
  cases h with
  | add | sub | unknown => rfl
  | addi | lw | sw | beq => exact immInRange_immField w

/-- Encoding gives the word back, but for the words that are no instruction's. -/
theorem encode_eq (h : DecodesTo w i) (hi : i ≠ .unknown) : encode i = w := by
  cases h with
  | add hop hfunct | sub hop hfunct => rw [encode, ← hfunct, rWord_fields hop]
  | addi hop | lw hop | sw hop | beq hop => rw [encode, ← hop, iWord_fields]
  | unknown => exact absurd rfl hi

/-- The row of the opcode map that holds a word is the row of the instruction's kind. spec/30_encoding.md R80. -/
theorem matchesWord_iff (h : DecodesTo w i) : ∀ r ∈ opcodeMap, r.matchesWord w = true ↔ kindOf i = r.kind := by
  refine (forall_opcodeMap_iff w fun kind held => held ↔ kindOf i = kind).2 ?_
  cases h with
  | add hop hfunct | sub hop hfunct => simp [hop, hfunct, kindOf]
  | addi hop | lw hop | sw hop | beq hop => simp [hop, kindOf]
  | unknown hadd hsub haddi hlw hsw hbeq => simp [hadd, hsub, haddi, hlw, hsw, hbeq, kindOf]

end DecodesTo

/-- The kinds of the rows are all the kinds but `Unknown`. -/
theorem exists_row_kindOf_iff (i : Instr) : (∃ r ∈ opcodeMap, kindOf i = r.kind) ↔ i ≠ .unknown := by
  cases i <;> simp [opcodeMap, kindOf]

/-- A row holds a word exactly where it decodes to an instruction other than `Unknown`. spec/30_encoding.md R80, R84. -/
theorem matchesSomeRow_iff (w : Word) : matchesSomeRow w = true ↔ decode w ≠ .unknown := by
  rw [← exists_row_kindOf_iff, matchesSomeRow, List.any_eq_true]
  exact exists_congr fun r => and_congr_right ((decodesTo_decode w).matchesWord_iff r)

/-! ### The obligations about words -/

/-- Settles O13: each word is evaluated. -/
theorem sampleWordsDecode : Obligations.SampleWordsDecode := by
  unfold Obligations.SampleWordsDecode
  decide

/-- Settles O14: one word of the image's round trip. -/
theorem decodeInvertsEncode : Obligations.DecodeInvertsEncode := fun _ h => decode_encode h

/-- Settles O15: a word on a row comes back from its instruction, and `Unknown` encodes to 0 whatever word it was. -/
theorem encodeInvertsDecodeExactlyOnRows : Obligations.EncodeInvertsDecodeExactlyOnRows := by
  intro w
  rw [matchesSomeRow_iff]
  by_cases h : decode w = .unknown
  · simp [h, encode, eq_comm (a := 0#32)]
  · exact iff_of_true ((decodesTo_decode w).encode_eq h) (.inl h)

/-- Settles O16. -/
theorem decodeFollowsTheOpcodeMap : Obligations.DecodeFollowsTheOpcodeMap := by
  intro w
  refine ⟨(decodesTo_decode w).wellFormed, fun r hr => ((decodesTo_decode w).matchesWord_iff r hr).1, fun hnone => ?_⟩
  by_contra h
  simp [(matchesSomeRow_iff w).2 h] at hnone

/-! ### The tagged variant -/

/-- A 5-bit field meets its range by its type. spec/30_encoding.md R72. -/
@[simp] theorem regInRange_toNat (r : RegIx) : regInRange r.toNat = true := decide_eq_true r.isLt

/-- The range checks of the variant are those of the instruction it stands for. spec/30_encoding.md R72. -/
theorem wellFormed_toVariant (i : Instr) : (toVariant i).wellFormed = i.wellFormed := by
  cases i with
  | add rd rs rt sh | sub rd rs rt sh => simp [toVariant, Variant.wellFormed, Instr.wellFormed, sh.isLt]
  | addi | lw | sw | beq => simp [toVariant, Variant.wellFormed, Instr.wellFormed]
  | unknown => rfl

theorem ofVariant_toVariant {i : Instr} (h : i.wellFormed = true) : ofVariant (toVariant i) = some i := by
  have hv : (toVariant i).wellFormed = true := (wellFormed_toVariant i).trans h
  unfold ofVariant
  rw [if_pos hv]
  cases i with
  | add | sub => simp [toVariant, rTypeInstr]
  | addi | lw | sw | beq => simp [toVariant, iTypeInstr]
  | unknown => rfl

theorem ofVariant_of_not_wellFormed {v : Variant} (h : v.wellFormed = false) : ofVariant v = none := by
  simp [ofVariant, h]

/-- A variant in range is the variant of the instruction read from it. -/
theorem exists_toVariant_eq {v : Variant} (h : v.wellFormed = true) : ∃ i, toVariant i = v := by
  cases v with
  | rType f sh rd rb ra =>
    simp only [Variant.wellFormed, regInRange, Bool.and_eq_true, Bool.or_eq_true, beq_iff_eq, decide_eq_true_eq] at h
    obtain ⟨⟨⟨⟨rfl | rfl, hsh⟩, hrd⟩, hrb⟩, hra⟩ := h
    · exact ⟨.add (.ofNat 5 rd) (.ofNat 5 ra) (.ofNat 5 rb) (.ofNat 5 sh), by
        simp [toVariant, Nat.mod_eq_of_lt, *]⟩
    · exact ⟨.sub (.ofNat 5 rd) (.ofNat 5 ra) (.ofNat 5 rb) (.ofNat 5 sh), by
        simp [toVariant, Nat.mod_eq_of_lt, *]⟩
  | iType op rs rt imm =>
    simp only [Variant.wellFormed, regInRange, Bool.and_eq_true, Bool.or_eq_true, beq_iff_eq, decide_eq_true_eq] at h
    obtain ⟨⟨⟨hop, hrs⟩, hrt⟩, -⟩ := h
    obtain ((rfl | rfl) | rfl) | rfl := hop
    · exact ⟨.addi (.ofNat 5 rt) (.ofNat 5 rs) imm, by simp [toVariant, Nat.mod_eq_of_lt, *]⟩
    · exact ⟨.lw (.ofNat 5 rt) (.ofNat 5 rs) imm, by simp [toVariant, Nat.mod_eq_of_lt, *]⟩
    · exact ⟨.sw (.ofNat 5 rt) (.ofNat 5 rs) imm, by simp [toVariant, Nat.mod_eq_of_lt, *]⟩
    · exact ⟨.beq (.ofNat 5 rt) (.ofNat 5 rs) imm, by simp [toVariant, Nat.mod_eq_of_lt, *]⟩
  | unknown => exact ⟨.unknown, rfl⟩

/-- Settles O18. -/
theorem variantsInRangeAreTheInstructions : Obligations.VariantsInRangeAreTheInstructions := by
  refine ⟨fun i hi => ⟨(wellFormed_toVariant i).trans hi, ofVariant_toVariant hi⟩, fun v hv => ?_,
    fun v hv => ofVariant_of_not_wellFormed hv⟩
  obtain ⟨i, rfl⟩ := exists_toVariant_eq hv
  rw [wellFormed_toVariant] at hv
  exact ⟨i, hv, ofVariant_toVariant hv, rfl⟩

end Sys2Proof.Machine

/-! The encoding family, texts (spec/30_encoding.md section 6): O53 to O57. What each parser can answer is said once; every
instruction the encoder pushes is one it can write, leading labels are one update of the symbol table, and a label name is read as
a name wherever a branch target may stand. -/

namespace Sys2Proof.Machine

/-! ### The values the operand parsers accept (spec/30_encoding.md R109) -/

theorem bind_eq_ok {ε α β : Type} {x : Except ε α} {f : α → Except ε β} {b : β} :
    (x >>= f) = .ok b ↔ ∃ a, x = .ok a ∧ f a = .ok b := by
  cases x with
  | ok a => exact ⟨fun h => ⟨a, rfl, h⟩, fun ⟨_, ha, h⟩ => Except.ok.inj ha ▸ h⟩
  | error e => exact ⟨nofun, nofun⟩

theorem immInRange_iff {v : Int} : immInRange v = true ↔ -32768 ≤ v ∧ v ≤ 32767 := decide_eq_true_iff

theorem checkImm_eq_ok {v w : Int} : checkImm v = .ok w ↔ immInRange v = true ∧ v = w := by
  unfold checkImm
  split <;> simp [*]

theorem immInRange_of_checkImm {v w : Int} (h : checkImm v = .ok w) : immInRange w = true := by
  obtain ⟨hv, rfl⟩ := checkImm_eq_ok.1 h
  exact hv

theorem immInRange_of_parseImmediate {t : List Char} {v : Int} (h : parseImmediate t = .ok v) : immInRange v = true := by
  unfold parseImmediate at h
  split at h
  · split at h
    · exact immInRange_of_checkImm h
    · split at h <;> cases h
  · cases h

theorem immInRange_of_parseBranchTarget {p : EncoderParams} {sym : SymbolTable} {current : Nat} {t : List Char} {v : Int}
    (h : parseBranchTarget p sym current t = .ok v) : immInRange v = true := by
  unfold parseBranchTarget at h
  split at h
  · split at h
    · exact immInRange_of_checkImm h
    · split at h
      · obtain ⟨a, -, ha⟩ := bind_eq_ok.1 h
        exact immInRange_of_checkImm ha
      · cases h
  · cases h

theorem immInRange_of_parseMemory {t : List Char} {m : Int × RegIx} (h : parseMemory t = .ok m) :
    immInRange m.1 = true := by
  unfold parseMemory at h
  dsimp only at h
  split at h
  · split at h
    · obtain ⟨r, -, h⟩ := bind_eq_ok.1 h
      obtain ⟨v, hv, h⟩ := bind_eq_ok.1 h
      cases h
      exact immInRange_of_checkImm hv
    · cases h
  · cases h

/-! ### The instructions the encoder writes (spec/30_encoding.md R102 to R106) -/

/-- The shift amount an instruction carries, 0 for a form that has none. spec/30_encoding.md R82. -/
def shiftAmountOf : Instr → ShAmt
  | .add _ _ _ sh => sh
  | .sub _ _ _ sh => sh
  | _ => 0#5

/-- The instructions the encoder can write: in range (R72), with no shift amount but 0 (R102). -/
structure Writable (i : Instr) : Prop where
  wellFormed : i.wellFormed = true
  shiftZero : shiftAmountOf i = 0#5

theorem parseThreeRegisters_ok {mk : RegIx → RegIx → RegIx → Instr} {a b c : List Char} {i : Instr}
    (h : parseThreeRegisters mk a b c = .ok i) : ∃ rd rs rt, i = mk rd rs rt := by
  obtain ⟨rd, -, h⟩ := bind_eq_ok.1 h
  obtain ⟨rs, -, h⟩ := bind_eq_ok.1 h
  obtain ⟨rt, -, h⟩ := bind_eq_ok.1 h
  exact ⟨rd, rs, rt, (Except.ok.inj h).symm⟩

theorem parseLoadStore_ok {mk : RegIx → RegIx → Int → Instr} {a b : List Char} {i : Instr}
    (h : parseLoadStore mk a b = .ok i) : ∃ rt rs off, immInRange off = true ∧ i = mk rt rs off := by
  obtain ⟨rt, -, h⟩ := bind_eq_ok.1 h
  obtain ⟨m, hm, h⟩ := bind_eq_ok.1 h
  exact ⟨rt, m.2, m.1, immInRange_of_parseMemory hm, (Except.ok.inj h).symm⟩

theorem parseTwoRegistersAnd_ok {mk : RegIx → RegIx → Int → Instr} {parse : List Char → Except RefusalReason Int}
    {a b c : List Char} {i : Instr} (hparse : ∀ v, parse c = .ok v → immInRange v = true)
    (h : parseTwoRegistersAnd mk parse a b c = .ok i) : ∃ rt rs v, immInRange v = true ∧ i = mk rt rs v := by
  obtain ⟨rt, -, h⟩ := bind_eq_ok.1 h
  obtain ⟨rs, -, h⟩ := bind_eq_ok.1 h
  obtain ⟨v, hv, h⟩ := bind_eq_ok.1 h
  exact ⟨rt, rs, v, hparse v hv, (Except.ok.inj h).symm⟩

theorem writable_of_parseInstr {p : EncoderParams} {sym : SymbolTable} {current : Nat} {kind : Kind}
    {ops : List (List Char)} {i : Instr} (h : parseInstr p sym current kind ops = .ok i) : Writable i := by
  unfold parseInstr at h
  split at h
  case h_1 | h_2 =>
    obtain ⟨rd, rs, rt, rfl⟩ := parseThreeRegisters_ok h
    exact ⟨rfl, rfl⟩
  case h_3 =>
    obtain ⟨rt, rs, v, hv, rfl⟩ := parseTwoRegistersAnd_ok (fun _ => immInRange_of_parseImmediate) h
    exact ⟨hv, rfl⟩
  case h_4 | h_5 =>
    obtain ⟨rt, rs, off, hoff, rfl⟩ := parseLoadStore_ok h
    exact ⟨hoff, rfl⟩
  case h_6 =>
    obtain ⟨rt, rs, v, hv, rfl⟩ := parseTwoRegistersAnd_ok (fun _ => immInRange_of_parseBranchTarget) h
    exact ⟨hv, rfl⟩
  case h_7 => cases h

/-! ### The store of an accepted text -/

/-- Every instruction pushed so far is one the encoder can write. -/
def EncoderState.Sound (st : EncoderState) : Prop := ∀ i ∈ st.IS, Writable i

theorem EncoderState.push_eq_ok {p : EncoderParams} {i : Instr} {st st' : EncoderState} :
    st.push p i = .ok st' ↔ addressesFit p (st.IS.length + 1) = true ∧ { st with IS := st.IS ++ [i] } = st' := by
  unfold EncoderState.push
  split <;> simp [*]

theorem EncoderState.Sound.after_push {p : EncoderParams} {i : Instr} {st st' : EncoderState} (h : st.Sound) (hi : Writable i)
    (hpush : st.push p i = .ok st') : st'.Sound := by
  obtain ⟨-, rfl⟩ := push_eq_ok.1 hpush
  intro j hj
  obtain hj | hj := List.mem_append.1 hj
  · exact h j hj
  · exact List.mem_singleton.1 hj ▸ hi

/-- The rest of a line pushes nothing or one instruction the encoder can write. -/
theorem encodeRest_ok {p : EncoderParams} {st st' : EncoderState} {toks : List (List Char)}
    (h : encodeRest p st toks = .ok st') : st = st' ∨ ∃ i, Writable i ∧ st.push p i = .ok st' := by
  cases toks with
  | nil => exact .inl (Except.ok.inj h)
  | cons m ops =>
    right
    simp only [encodeRest] at h
    split at h
    · exact ⟨.unknown, ⟨rfl, rfl⟩, h⟩
    · split at h
      · cases h
      · split at h
        · cases h
        · obtain ⟨i, hi, hpush⟩ := bind_eq_ok.1 h
          exact ⟨i, writable_of_parseInstr hi, hpush⟩

/-- A line that starts with a label definition defines it, if its name is one, and goes on behind it. -/
theorem encodeTokens_cons_label (p : EncoderParams) (st : EncoderState) {t : List Char} (ts : List (List Char))
    (ht : endsWithColon t = true) : encodeTokens p st (t :: ts) =
      if isLabelName t.dropLast then encodeTokens p (st.define p t.dropLast) ts else .error .badLabelName := by
  rw [encodeTokens, if_pos ht]

/-- A line that starts with another token is the rest of a line. -/
theorem encodeTokens_cons_other (p : EncoderParams) (st : EncoderState) {t : List Char} (ts : List (List Char))
    (ht : endsWithColon t = false) : encodeTokens p st (t :: ts) = encodeRest p st (t :: ts) := by
  rw [encodeTokens, if_neg (by simp [ht])]

theorem EncoderState.Sound.after_tokens {p : EncoderParams} {toks : List (List Char)} {st st' : EncoderState}
    (h : st.Sound) (hok : encodeTokens p st toks = .ok st') : st'.Sound := by
  induction toks generalizing st with
  | nil => exact Except.ok.inj hok ▸ h
  | cons t ts ih =>
    cases ht : endsWithColon t with
    | true =>
      rw [encodeTokens_cons_label p st ts ht] at hok
      split at hok
      · exact ih (st := st.define p t.dropLast) h hok
      · cases hok
    | false =>
      rw [encodeTokens_cons_other p st ts ht] at hok
      obtain rfl | ⟨i, hi, hpush⟩ := encodeRest_ok hok
      · exact h
      · exact h.after_push hi hpush

theorem EncoderState.Sound.after_lines {p : EncoderParams} {lines : List (List Char)} {n : Nat} {st st' : EncoderState}
    (h : st.Sound) (hok : encodeLines p n st lines = .ok st') : st'.Sound := by
  induction lines generalizing n st with
  | nil => exact Except.ok.inj hok ▸ h
  | cons l ls ih =>
    unfold encodeLines at hok
    split at hok
    case h_1 hl => exact ih (h.after_tokens hl) hok
    case h_2 => cases hok

theorem assemble_eq_ok {p : EncoderParams} {text : List Char} {prog : List Instr} (h : assemble p text = .ok prog) :
    ∃ st, encodeLines p 1 ⟨[], []⟩ (linesOf text) = .ok st ∧ addressesFit p st.IS.length = true ∧ st.IS = prog := by
  unfold assemble at h
  split at h
  case h_1 st hst =>
    split at h
    · exact ⟨st, hst, ‹_›, Except.ok.inj h⟩
    · cases h
  case h_2 => cases h

/-- Settles O53: the store of an accepted text is sound, since it starts empty, and its addresses are checked at its end. -/
theorem acceptedProgramsAreWellFormed : Obligations.AcceptedProgramsAreWellFormed := by
  intro p text prog h
  obtain ⟨st, hst, hfit, rfl⟩ := assemble_eq_ok h
  have hempty : EncoderState.Sound ⟨[], []⟩ := nofun
  have hsound : st.Sound := hempty.after_lines hst
  refine ⟨List.all_eq_true.2 fun i hi => (hsound i hi).wellFormed, of_decide_eq_true hfit, fun rd rs rt sh hi => ?_⟩
  obtain hi | hi := hi
  · exact (hsound _ hi).shiftZero
  · exact (hsound _ hi).shiftZero

/-! ### Leading label definitions (spec/30_encoding.md R94, R95) -/

/-- The symbol table with the labels of the tokens defined in order at one address. -/
def defineAt (a : Nat) (labels : List (List Char)) (sym : SymbolTable) : SymbolTable :=
  labels.foldl (fun sym t => (t.dropLast, a) :: sym) sym

/-- Leading label definitions change the symbol table and nothing else, since no push stands between them. -/
theorem encodeTokens_labels_append (p : EncoderParams) (st : EncoderState) {labels : List (List Char)}
    (rest : List (List Char)) (h : ∀ t ∈ labels, endsWithColon t = true ∧ isLabelName t.dropLast = true) :
    encodeTokens p st (labels ++ rest) = encodeTokens p ⟨st.IS, defineAt (st.address p) labels st.sym⟩ rest := by
  induction labels generalizing st with
  | nil => rfl
  | cons t ts ih =>
    obtain ⟨⟨hcolon, hname⟩, hts⟩ := List.forall_mem_cons.1 h
    rw [List.cons_append, encodeTokens_cons_label p st _ hcolon, if_pos hname, ih _ hts]
    rfl

/-- A token that ends with a colon is its name and the colon. -/
theorem eq_append_colon_iff {t : List Char} (ht : endsWithColon t = true) (name : List Char) :
    name ++ [':'] = t ↔ name = t.dropLast := by
  obtain ⟨u, rfl⟩ := List.getLast?_eq_some_iff.1 (eq_of_beq ht)
  simp

/-- The labels defined have the address, and every other label stays. -/
theorem lookup_defineAt (a : Nat) {labels : List (List Char)} (sym : SymbolTable) (name : List Char)
    (h : ∀ t ∈ labels, endsWithColon t = true) :
    (defineAt a labels sym).lookup name = if name ++ [':'] ∈ labels then some a else sym.lookup name := by
  induction labels generalizing sym with
  | nil => rfl
  | cons t ts ih =>
    obtain ⟨ht, hts⟩ := List.forall_mem_cons.1 h
    have hstep : defineAt a (t :: ts) sym = defineAt a ts ((t.dropLast, a) :: sym) := rfl
    rw [hstep, ih _ hts]
    by_cases hname : name = t.dropLast
    · simp [hname, (eq_append_colon_iff ht _).2]
    · have hne : name ++ [':'] ≠ t := fun h => hname ((eq_append_colon_iff ht name).1 h)
      simp [hne, List.lookup_cons, beq_eq_false_iff_ne.2 hname]

/-- The symbol table behind leading labels, as the statements about lines read it. -/
theorem lookup_defineAt_labels (a : Nat) {labels : List (List Char)} (sym : SymbolTable)
    (h : ∀ t ∈ labels, endsWithColon t = true ∧ isLabelName t.dropLast = true) :
    (∀ t ∈ labels, (defineAt a labels sym).lookup t.dropLast = some a) ∧
    ∀ name, name ++ [':'] ∉ labels → (defineAt a labels sym).lookup name = sym.lookup name := by
  have hcolon : ∀ t ∈ labels, endsWithColon t = true := fun t ht => (h t ht).1
  refine ⟨fun t ht => ?_, fun name hname => ?_⟩
  · have hname : t.dropLast ++ [':'] = t := (eq_append_colon_iff (hcolon t ht) _).2 rfl
    rw [lookup_defineAt a sym _ hcolon, hname, if_pos ht]
  · rw [lookup_defineAt a sym _ hcolon, if_neg hname]

/-- Settles O54: the line is leading labels with nothing behind them. -/
theorem labelLinesPushNothing : Obligations.LabelLinesPushNothing := by
  intro p st line h
  refine ⟨defineAt (st.address p) (tokensOf line) st.sym, ?_, lookup_defineAt_labels _ st.sym h⟩
  have hline := encodeTokens_labels_append p st [] h
  rwa [List.append_nil] at hline

/-- Settles O55: behind the leading labels, a token that names no form pushes `Unknown`. -/
theorem unknownMnemonicPushesUnknown : Obligations.UnknownMnemonicPushesUnknown := by
  intro p st line m labels rest hline hlabels hcolon hkind hfit
  refine ⟨defineAt (st.address p) labels st.sym, ?_, lookup_defineAt_labels _ st.sym hlabels⟩
  rw [encodeLine, hline, encodeTokens_labels_append p st _ hlabels, encodeTokens_cons_other p _ rest hcolon, encodeRest, hkind]
  exact EncoderState.push_eq_ok.2 ⟨decide_eq_true hfit, rfl⟩

/-! ### Branch targets by label (spec/30_encoding.md R101, R107, R108) -/

/-- A character of a label name is none of the characters that mark another class of token. -/
theorem isNameChar_ne {c : Char} (h : isNameChar c = true) : c ≠ ':' ∧ c ≠ '(' ∧ c ≠ '$' := by
  refine ⟨?_, ?_, ?_⟩ <;> rintro rfl <;> exact absurd h (by decide)

/-- The first character of a label name starts no numeric literal: no sign and no digit. -/
theorem isNameStart_ne {c : Char} (h : isNameStart c = true) : c ≠ '+' ∧ c ≠ '-' ∧ c ≠ '0' ∧ decDigit c = none := by
  have hdigit : ¬('0' ≤ c ∧ c ≤ '9') := by
    simp only [isNameStart, Bool.or_eq_true, decide_eq_true_eq, beq_iff_eq] at h
    obtain ((⟨hA, -⟩ | ⟨ha, -⟩) | rfl) | rfl := h
    · exact fun hd => absurd (hA.trans hd.2) (by decide)
    · exact fun hd => absurd (ha.trans hd.2) (by decide)
    · decide
    · decide
  refine ⟨?_, ?_, ?_, if_neg hdigit⟩ <;> rintro rfl <;> exact absurd h (by decide)

/-- Every character of a label name is a name character. -/
theorem isNameChar_of_mem {t : List Char} (ht : isLabelName t = true) {c : Char} (hc : c ∈ t) : isNameChar c = true := by
  cases t with
  | nil => cases hc
  | cons d ds =>
    obtain ⟨hd, hds⟩ := Bool.and_eq_true_iff.1 ht
    obtain rfl | hc := List.mem_cons.1 hc
    · simp [isNameChar, hd]
    · exact List.all_eq_true.1 hds c hc

theorem classify_labelName {t : List Char} (ht : isLabelName t = true) : classify false t = .bareLiteral := by
  have hne : ∀ c ∈ t, c ≠ ':' ∧ c ≠ '(' ∧ c ≠ '$' := fun c hc => isNameChar_ne (isNameChar_of_mem ht hc)
  have hcolon : endsWithColon t = false := by
    simp only [endsWithColon, beq_eq_false_iff_ne]
    exact fun h => (hne _ (List.mem_of_getLast? h)).1 rfl
  have hparen : '(' ∉ t := fun h => (hne _ h).2.1 rfl
  have hdollar : '$' ∉ t := fun h => (hne _ h).2.2 rfl
  simp [classify, hcolon, hparen, hdollar]

theorem numericLiteral_labelName {t : List Char} (ht : isLabelName t = true) : numericLiteral t = none := by
  cases t with
  | nil => cases ht
  | cons c cs =>
    obtain ⟨hplus, hminus, hzero, hdigit⟩ := isNameStart_ne (Bool.and_eq_true_iff.1 ht).1
    simp [numericLiteral, unsignedLiteral, digits, digitsFrom, *]

/-- A label as a branch target. spec/30_encoding.md R107. -/
theorem parseBranchTarget_labelName (p : EncoderParams) (sym : SymbolTable) (current : Nat) {t : List Char}
    (ht : isLabelName t = true) : parseBranchTarget p sym current t =
      (labelAddress p sym t >>= fun a => checkImm ((current : Int) - (a : Int))) := by
  simp only [parseBranchTarget, classify_labelName ht, numericLiteral_labelName ht, ht, if_true]

/-- An undefined label under `Zero` has address 0. spec/30_encoding.md R108. -/
theorem parseBranchTarget_undefined {p : EncoderParams} {sym : SymbolTable} (current : Nat) {t : List Char}
    (ht : isLabelName t = true) (hlookup : sym.lookup t = none) (hzero : p.undefinedLabel = .zero) :
    parseBranchTarget p sym current t = checkImm current := by
  have haddress : labelAddress p sym t = .ok 0 := by rw [labelAddress, hlookup, hzero]
  rw [parseBranchTarget_labelName p sym current ht, haddress]
  exact congrArg checkImm (Int.sub_zero _)

/-- The target of a displacement counted back from entry `k`. spec/43_branch.md R211. -/
theorem branchTarget_sub {n k j : Nat} (hj : j ≤ n) : branchTarget n k (4 * (k : Int) - 4 * (j : Int)) = some j := by
  have haligned : (4 * (k : Int) - 4 * (j : Int)) % 4 = 0 := by omega
  have htarget : (k : Int) - (4 * (k : Int) - 4 * (j : Int)) / 4 = j := by omega
  simp [branchTarget, haligned, htarget, hj]

/-- Settles O56. -/
theorem branchToAnEarlierLabelLandsOnIt : Obligations.BranchToAnEarlierLabelLandsOnIt := by
  intro p sym name n k j disp hname hlookup hj h
  rw [parseBranchTarget_labelName p sym _ hname, labelAddress, hlookup] at h
  obtain ⟨-, hdisp⟩ := checkImm_eq_ok.1 h
  have hdiff : disp = 4 * (k : Int) - 4 * (j : Int) := by omega
  exact ⟨hdiff, hdiff ▸ branchTarget_sub hj⟩

/-- Settles O57: the policy gives the label the address 0 or refuses it, and entry 0 is 4k bytes back from entry k. -/
theorem undefinedLabelFollowsThePolicy : Obligations.UndefinedLabelFollowsThePolicy := by
  intro p sym name current hname hlookup
  refine ⟨fun hzero hle => ?_, fun hzero hlt => ?_, fun hrefuse => ?_, fun n k hk => ?_⟩
  · have hin : immInRange (current : Int) = true := immInRange_iff.2 ⟨by omega, by omega⟩
    rw [parseBranchTarget_undefined current hname hlookup hzero, checkImm, if_pos hin]
  · have hout : ¬immInRange (current : Int) = true := fun h => absurd (immInRange_iff.1 h).2 (by omega)
    rw [parseBranchTarget_undefined current hname hlookup hzero, checkImm, if_neg hout]
  · rw [parseBranchTarget_labelName p sym current hname, labelAddress, hlookup, hrefuse]
    rfl
  · have htarget := branchTarget_sub (n := n) (k := k) (Nat.zero_le n)
    simpa [hk] using htarget

end Sys2Proof.Machine

/-! The pipeline family (spec/40_pipeline.md), its layer, and O3, O8, O10, O19, O38, O39: what the Writeback and Memory steps
leave whether they raise or not, what the Decode and Fetch steps leave, everything a running step can do (`RunningStep`), the
hazard predicate in terms of entries, and runs by their last step. -/

namespace Sys2Proof.Machine

/-! ### The Writeback and Memory steps -/

/-- `u` is `s` with Execute and Memory promoted, but for what the Writeback and Memory steps may change beside that: registers,
data memory, `memResult`, the fault record and `servicing`. spec/40_pipeline.md R132, R134. -/
structure Promoted (s u : State) : Prop where
  cfg : u.cfg = s.cfg
  IS : u.IS = s.IS
  pc : u.pc = s.pc
  F : u.F = s.F
  D : u.D = s.D
  E : u.E = none
  M : u.M = s.E
  W : u.W = s.M
  exResult : u.exResult = s.exResult
  cycle : u.cycle = s.cycle

/-- The Writeback step raises nothing, so from a state without a fault the Memory step runs. -/
theorem olderSteps_next {s u : State} (hs : s.fault = none) :
    olderSteps s = .next u ↔ ∃ w, writebackStep s = .next w ∧ memoryStep w = .next u := by
  refine thenStep_next.trans (exists_congr fun w => and_congr_right fun hw => ?_)
  obtain ⟨-, -, -, -, -, hf⟩ := writebackStep_frame hw
  simp [hf, hs]

theorem promoted_of_olderSteps {s u : State} (hs : s.fault = none) (h : olderSteps s = .next u) : Promoted s u := by
  obtain ⟨w, hw, hm⟩ := (olderSteps_next hs).1 h
  have hw := writebackStep_keeps hw
  have hm := memoryStep_keeps hm
  simp only [State.mk.injEq] at hw hm
  constructor <;> simp [hw, hm]

theorem entry_of_slotInStore {s : State} {slot : Option Nat} (h : s.slotInStore slot) {k : Nat} (hk : slot = some k) :
    ∃ i, s.IS[k]? = some i :=
  ⟨_, List.getElem?_eq_getElem (h k hk)⟩

theorem writebackStep_exists {s : State} (h : s.slotInStore s.M) : ∃ w, writebackStep s = .next w := by
  cases hM : s.M with
  | none => exact ⟨_, writebackStep_next.2 (.inl ⟨hM, rfl⟩)⟩
  | some k =>
    obtain ⟨i, hi⟩ := entry_of_slotInStore h hM
    exact ⟨_, writebackStep_next.2 (.inr ⟨k, i, hM, hi, rfl⟩)⟩

theorem memoryStep_exists {s : State} (h : s.slotInStore s.E) : ∃ m, memoryStep s = .next m := by
  cases hE : s.E with
  | none => exact ⟨_, memoryStep_next.2 (.inl ⟨hE, rfl⟩)⟩
  | some k =>
    obtain ⟨i, hi⟩ := entry_of_slotInStore h hE
    exact ⟨_, memoryStep_next.2 (.inr ⟨k, i, hE, hi, rfl⟩)⟩

theorem olderSteps_exists {s : State} (hs : s.Inv) (hf : s.fault = none) : ∃ u, olderSteps s = .next u := by
  obtain ⟨w, hw⟩ := writebackStep_exists hs.memoryInStore
  obtain ⟨-, hIS, -, hE, -⟩ := writebackStep_frame hw
  have hw' : w.slotInStore w.E := by
    rw [State.slotInStore, hIS, hE]
    exact hs.executeInStore
  obtain ⟨u, hu⟩ := memoryStep_exists hw'
  exact ⟨u, (olderSteps_next hf).2 ⟨w, hw, hu⟩⟩

/-! ### The Decode and Fetch steps -/

theorem decodeAdmits_iff (s : State) :
    s.decodeAdmits = true ↔ s.D = none ∧ s.F.isSome = true ∧ s.holdsBranch s.E = false := by
  simp only [State.decodeAdmits, Bool.and_eq_true, Bool.not_eq_true', Option.isNone_iff_eq_none]
  constructor
  · rintro ⟨⟨⟨hD, hF⟩, -⟩, hE⟩
    exact ⟨hD, hF, hE⟩
  · rintro ⟨hD, hF, hE⟩
    exact ⟨⟨⟨hD, hF⟩, by rw [hD]; rfl⟩, hE⟩

/-- The Decode step does nothing where Decode is occupied, Fetch empty, or a branch in Execute. spec/40_pipeline.md R144. -/
theorem decodeStep_blocked {s : State} (h : s.D ≠ none ∨ s.F = none ∨ s.holdsBranch s.E = true) : decodeStep s = s := by
  have hadm : s.decodeAdmits = false := by
    rw [← Bool.not_eq_true, decodeAdmits_iff]
    rintro ⟨hD, hF, hE⟩
    simp [hD, Option.isSome_iff_ne_none.1 hF, hE] at h
  rw [decodeStep, hadm]
  rfl

/-- `t` is `s` but for Fetch, Decode and the cursor. -/
structure FrontMoves (s t : State) : Prop where
  cfg : t.cfg = s.cfg
  IS : t.IS = s.IS
  x : t.x = s.x
  DM : t.DM = s.DM
  E : t.E = s.E
  M : t.M = s.M
  W : t.W = s.W
  exResult : t.exResult = s.exResult
  memResult : t.memResult = s.memResult
  cycle : t.cycle = s.cycle
  fault : t.fault = s.fault
  servicing : t.servicing = s.servicing

theorem FrontMoves.refl (s : State) : FrontMoves s s := by constructor <;> rfl

theorem frontMoves_decodeStep (s : State) : FrontMoves s (decodeStep s) := by
  rcases decodeStep_cases s with ⟨-, h⟩ | ⟨-, h⟩ <;> rw [h] <;> constructor <;> rfl

theorem frontMoves_fetchStep (s : State) : FrontMoves s (fetchStep s) := by
  rcases fetchStep_cases s with ⟨-, -, h⟩ | ⟨-, h⟩ <;> rw [h] <;> constructor <;> rfl

theorem fetchStep_D (s : State) : (fetchStep s).D = s.D := by
  rcases fetchStep_cases s with ⟨-, -, h⟩ | ⟨-, h⟩ <;> rw [h]

theorem FrontMoves.trans {s t u : State} (h : FrontMoves s t) (h' : FrontMoves t u) : FrontMoves s u where
  cfg := h'.cfg.trans h.cfg
  IS := h'.IS.trans h.IS
  x := h'.x.trans h.x
  DM := h'.DM.trans h.DM
  E := h'.E.trans h.E
  M := h'.M.trans h.M
  W := h'.W.trans h.W
  exResult := h'.exResult.trans h.exResult
  memResult := h'.memResult.trans h.memResult
  cycle := h'.cycle.trans h.cycle
  fault := h'.fault.trans h.fault
  servicing := h'.servicing.trans h.servicing

theorem frontMoves_younger (s : State) : FrontMoves s (fetchStep (decodeStep s)) :=
  (frontMoves_decodeStep s).trans (frontMoves_fetchStep _)

/-- With Decode empty and no branch in Execute the Decode step passes on what Fetch holds, if anything. -/
theorem decodeStep_of_empty {s : State} (hD : s.D = none) (hE : s.holdsBranch s.E = false) :
    decodeStep s = { s with D := s.F, F := none } := by
  cases hF : s.F with
  | none =>
    rw [decodeStep_blocked (.inr (.inl hF))]
    cases s
    cases hD
    cases hF
    rfl
  | some f => rw [decodeStep, if_pos ((decodeAdmits_iff s).2 ⟨hD, by simp [hF], hE⟩), hF]

theorem executeAction_E (i : Instr) (k : Nat) (s : State) : (executeAction i k s).E = s.E := by
  rcases executeAction_cases i k s with ⟨v, ha⟩ | ⟨v, t, -, -, ha⟩ | ⟨v, disp, -, ha⟩ <;> rw [ha] <;> rfl

/-! ### Everything a running step can do -/

/-- The ways a running step can go, `u` being what its Writeback and Memory steps left: the Memory step raised; Decode was
empty; its entry stalled; it entered Execute and raised; it entered Execute and did not. -/
inductive RunningStep (s : State) : State → Prop where
  | memoryRaises {u : State} (hu : olderSteps s = .next u) (hf : u.fault.isSome = true) : RunningStep s u.countCycle
  | decodeEmpty {u : State} (hu : olderSteps s = .next u) (hf : u.fault = none) (hD : u.D = none) :
      RunningStep s (fetchStep (decodeStep u)).countCycle
  | stalled {u : State} {k : Nat} {i : Instr} (hu : olderSteps s = .next u) (hf : u.fault = none) (hD : u.D = some k)
      (hi : u.IS[k]? = some i) (hz : u.hazard i = true) : RunningStep s (fetchStep u).countCycle
  | executeRaises {u e : State} {k : Nat} {i : Instr} (hu : olderSteps s = .next u) (hf : u.fault = none)
      (hD : u.D = some k) (hi : u.IS[k]? = some i) (hz : u.hazard i = false)
      (he : executeAction i k (u.admitToExecute k) = e) (hef : e.fault.isSome = true) :
      RunningStep s (e.setServicing none).countCycle
  | executed {u e : State} {k : Nat} {i : Instr} (hu : olderSteps s = .next u) (hf : u.fault = none)
      (hD : u.D = some k) (hi : u.IS[k]? = some i) (hz : u.hazard i = false)
      (he : executeAction i k (u.admitToExecute k) = e) (hef : e.fault = none) :
      RunningStep s (fetchStep (decodeStep (e.setServicing none))).countCycle

theorem cycle_eq_laterSteps {s t : State} :
    cycle s = .next t ↔ ∃ u v, olderSteps s = .next u ∧ laterSteps u = .next v ∧ t = v.countCycle := by
  cases hu : olderSteps s with
  | next u => simp [cycle_of_olderSteps hu, mapNext_next]
  | fault r => simp [cycle, hu, thenStep, mapNext]
  | refused r => simp [cycle, hu, thenStep, mapNext]

theorem laterSteps_raised {u : State} (h : u.fault.isSome = true) : laterSteps u = .next u := by
  simp [laterSteps, h]

theorem laterSteps_clear {u t : State} (h : u.fault = none) : laterSteps u = .next t ↔ ∃ e, executeStep u = .next e ∧
    ((e.fault.isSome = true ∧ t = e) ∨ (e.fault = none ∧ t = fetchStep (decodeStep e))) := by
  rw [laterSteps, thenStep_clear h, thenStep_next]
  simp only [youngerSteps, Host.Outcome.next.injEq, @eq_comm _ _ t]

theorem cycle_executeRaises {s u e : State} (hu : olderSteps s = .next u) (hf : u.fault = none)
    (he : executeStep u = .next e) (hef : e.fault.isSome = true) : cycle s = .next e.countCycle :=
  cycle_eq_laterSteps.2 ⟨u, e, hu, (laterSteps_clear hf).2 ⟨e, he, .inl ⟨hef, rfl⟩⟩, rfl⟩

theorem cycle_executeClear {s u e : State} (hu : olderSteps s = .next u) (hf : u.fault = none)
    (he : executeStep u = .next e) (hef : e.fault = none) : cycle s = .next (fetchStep (decodeStep e)).countCycle :=
  cycle_eq_laterSteps.2 ⟨u, _, hu, (laterSteps_clear hf).2 ⟨e, he, .inr ⟨hef, rfl⟩⟩, rfl⟩

theorem cycle_of_runningStep {s t : State} (h : RunningStep s t) : cycle s = .next t := by
  cases h with
  | memoryRaises hu hf => exact cycle_eq_laterSteps.2 ⟨_, _, hu, laterSteps_raised hf, rfl⟩
  | decodeEmpty hu hf hD => exact cycle_executeClear hu hf (executeStep_next.2 (.inl ⟨hD, rfl⟩)) hf
  | @stalled u k i hu hf hD hi hz =>
    have he : executeStep u = .next u := executeStep_next.2 (.inr ⟨k, i, hD, hi, .inl ⟨hz, rfl⟩⟩)
    rw [cycle_executeClear hu hf he hf, decodeStep_blocked (.inl (by simp [hD]))]
  | executeRaises hu hf hD hi hz he hef =>
    subst he
    exact cycle_executeRaises hu hf (executeStep_next.2 (.inr ⟨_, _, hD, hi, .inr ⟨hz, rfl⟩⟩)) hef
  | executed hu hf hD hi hz he hef =>
    subst he
    exact cycle_executeClear hu hf (executeStep_next.2 (.inr ⟨_, _, hD, hi, .inr ⟨hz, rfl⟩⟩)) hef

theorem runningStep_of_cycle {s t : State} (h : cycle s = .next t) : RunningStep s t := by
  obtain ⟨u, v, hu, hv, rfl⟩ := cycle_eq_laterSteps.1 h
  cases hf : u.fault with
  | some f =>
    have hf : u.fault.isSome = true := by simp [hf]
    cases (laterSteps_raised hf).symm.trans hv
    exact .memoryRaises hu hf
  | none =>
    obtain ⟨e, he, hev⟩ := (laterSteps_clear hf).1 hv
    rcases executeStep_next.1 he with ⟨hD, rfl⟩ | ⟨k, i, hD, hi, ⟨hz, rfl⟩ | ⟨hz, rfl⟩⟩
    · obtain ⟨hef, -⟩ | ⟨-, rfl⟩ := hev
      · simp [hf] at hef
      · exact .decodeEmpty hu hf hD
    · obtain ⟨hef, -⟩ | ⟨-, rfl⟩ := hev
      · simp [hf] at hef
      · rw [decodeStep_blocked (.inl (by simp [hD]))]
        exact .stalled hu hf hD hi hz
    · obtain ⟨hef, rfl⟩ | ⟨hef, rfl⟩ := hev
      · exact .executeRaises hu hf hD hi hz rfl hef
      · exact .executed hu hf hD hi hz rfl hef

theorem step_iff_runningStep {s t : State} (hr : s.running = true) : step s = .next t ↔ RunningStep s t := by
  rw [step_of_running hr]
  exact ⟨runningStep_of_cycle, cycle_of_runningStep⟩

/-! ### Drained, and the hazard predicate -/

theorem drained_iff (s : State) : s.drained = true ↔
    s.F = none ∧ s.D = none ∧ s.E = none ∧ s.M = none ∧ s.IS.length ≤ s.pc := by
  simp [State.drained, State.exhausted, and_assoc]

theorem not_drained_iff (s : State) : s.drained = false ↔
    s.F.isSome = true ∨ s.D.isSome = true ∨ s.E.isSome = true ∨ s.M.isSome = true ∨ s.pc < s.IS.length := by
  rw [← Bool.not_eq_true, drained_iff]
  simp only [not_and_or, Option.isSome_iff_ne_none, Ne, not_le]

/-- Settles O3. -/
theorem drainedTestsFourSlotsAndTheCursor : Obligations.DrainedTestsFourSlotsAndTheCursor := drained_iff

/-- The destination of the entry in a slot. spec/40_pipeline.md R139. -/
theorem slotDest_eq_some {s : State} {slot : Option Nat} {r : RegIx} :
    s.slotDest slot = some r ↔ ∃ k j, slot = some k ∧ s.IS[k]? = some j ∧ destOf j = some r := by
  cases slot with
  | none => simp [State.slotDest, State.slotInstr]
  | some k => simp [State.slotDest, State.slotInstr, Option.bind_eq_some_iff]

theorem hazard_iff (s : State) (i : Instr) : s.hazard i = true ↔
    ∃ r ∈ srcsOf i, s.slotDest s.M = some r ∨ (s.cfg.forwardingEnabled = false ∧ s.slotDest s.W = some r) := by
  simp [State.hazard]

/-- Settles O39. -/
theorem hazardPredicateAsStated : Obligations.HazardPredicateAsStated := by
  intro s i
  simp only [hazard_iff, slotDest_eq_some]

/-- Settles O38: the tables are evaluated form by form. -/
theorem hazardTablesAsStated : Obligations.HazardTablesAsStated := by
  intro rd rs rt sh v
  refine ⟨rfl, rfl, rfl, rfl, rfl, rfl, rfl, fun r => ?_⟩
  simp [srcsOf]

/-- A hazard is with an instruction in Memory or Writeback. -/
theorem occupied_of_hazard {u : State} {i : Instr} (hz : u.hazard i = true) : u.M ≠ none ∨ u.W ≠ none := by
  obtain ⟨r, -, hM | ⟨-, hW⟩⟩ := (hazard_iff u i).1 hz
  · obtain ⟨k, j, hk, -⟩ := slotDest_eq_some.1 hM
    exact .inl (by simp [hk])
  · obtain ⟨k, j, hk, -⟩ := slotDest_eq_some.1 hW
    exact .inr (by simp [hk])

/-! ### Runs and the count -/

theorem runsTo_one {s t : State} (h : step s = .next t) : runsTo 1 s t :=
  runsTo_succ.2 ⟨t, h, runsTo_zero.2 rfl⟩

theorem runsTo_add {m n : Nat} {s t u : State} (h : runsTo n s t) (h' : runsTo m t u) : runsTo (n + m) s u := by
  induction n generalizing s with
  | zero => rwa [Nat.zero_add, ← runsTo_zero.1 h]
  | succ n ih =>
    obtain ⟨v, hv, hrest⟩ := runsTo_succ.1 h
    rw [Nat.succ_add]
    exact runsTo_succ.2 ⟨v, hv, ih hrest⟩

/-- A run of one step more is a run, then a step. -/
theorem runsTo_succ_last {n : Nat} {s t : State} : runsTo (n + 1) s t ↔ ∃ u, runsTo n s u ∧ step u = .next t := by
  induction n generalizing s with
  | zero => simp [runsTo_succ, runsTo_zero]
  | succ n ih =>
    rw [runsTo_succ]
    simp only [ih, runsTo_succ (n := n)]
    constructor
    · rintro ⟨v, hv, u, hu, ht⟩
      exact ⟨u, ⟨v, hv, hu⟩, ht⟩
    · rintro ⟨u, ⟨v, hv, hu⟩, ht⟩
      exact ⟨v, hv, u, hu, ht⟩

/-- A running step counts one, raising or not. spec/40_pipeline.md R151. -/
theorem cycle_of_running {s t : State} (hr : s.running = true) (h : step s = .next t) : t.cycle = s.cycle + 1 := by
  have hs := ((running_iff s).1 hr).2
  obtain ⟨u, v, hu, hv, rfl⟩ := cycle_eq_laterSteps.1 (step_of_running hr ▸ h)
  rw [State.countCycle_cycle, (laterSteps_agrees hv).cycle, (promoted_of_olderSteps hs hu).cycle]

/-- Settles O10: while the block runs each step counts, and from then on each step answers its own state. -/
theorem everyCycleRunIsCounted : Obligations.EveryCycleRunIsCounted := by
  refine ⟨fun s t h => ?_, fun cfg prog n t h => ?_⟩
  · obtain ⟨hr, rfl⟩ | ⟨hr, -⟩ := step_next.1 h
    · simp [hr]
    · rw [if_pos hr, cycle_of_running hr h]
  · induction n generalizing t with
    | zero =>
      obtain rfl := runsTo_zero.1 h
      exact ⟨Nat.le_refl 0, fun _ => rfl, h⟩
    | succ n ih =>
      obtain ⟨u, hu, hut⟩ := runsTo_succ_last.1 h
      obtain ⟨hle, hcount, hrun⟩ := ih u hu
      obtain ⟨hr, rfl⟩ | ⟨hr, -⟩ := step_next.1 hut
      · exact ⟨by omega, fun hr' => by simp [hr] at hr', hrun⟩
      · have hc : t.cycle = n + 1 := by rw [cycle_of_running hr hut, hcount hr]
        exact ⟨by omega, fun _ => hc, hc ▸ h⟩

/-! ### What follows the Execute step -/

/-- A cycle that has not raised in its first three steps runs the other two and counts. -/
theorem step_of_executeStep {s u : State} (hr : s.running = true) (h : thenStep (olderSteps s) executeStep = .next u)
    (hu : u.fault = none) : step s = .next (fetchStep (decodeStep u)).countCycle := by
  rw [step_of_running hr, cycle, h, thenStep_clear hu]
  rfl

/-- Settles O19. -/
theorem decodeAndFetchChangeOnlyTheirSlotsAndTheCursor :
    Obligations.DecodeAndFetchChangeOnlyTheirSlotsAndTheCursor := by
  refine ⟨fun s => ⟨fun f hD hF hE => ?_, decodeStep_blocked, fun hF hpc => ?_, fun h => ?_⟩,
    fun s u => step_of_executeStep⟩
  · rw [decodeStep_of_empty hD hE, hF]
  · rcases fetchStep_cases s with ⟨-, -, h⟩ | ⟨hF' | hpc', -⟩
    · exact h
    · simp [hF] at hF'
    · omega
  · rcases fetchStep_cases s with ⟨hF, hpc, -⟩ | ⟨-, h'⟩
    · obtain hF' | hpc' := h
      · exact absurd hF hF'
      · omega
    · exact h'

/-! ### No step refuses -/

/-- Settles O8: every slot a stage step serves is in the store, so none of them refuses. -/
theorem stepAlwaysHasANextState : Obligations.StepAlwaysHasANextState := by
  intro s hs
  cases hr : s.running with
  | false => exact ⟨s, step_next.2 (.inl ⟨hr, rfl⟩)⟩
  | true =>
    have hsf := ((running_iff s).1 hr).2
    obtain ⟨u, hu⟩ := olderSteps_exists hs hsf
    have hp := promoted_of_olderSteps hsf hu
    suffices h : ∃ t, RunningStep s t from h.imp fun t => (step_iff_runningStep hr).2
    cases hf : u.fault with
    | some f => exact ⟨_, .memoryRaises hu (by simp [hf])⟩
    | none =>
      cases hD : u.D with
      | none => exact ⟨_, .decodeEmpty hu hf hD⟩
      | some k =>
        obtain ⟨i, hi⟩ := entry_of_slotInStore hs.decodeInStore (hp.D ▸ hD)
        have hi : u.IS[k]? = some i := hp.IS ▸ hi
        cases hz : u.hazard i with
        | true => exact ⟨_, .stalled hu hf hD hi hz⟩
        | false =>
          cases hef : (executeAction i k (u.admitToExecute k)).fault with
          | none => exact ⟨_, .executed hu hf hD hi hz rfl hef⟩
          | some f => exact ⟨_, .executeRaises hu hf hD hi hz rfl (by simp [hef])⟩

end Sys2Proof.Machine

/-! O51, O52: the pipeline refines SEQ (spec/40_pipeline.md R157, R160). SEQ is where the pipeline will be once the instructions
in Memory and Execute have run to their end (`State.settled`). The hazard predicate lets an instruction's Execute action commute
with the commit still due, so an admission is one iteration of SEQ, and any other cycle changes nothing SEQ can see but
brings the next admission nearer (`State.cyclesAhead`). Neither side reads the configuration of the other, which is O52. -/

namespace Sys2Proof.Machine

/-! ### The entry that is next in program order -/

/-- The entry behind Decode in program order: Fetch's, else the cursor's. -/
def State.behindDecode (s : State) : Nat := s.F.getD s.pc

theorem nextIndex_eq (s : State) : s.nextIndex = s.D.getD s.behindDecode := by
  cases hD : s.D <;> cases hF : s.F <;> simp [State.nextIndex, State.behindDecode, hD, hF]

theorem nextIndex_of_decode {s : State} {k : Nat} (h : s.D = some k) : s.nextIndex = k := by
  simp [nextIndex_eq, h]

theorem nextIndex_of_decodeEmpty {s : State} (h : s.D = none) : s.nextIndex = s.behindDecode := by
  simp [nextIndex_eq, h]

/-- Fetch and the cursor follow Decode in program order: an entry in Fetch is the one before the cursor, and the one behind an
entry in Decode. -/
structure State.InOrder (s : State) : Prop where
  fetch : ∀ f, s.F = some f → s.pc = f + 1
  decode : ∀ k, s.D = some k → s.behindDecode = k + 1

/-- The same Fetch, Decode and cursor. -/
structure SameFront (s t : State) : Prop where
  F : s.F = t.F
  D : s.D = t.D
  pc : s.pc = t.pc

namespace SameFront

variable {s t u : State}

theorem trans (h : SameFront s t) (h' : SameFront t u) : SameFront s u :=
  ⟨h.F.trans h'.F, h.D.trans h'.D, h.pc.trans h'.pc⟩

theorem nextIndex (h : SameFront s t) : s.nextIndex = t.nextIndex := by
  simp [nextIndex_eq, State.behindDecode, h.F, h.D, h.pc]

theorem inOrder (h : SameFront s t) (ht : t.InOrder) : s.InOrder where
  fetch := by rw [h.F, h.pc]; exact ht.fetch
  decode := by rw [h.D, State.behindDecode, h.F, h.pc]; exact ht.decode

theorem memoryAction (i : Instr) (k : Nat) (s : State) : SameFront (memoryAction i k s) s := by
  have h := memoryAction_keeps i k s
  exact ⟨(congrArg State.F h :), (congrArg State.D h :), (congrArg State.pc h :)⟩

theorem writebackAction (i : Instr) (k : Nat) (s : State) : SameFront (writebackAction i k s) s := by
  have h := writebackAction_keeps i k s
  exact ⟨(congrArg State.F h :), (congrArg State.D h :), (congrArg State.pc h :)⟩

theorem unlessFaulted {f : State → State} (h : SameFront (f s) s) : SameFront (unlessFaulted f s) s := by
  unfold Machine.unlessFaulted
  split
  · constructor <;> rfl
  · exact h

end SameFront

theorem Promoted.sameFront {s u : State} (h : Promoted s u) : SameFront u s := ⟨h.F, h.D, h.pc⟩

theorem nextIndex_decodeStep (s : State) : (decodeStep s).nextIndex = s.nextIndex := by
  rcases decodeStep_cases s with ⟨h, hd⟩ | ⟨-, hd⟩ <;> rw [hd]
  simp only [State.decodeAdmits, Bool.and_eq_true, Option.isNone_iff_eq_none, Option.isSome_iff_exists] at h
  obtain ⟨⟨⟨hD, f, hF⟩, -⟩, -⟩ := h
  simp [nextIndex_eq, State.behindDecode, hD, hF]

theorem nextIndex_fetchStep (s : State) : (fetchStep s).nextIndex = s.nextIndex := by
  rcases fetchStep_cases s with ⟨hF, -, hf⟩ | ⟨-, hf⟩ <;> rw [hf]
  simp [nextIndex_eq, State.behindDecode, hF]

theorem nextIndex_younger (s : State) : (fetchStep (decodeStep s)).nextIndex = s.nextIndex :=
  (nextIndex_fetchStep _).trans (nextIndex_decodeStep s)

namespace State.InOrder

variable {s t : State}

theorem decodeStep (h : s.InOrder) : (decodeStep s).InOrder := by
  rcases decodeStep_cases s with ⟨-, hd⟩ | ⟨-, hd⟩ <;> rw [hd]
  · exact ⟨nofun, h.fetch⟩
  · exact h

theorem fetchStep (h : s.InOrder) : (fetchStep s).InOrder := by
  rcases fetchStep_cases s with ⟨hF, -, hf⟩ | ⟨-, hf⟩ <;> rw [hf]
  · refine ⟨fun f hf => ?_, fun k hk => ?_⟩
    · cases hf
      rfl
    · simpa [State.behindDecode, hF] using h.decode k hk
  · exact h

/-- An admission empties Decode, and the action leaves Fetch and the cursor or flushes. -/
theorem executeStep (h : s.InOrder) (he : executeStep s = .next t) : t.InOrder := by
  rcases executeStep_next.1 he with ⟨-, rfl⟩ | ⟨k, i, -, -, ⟨-, rfl⟩ | ⟨-, rfl⟩⟩
  · exact h
  · exact h
  · rcases executeAction_cases i k (s.admitToExecute k) with ⟨v, ha⟩ | ⟨v, n, -, -, ha⟩ | ⟨v, disp, -, ha⟩ <;> rw [ha]
    · exact ⟨h.fetch, nofun⟩
    · exact ⟨nofun, nofun⟩
    · exact ⟨h.fetch, nofun⟩

theorem step (h : s.InOrder) (hst : step s = .next t) : t.InOrder := by
  rcases step_cases hst with rfl | ⟨w, m, u, hs, hw, hm, hu, rfl⟩
  · exact h
  · have hp := promoted_of_olderSteps hs ((olderSteps_next hs).2 ⟨w, hw, hm⟩)
    have hu := laterSteps_keeps (P := State.InOrder) (fun _ _ he hP => hP.executeStep he) (fun _ => .decodeStep)
      (fun _ => .fetchStep) hu (hp.sameFront.inOrder h)
    exact { hu with }

end State.InOrder

/-! ### States alike in all that an instruction's results depend on -/

/-- The kind of a recorded fault and the entry that raised it. spec/60_exceptions.md R241. -/
def State.cause (s : State) : Option (FaultKind × Nat) := s.fault.map fun f => (f.kind, f.index)

theorem cause_eq_none {s : State} : s.cause = none ↔ s.fault = none := by
  simp [State.cause]

theorem cause_raise (s : State) (kind : FaultKind) (k : Nat) (v : Int) : (s.raise kind k v).cause = some (kind, k) := by
  cases kind <;> rfl

/-- The same program, registers, data memory and stage results, and the same fault but for the rest of its record. -/
structure Alike (s t : State) : Prop where
  IS : s.IS = t.IS
  x : s.x = t.x
  DM : s.DM = t.DM
  exResult : s.exResult = t.exResult
  memResult : s.memResult = t.memResult
  cause : s.cause = t.cause

namespace Alike

variable {s t u : State}

theorem symm (h : Alike s t) : Alike t s := by
  constructor <;> simp [h.IS, h.x, h.DM, h.exResult, h.memResult, h.cause]

theorem trans (h : Alike s t) (h' : Alike t u) : Alike s u where
  IS := h.IS.trans h'.IS
  x := h.x.trans h'.x
  DM := h.DM.trans h'.DM
  exResult := h.exResult.trans h'.exResult
  memResult := h.memResult.trans h'.memResult
  cause := h.cause.trans h'.cause

theorem fault_eq_none (h : Alike s t) : s.fault = none ↔ t.fault = none := by
  rw [← cause_eq_none, ← cause_eq_none, h.cause]

theorem setExResult (h : Alike s t) (v : Word) : Alike (s.setExResult v) (t.setExResult v) := { h with exResult := rfl }

theorem setMemResult (h : Alike s t) (v : Word) : Alike (s.setMemResult v) (t.setMemResult v) := { h with memResult := rfl }

theorem writeReg (h : Alike s t) (r : RegIx) (v : Word) : Alike (s.writeReg r v) (t.writeReg r v) :=
  { h with x := by simp [h.x] }

theorem dmWrite (h : Alike s t) (a : Nat) (v : Word) : Alike (s.dmWrite a v) (t.dmWrite a v) := { h with DM := by simp [h.DM] }

theorem flushTo (h : Alike s t) (n : Nat) : Alike (s.flushTo n) (t.flushTo n) := { h with }

theorem raise (h : Alike s t) (kind : FaultKind) (k : Nat) (v : Int) : Alike (s.raise kind k v) (t.raise kind k v) :=
  { h with cause := by simp only [cause_raise] }

/-- An Execute action does the same to both, the flush and the cursor included. -/
theorem executeAction_cases (h : Alike s t) (i : Instr) (k : Nat) :
    (∃ v, executeAction i k s = s.setExResult v ∧ executeAction i k t = t.setExResult v) ∨
    (∃ v n, executeAction i k s = (s.setExResult v).flushTo n ∧ executeAction i k t = (t.setExResult v).flushTo n) ∨
    (∃ v disp, executeAction i k s = (s.setExResult v).raise .branchTarget k disp ∧
      executeAction i k t = (t.setExResult v).raise .branchTarget k disp) := by
  have hreg := readReg_congr h.x
  cases i with
  | add | sub => exact .inl ⟨_, rfl, by simp only [executeAction, rTypeExecute, hreg]⟩
  | addi => exact .inl ⟨_, rfl, by simp only [executeAction, addiExecute, State.basePlusOffset, hreg]⟩
  | lw | sw => exact .inl ⟨_, rfl, by simp only [executeAction, addressExecute, State.basePlusOffset, hreg]⟩
  | unknown => exact .inl ⟨s.exResult, rfl, by rw [h.exResult]; rfl⟩
  | beq rt rs disp =>
    have hresult : s.branchResult rt rs disp = t.branchResult rt rs disp := by simp only [State.branchResult, hreg]
    simp only [executeAction, beqExecute, hresult, branchTaken, State.setExResult_IS, h.IS]
    split
    · split
      · exact .inr (.inl ⟨_, _, rfl, rfl⟩)
      · exact .inr (.inr ⟨_, _, rfl, rfl⟩)
    · exact .inl ⟨_, rfl, rfl⟩

theorem executeAction (h : Alike s t) (i : Instr) (k : Nat) : Alike (executeAction i k s) (executeAction i k t) := by
  rcases h.executeAction_cases i k with ⟨v, hs, ht⟩ | ⟨v, n, hs, ht⟩ | ⟨v, disp, hs, ht⟩ <;> rw [hs, ht]
  · exact h.setExResult v
  · exact (h.setExResult v).flushTo n
  · exact (h.setExResult v).raise .branchTarget k disp

/-- Where Decode is empty, alike states with the same next entry have the same one after an Execute action. -/
theorem nextIndex_executeAction (h : Alike s t) (hn : s.nextIndex = t.nextIndex) (i : Instr) (k : Nat) :
    (Machine.executeAction i k s).nextIndex = (Machine.executeAction i k t).nextIndex := by
  rcases h.executeAction_cases i k with ⟨v, hs, ht⟩ | ⟨v, n, hs, ht⟩ | ⟨v, disp, hs, ht⟩ <;> rw [hs, ht]
  · exact hn
  · rfl
  · exact hn

theorem dataAccess {act : Nat → State → State} (h : Alike s t) (hact : ∀ a, Alike (act a s) (act a t)) (k : Nat) :
    Alike (dataAccess act k s) (dataAccess act k t) := by
  cases ha : dataIndex s.exResult with
  | some a =>
    rw [dataAccess_in k ha, dataAccess_in k (h.exResult ▸ ha)]
    exact hact a
  | none =>
    rw [dataAccess_out k ha, dataAccess_out k (h.exResult ▸ ha), h.exResult]
    exact h.raise .memoryRange k t.exResult.toInt

theorem memoryAction (h : Alike s t) (i : Instr) (k : Nat) : Alike (memoryAction i k s) (memoryAction i k t) := by
  cases i with
  | add | sub =>
    show Alike (s.setMemResult s.exResult) (t.setMemResult t.exResult)
    exact h.exResult ▸ h.setMemResult s.exResult
  | lw =>
    refine h.dataAccess (fun a => ?_) k
    rw [loadWord, loadWord, dmRead_congr h.DM]
    exact h.setMemResult (t.dmRead a)
  | sw rt =>
    refine h.dataAccess (fun a => ?_) k
    rw [storeWord, storeWord, readReg_congr h.x]
    exact h.dmWrite a (t.readReg rt)
  | addi | beq | unknown => exact h

theorem writebackAction (h : Alike s t) (i : Instr) (k : Nat) : Alike (writebackAction i k s) (writebackAction i k t) := by
  cases i with
  | add r | sub r | lw r =>
    show Alike (s.writeReg r s.memResult) (t.writeReg r t.memResult)
    exact h.memResult ▸ h.writeReg r s.memResult
  | addi | sw | beq | unknown => exact h

theorem unlessFaulted {f g : State → State} (h : Alike s t) (hfg : Alike (f s) (g t)) :
    Alike (unlessFaulted f s) (unlessFaulted g t) := by
  cases hs : s.fault with
  | none => simpa [hs, h.fault_eq_none.1 hs] using hfg
  | some r =>
    have ht : t.fault.isSome = true := by
      rw [Option.isSome_iff_ne_none, Ne, ← h.fault_eq_none, hs]
      nofun
    simpa [hs, ht] using h

end Alike

/-! ### The instructions in Memory and Execute run to their end -/

/-- The Writeback action of the entry a slot names. -/
def commitSlot (slot : Option Nat) (s : State) : State :=
  match slot with
  | some k => writebackAction (s.IS[k]?.getD .unknown) k s
  | none => s

/-- The Memory action of the entry a slot names. -/
def accessSlot (slot : Option Nat) (s : State) : State :=
  match slot with
  | some k => memoryAction (s.IS[k]?.getD .unknown) k s
  | none => s

/-- What the instructions in Memory and Execute leave once both have run to their end: the commit of the one in Memory, and the
access and the commit of the one in Execute, which the access may prevent by raising. -/
def State.settled (s : State) : State := unlessFaulted (commitSlot s.E) (accessSlot s.E (commitSlot s.M s))

@[simp] theorem commitSlot_none (s : State) : commitSlot none s = s := rfl

@[simp] theorem accessSlot_none (s : State) : accessSlot none s = s := rfl

theorem commitSlot_some {s : State} {k : Nat} {i : Instr} (h : s.IS[k]? = some i) :
    commitSlot (some k) s = writebackAction i k s := by
  simp [commitSlot, h]

theorem accessSlot_some {s : State} {k : Nat} {i : Instr} (h : s.IS[k]? = some i) :
    accessSlot (some k) s = memoryAction i k s := by
  simp [accessSlot, h]

theorem commitSlot_keeps (slot : Option Nat) (s : State) : { commitSlot slot s with x := s.x } = s := by
  cases slot with
  | none => rfl
  | some k => exact writebackAction_keeps _ k s

theorem fault_commitSlot (slot : Option Nat) (s : State) : (commitSlot slot s).fault = s.fault :=
  (congrArg State.fault (commitSlot_keeps slot s) :)

theorem IS_commitSlot (slot : Option Nat) (s : State) : (commitSlot slot s).IS = s.IS :=
  (congrArg State.IS (commitSlot_keeps slot s) :)

theorem IS_memoryAction (i : Instr) (k : Nat) (s : State) : (memoryAction i k s).IS = s.IS :=
  (congrArg State.IS (memoryAction_keeps i k s) :)

theorem sameFront_commitSlot (slot : Option Nat) (s : State) : SameFront (commitSlot slot s) s := by
  cases slot with
  | none => exact ⟨rfl, rfl, rfl⟩
  | some k => exact .writebackAction _ k s

theorem Alike.commitSlot {s t : State} (h : Alike s t) (slot : Option Nat) : Alike (commitSlot slot s) (commitSlot slot t) := by
  cases slot with
  | none => exact h
  | some k =>
    simp only [Machine.commitSlot, h.IS]
    exact h.writebackAction _ k

theorem Alike.accessSlot {s t : State} (h : Alike s t) (slot : Option Nat) : Alike (accessSlot slot s) (accessSlot slot t) := by
  cases slot with
  | none => exact h
  | some k =>
    simp only [Machine.accessSlot, h.IS]
    exact h.memoryAction _ k

theorem Alike.settled {s t : State} (h : Alike s t) (hE : s.E = t.E) (hM : s.M = t.M) : Alike s.settled t.settled := by
  have ha := (h.commitSlot t.M).accessSlot t.E
  rw [State.settled, State.settled, hE, hM]
  exact ha.unlessFaulted (ha.commitSlot t.E)

theorem settled_of_executeEmpty {s : State} (h : s.E = none) : s.settled = commitSlot s.M s := by
  simp [State.settled, h, unlessFaulted]

theorem alike_writebackStep {s w : State} (h : writebackStep s = .next w) : Alike w (commitSlot s.M s) := by
  have hp : Alike s.promoteToWriteback s := by constructor <;> rfl
  rcases writebackStep_next.1 h with ⟨hM, rfl⟩ | ⟨k, i, hM, hi, rfl⟩
  · rw [hM]
    exact hp
  · rw [hM, commitSlot_some hi]
    exact { hp.writebackAction i k with }

theorem alike_memoryStep {w u : State} (h : memoryStep w = .next u) : Alike u (accessSlot w.E w) := by
  have hp : Alike w.promoteToMemory w := by constructor <;> rfl
  rcases memoryStep_next.1 h with ⟨hE, rfl⟩ | ⟨k, i, hE, hi, rfl⟩
  · rw [hE]
    exact hp
  · rw [hE, accessSlot_some hi]
    exact { hp.memoryAction i k with }

/-- The Writeback and Memory steps are the commit of the entry in Memory and the access of the one in Execute. -/
theorem alike_olderSteps {s u : State} (hs : s.fault = none) (h : olderSteps s = .next u) :
    Alike u (accessSlot s.E (commitSlot s.M s)) := by
  obtain ⟨w, hw, hm⟩ := (olderSteps_next hs).1 h
  obtain ⟨-, -, -, hE, -⟩ := writebackStep_frame hw
  exact (alike_memoryStep hm).trans (hE ▸ (alike_writebackStep hw).accessSlot w.E)

/-- Where these two steps raise nothing, what is in flight after them has the same end. -/
theorem settled_olderSteps {s u : State} (hs : s.fault = none) (h : olderSteps s = .next u) (hu : u.fault = none) :
    Alike u.settled s.settled := by
  have hp := promoted_of_olderSteps hs h
  have ha := alike_olderSteps hs h
  rw [settled_of_executeEmpty hp.E, hp.M, State.settled, unlessFaulted_clear (ha.fault_eq_none.1 hu)]
  exact ha.commitSlot s.E

/-- Where they raise, the same fault is in the end of what was in flight. -/
theorem cause_of_olderSteps_raised {s u : State} (hs : s.fault = none) (h : olderSteps s = .next u)
    (hu : u.fault.isSome = true) : u.cause = s.settled.cause := by
  have ha := alike_olderSteps hs h
  have hf : (accessSlot s.E (commitSlot s.M s)).fault.isSome = true := by
    rw [Option.isSome_iff_ne_none] at hu ⊢
    exact fun hn => hu (ha.fault_eq_none.2 hn)
  rw [State.settled, unlessFaulted_raised hf]
  exact ha.cause

/-! ### The hazard predicate lets an Execute action pass a commit -/

/-- An Execute action does not see a register that is no source of its instruction. spec/40_pipeline.md R142. -/
theorem executeAction_writeReg {i : Instr} {r : RegIx} (h : r ∉ srcsOf i) (k : Nat) (v : Word) (s : State) :
    executeAction i k (s.writeReg r v) = (executeAction i k s).writeReg r v := by
  have hread (q : RegIx) (hq : q ∈ srcsOf i) : (s.writeReg r v).readReg q = s.readReg q :=
    readReg_writeReg_other s v fun hqr => h (hqr ▸ hq)
  cases i with
  | add rd rs rt | sub rd rs rt =>
    simp only [executeAction, rTypeExecute, hread rs (by simp [srcsOf]), hread rt (by simp [srcsOf])]
    rfl
  | addi rt rs | lw rt rs =>
    simp only [executeAction, addiExecute, addressExecute, State.basePlusOffset, hread rs (by simp [srcsOf])]
    rfl
  | sw rt rs =>
    simp only [executeAction, addressExecute, State.basePlusOffset, hread rs (by simp [srcsOf])]
    rfl
  | unknown => rfl
  | beq rt rs disp =>
    have hresult : (s.writeReg r v).branchResult rt rs disp = s.branchResult rt rs disp := by
      simp only [State.branchResult, hread rs (by simp [srcsOf]), hread rt (by simp [srcsOf])]
    simp only [executeAction, beqExecute, hresult, branchTaken, State.setExResult_IS, State.writeReg_IS]
    split
    · split <;> rfl
    · rfl

/-- In every state an instruction's commit writes `memResult` to its destination, or in every state it does nothing. -/
theorem writebackAction_uniform (j : Instr) : (∀ k s, writebackAction j k s = s) ∨
    ∃ r, destOf j = some r ∧ ∀ k s, writebackAction j k s = s.writeReg r s.memResult := by
  cases j with
  | add r | sub r | lw r => exact .inr ⟨r, rfl, fun _ _ => rfl⟩
  | addi | sw | beq | unknown => exact .inl fun _ _ => rfl

/-- The destination of the entry in Memory is no source of an instruction without a hazard. spec/40_pipeline.md R139. -/
theorem not_mem_srcsOf_of_hazard {u : State} {i j : Instr} {m : Nat} {r : RegIx} (hz : u.hazard i = false) (hM : u.M = some m)
    (hj : u.IS[m]? = some j) (hr : destOf j = some r) : r ∉ srcsOf i := by
  intro hmem
  have hdest : u.slotDest u.M = some r := slotDest_eq_some.2 ⟨m, j, hM, hj, hr⟩
  simp [(hazard_iff u i).2 ⟨r, hmem, .inl hdest⟩] at hz

/-- Without a hazard the commit of the entry in Memory and the Execute action of the one in Decode may change places. -/
theorem commitSlot_executeAction {u : State} {i : Instr} (hz : u.hazard i = false) (k : Nat) :
    commitSlot u.M (executeAction i k (u.admitToExecute k)) = executeAction i k (commitSlot u.M (u.admitToExecute k)) := by
  cases hM : u.M with
  | none => rfl
  | some m =>
    have hkeep := executeAction_agrees i k (u.admitToExecute k)
    simp only [commitSlot, hkeep.IS, State.admitToExecute_IS]
    cases hj : u.IS[m]? with
    | none => rfl
    | some j =>
      obtain hcommit | ⟨r, hr, hcommit⟩ := writebackAction_uniform j
      · simp only [Option.getD_some, hcommit]
      · simp only [Option.getD_some, hcommit, hkeep.memResult]
        exact (executeAction_writeReg (not_mem_srcsOf_of_hazard hz hM hj hr) k _ _).symm

/-! ### An iteration of SEQ -/

/-- The three actions of an instruction one after the other, each unless the one before raised. spec/40_pipeline.md R160. -/
def passage (i : Instr) (k : Nat) (s : State) : State :=
  unlessFaulted (writebackAction i k) (unlessFaulted (memoryAction i k) (executeAction i k s))

theorem seqStep_of_entry {q : State} {i : Instr} (hf : q.fault = none) (hi : q.IS[q.nextIndex]? = some i) :
    seqStep q = .next ((passage i q.nextIndex (q.setServicing none).takeNext).holdOnFault q.nextIndex) := by
  have hq : (q.setServicing none).fault = none := hf
  simp only [seqStep, State.faulted, hf, hi, exec_eq_perStage, Option.isSome_none, Bool.false_eq_true, if_false]
  rw [perStage_alone rfl, alone_clear hq]
  rfl

/-- SEQ stands still once a fault is recorded or the program is at its end. -/
theorem seqStep_stopped {q : State} (h : q.fault.isSome = true ∨ q.IS.length ≤ q.nextIndex) : seqStep q = .next q := by
  unfold seqStep
  split
  · rfl
  · obtain hf | hpc := h
    · exact absurd hf ‹_›
    · simp [List.getElem?_eq_none hpc]

theorem sameFront_passage (i : Instr) (k : Nat) (s : State) : SameFront (passage i k s) (executeAction i k s) :=
  (SameFront.unlessFaulted (.writebackAction i k _)).trans (.unlessFaulted (.memoryAction i k _))

/-- Slots that are empty before an Execute action are empty after it. -/
theorem front_executeAction {s : State} (i : Instr) (k : Nat) (hF : s.F = none) (hD : s.D = none) :
    (executeAction i k s).F = none ∧ (executeAction i k s).D = none := by
  rcases executeAction_cases i k s with ⟨v, ha⟩ | ⟨v, t, -, -, ha⟩ | ⟨v, disp, -, ha⟩ <;> rw [ha]
  · exact ⟨hF, hD⟩
  · exact ⟨rfl, rfl⟩
  · exact ⟨hF, hD⟩

/-! ### The simulation relation -/

/-- SEQ in `q` is where the pipeline in `s` is once what is in flight has run to its end; where a cycle raised, which skips the
rest of what was in flight, they have raised alike. -/
structure Tracks (s q : State) : Prop where
  settled : s.fault = none → Alike s.settled q
  raised : s.fault.isSome = true → s.cause = q.cause
  nextIndex : s.fault = none → q.fault = none → s.nextIndex = q.nextIndex
  fetchEmpty : q.F = none
  decodeEmpty : q.D = none

/-- How far the next admission is at most: the stages before Decode, and the cycles until nothing older can stall it. -/
def State.cyclesAhead (s : State) : Nat :=
  (if s.D.isSome then 0 else if s.F.isSome then 1 else 2) + (if s.E.isSome then 2 else 0) + (if s.M.isSome then 1 else 0)

theorem FrontMoves.alike {s t : State} (h : FrontMoves s t) : Alike t s where
  IS := h.IS
  x := h.x
  DM := h.DM
  exResult := h.exResult
  memResult := h.memResult
  cause := by rw [State.cause, State.cause, h.fault]

/-! ### A cycle that admits nothing -/

/-- A cycle that admits nothing brings the next admission nearer: an entry stalled by what is older waits for that to pass, and
what is before Decode moves up. -/
theorem cyclesAhead_stalled {s u : State} {k : Nat} {i : Instr} (hp : Promoted s u) (hD : u.D = some k)
    (hz : u.hazard i = true) : (fetchStep u).countCycle.cyclesAhead < s.cyclesAhead := by
  have hm := frontMoves_fetchStep u
  have hD' : (fetchStep u).D = some k := (fetchStep_D u).trans hD
  have hocc : s.E.isSome = true ∨ s.M.isSome = true := by
    simpa only [hp.M, hp.W, Option.isSome_iff_ne_none] using occupied_of_hazard hz
  simp only [State.cyclesAhead, State.countCycle_D, State.countCycle_E, State.countCycle_M, hD', hm.E, hm.M, hp.E, hp.M,
    ← hp.D, hD, Option.isSome_some, Option.isSome_none, if_true]
  grind

theorem cyclesAhead_decodeEmpty {s u : State} (hp : Promoted s u) (hs : s.drained = false) (hD : u.D = none) :
    (fetchStep (decodeStep u)).countCycle.cyclesAhead < s.cyclesAhead := by
  have hocc := (not_drained_iff s).1 hs
  rw [← hp.F, ← hp.D, ← hp.pc, ← hp.IS, hD] at hocc
  rw [decodeStep_of_empty hD (by rw [hp.E]; rfl)]
  rcases fetchStep_cases { u with D := u.F, F := none } with ⟨-, -, h⟩ | ⟨hpc, h⟩ <;> rw [h] <;>
    simp only [State.cyclesAhead, State.countCycle_F, State.countCycle_D, State.countCycle_E, State.countCycle_M, hp.E, hp.M,
      ← hp.D, hD, ← hp.F, Option.isSome_some, Option.isSome_none, if_true]
  · grind
  · grind

namespace Tracks

variable {s t u q : State}

/-- What is in flight has the same end after a cycle that admits nothing. -/
theorem waits (h : Tracks s q) (hs : s.fault = none) (hu : olderSteps s = .next u) (hf : u.fault = none)
    (hm : FrontMoves u t) (hn : t.nextIndex = u.nextIndex) : Tracks t.countCycle q where
  settled _ :=
    have ht : Alike t.countCycle.settled u.settled := Alike.settled { hm.alike with } hm.E hm.M
    (ht.trans (settled_olderSteps hs hu hf)).trans (h.settled hs)
  raised ht := by simp [hm.fault, hf] at ht
  nextIndex _ hq := hn.trans ((promoted_of_olderSteps hs hu).sameFront.nextIndex.trans (h.nextIndex hs hq))
  fetchEmpty := h.fetchEmpty
  decodeEmpty := h.decodeEmpty

end Tracks

/-! ### A cycle that admits an entry -/

/-- After the Writeback and Memory steps entry `k`, instruction `i`, is about to be admitted, and SEQ, where the end of what is
older is, stands at it. -/
structure Admission (u q : State) (k : Nat) (i : Instr) : Prop where
  settled : Alike u.settled q
  executeEmpty : u.E = none
  inOrder : u.InOrder
  fault : u.fault = none
  decode : u.D = some k
  entry : u.IS[k]? = some i
  noHazard : u.hazard i = false
  seqFault : q.fault = none
  seqIndex : q.nextIndex = k

theorem Tracks.admission {s u q : State} {k : Nat} {i : Instr} (h : Tracks s q) (ho : s.InOrder) (hs : s.fault = none)
    (hu : olderSteps s = .next u) (hf : u.fault = none) (hD : u.D = some k) (hi : u.IS[k]? = some i)
    (hz : u.hazard i = false) : Admission u q k i :=
  have hp := promoted_of_olderSteps hs hu
  have ha : Alike u.settled q := (settled_olderSteps hs hu hf).trans (h.settled hs)
  have hq : q.fault = none := by
    rw [← ha.fault_eq_none, settled_of_executeEmpty hp.E, fault_commitSlot, hf]
  { settled := ha
    executeEmpty := hp.E
    inOrder := hp.sameFront.inOrder ho
    fault := hf
    decode := hD
    entry := hi
    noHazard := hz
    seqFault := hq
    seqIndex := by rw [← h.nextIndex hs hq, ← hp.sameFront.nextIndex, nextIndex_of_decode hD] }

namespace Admission

variable {u q : State} {k : Nat} {i : Instr}

/-- SEQ is where the admission will be but for the actions of the entry admitted. -/
theorem alike_admitted (h : Admission u q k i) :
    Alike (commitSlot u.M (u.admitToExecute k)) (q.setServicing none).takeNext := by
  have hu : Alike (u.admitToExecute k) u := by constructor <;> rfl
  have hq : Alike q (q.setServicing none).takeNext := by constructor <;> rfl
  exact ((hu.commitSlot u.M).trans (settled_of_executeEmpty h.executeEmpty ▸ h.settled)).trans hq

theorem alike_executed (h : Admission u q k i) :
    Alike (commitSlot u.M (executeAction i k (u.admitToExecute k))) (executeAction i k (q.setServicing none).takeNext) :=
  commitSlot_executeAction h.noHazard k ▸ h.alike_admitted.executeAction i k

theorem nextIndex_executed (h : Admission u q k i) :
    (executeAction i k (u.admitToExecute k)).nextIndex = (executeAction i k (q.setServicing none).takeNext).nextIndex := by
  have hadmit : (commitSlot u.M (u.admitToExecute k)).nextIndex = k + 1 :=
    calc (commitSlot u.M (u.admitToExecute k)).nextIndex
      _ = (u.admitToExecute k).nextIndex := (sameFront_commitSlot u.M _).nextIndex
      _ = u.behindDecode := nextIndex_of_decodeEmpty rfl
      _ = k + 1 := h.inOrder.decode k h.decode
  have htake : (q.setServicing none).takeNext.nextIndex = k + 1 := congrArg (· + 1) h.seqIndex
  rw [← (sameFront_commitSlot u.M _).nextIndex, commitSlot_executeAction h.noHazard]
  exact h.alike_admitted.nextIndex_executeAction (hadmit.trans htake.symm) i k

/-- SEQ's iteration behind the admission is a real one, of the entry admitted. -/
theorem seqStep (h : Admission u q k i) : q.nextIndex < q.IS.length ∧
    seqStep q = .next ((passage i k (q.setServicing none).takeNext).holdOnFault k) := by
  have hIS : q.IS[q.nextIndex]? = some i := by
    rw [h.seqIndex, ← h.settled.IS, settled_of_executeEmpty h.executeEmpty, IS_commitSlot, h.entry]
  exact ⟨lt_of_entry hIS, h.seqIndex ▸ seqStep_of_entry h.seqFault hIS⟩

end Admission

/-- What is in flight with an entry just executed ends as the entry's passage does. -/
theorem alike_settled_passage {e y : State} {k : Nat} {i : Instr} (hE : e.E = some k) (hi : e.IS[k]? = some i)
    (hf : e.fault = none) (hy : Alike (commitSlot e.M e) (executeAction i k y)) : Alike e.settled (passage i k y) := by
  have hyf : (executeAction i k y).fault = none := hy.fault_eq_none.1 ((fault_commitSlot e.M e).trans hf)
  have hIS : (commitSlot e.M e).IS[k]? = some i := by rw [IS_commitSlot, hi]
  have hIS' : (memoryAction i k (commitSlot e.M e)).IS[k]? = some i := by rw [IS_memoryAction, hIS]
  have hmem := hy.memoryAction i k
  rw [State.settled, hE, accessSlot_some hIS, passage, unlessFaulted_clear hyf]
  refine hmem.unlessFaulted ?_
  rw [commitSlot_some hIS']
  exact hmem.writebackAction i k

theorem alike_holdOnFault (s : State) (k : Nat) : Alike (s.holdOnFault k) s := by
  constructor <;> simp [State.cause]

namespace Tracks

variable {s t u q : State} {k : Nat} {i : Instr}

/-- A fault in an admission is raised by SEQ's iteration too. -/
theorem executeRaises (h : Admission u q k i) (hef : (executeAction i k (u.admitToExecute k)).fault.isSome = true) :
    Tracks ((executeAction i k (u.admitToExecute k)).setServicing none).countCycle
      ((passage i k (q.setServicing none).takeNext).holdOnFault k) := by
  have hcause : (executeAction i k (u.admitToExecute k)).cause = (executeAction i k (q.setServicing none).takeNext).cause := by
    rw [← h.alike_executed.cause, State.cause, State.cause, fault_commitSlot]
  have hqf : (executeAction i k (q.setServicing none).takeNext).fault.isSome = true := by
    rw [Option.isSome_iff_ne_none, Ne, ← cause_eq_none, ← hcause, cause_eq_none]
    exact Option.isSome_iff_ne_none.1 hef
  have hpass : passage i k (q.setServicing none).takeNext = executeAction i k (q.setServicing none).takeNext := by
    simp [passage, hqf]
  obtain ⟨hF, hD⟩ := front_executeAction (s := (q.setServicing none).takeNext) i k rfl rfl
  rw [hpass]
  exact {
    settled := fun hn => absurd hn (Option.isSome_iff_ne_none.1 hef)
    raised := fun _ => hcause.trans (alike_holdOnFault _ k).cause.symm
    nextIndex := fun hn => absurd hn (Option.isSome_iff_ne_none.1 hef)
    fetchEmpty := by rw [State.holdOnFault_F, hF]
    decodeEmpty := by rw [State.holdOnFault_D, hD] }

/-- An admission without a fault is SEQ's iteration, whose access may still raise. -/
theorem executed (h : Admission u q k i) (hef : (executeAction i k (u.admitToExecute k)).fault = none)
    (hm : FrontMoves ((executeAction i k (u.admitToExecute k)).setServicing none) t)
    (hn : t.nextIndex = (executeAction i k (u.admitToExecute k)).nextIndex) :
    Tracks t.countCycle ((passage i k (q.setServicing none).takeNext).holdOnFault k) := by
  have hkeep := executeAction_agrees i k (u.admitToExecute k)
  have hE : (executeAction i k (u.admitToExecute k)).E = some k := executeAction_E i k _
  have hentry : (executeAction i k (u.admitToExecute k)).IS[k]? = some i := by rw [hkeep.IS]; exact h.entry
  have hpass := alike_settled_passage hE hentry hef (hkeep.M.symm ▸ h.alike_executed)
  have hfront := sameFront_passage i k (q.setServicing none).takeNext
  obtain ⟨hF, hD⟩ := front_executeAction (s := (q.setServicing none).takeNext) i k rfl rfl
  exact {
    settled := fun _ =>
      have ht : Alike t.countCycle.settled (executeAction i k (u.admitToExecute k)).settled :=
        Alike.settled { hm.alike with } hm.E hm.M
      (ht.trans hpass).trans (alike_holdOnFault _ k).symm
    raised := fun htf => by simp [hm.fault, hef] at htf
    nextIndex := fun _ hq => by
      rw [State.holdOnFault_fault] at hq
      rw [holdOnFault_clear hq, hfront.nextIndex]
      exact hn.trans h.nextIndex_executed
    fetchEmpty := by rw [State.holdOnFault_F, hfront.F, hF]
    decodeEmpty := by rw [State.holdOnFault_D, hfront.D, hD] }

/-- One cycle of the pipeline: SEQ stays and the next admission comes nearer, unless a fault ended the run, or SEQ takes one
iteration, which is a real one. -/
theorem step (h : Tracks s q) (ho : s.InOrder) (hr : s.running = true) (hst : step s = .next t) :
    (Tracks t q ∧ (t.fault.isSome = true ∨ t.cyclesAhead < s.cyclesAhead)) ∨
    ∃ q', q.fault = none ∧ q.nextIndex < q.IS.length ∧ seqStep q = .next q' ∧ Tracks t q' := by
  obtain ⟨hd, hs⟩ := (running_iff s).1 hr
  cases (step_iff_runningStep hr).1 hst with
  | memoryRaises hu hf =>
    refine .inl ⟨?_, .inl hf⟩
    exact {
      settled := fun hn => absurd hn (Option.isSome_iff_ne_none.1 hf)
      raised := fun _ => (cause_of_olderSteps_raised hs hu hf).trans (h.settled hs).cause
      nextIndex := fun hn => absurd hn (Option.isSome_iff_ne_none.1 hf)
      fetchEmpty := h.fetchEmpty
      decodeEmpty := h.decodeEmpty }
  | decodeEmpty hu hf hD =>
    exact .inl ⟨h.waits hs hu hf (frontMoves_younger _) (nextIndex_younger _),
      .inr (cyclesAhead_decodeEmpty (promoted_of_olderSteps hs hu) hd hD)⟩
  | stalled hu hf hD hi hz =>
    exact .inl ⟨h.waits hs hu hf (frontMoves_fetchStep _) (nextIndex_fetchStep _),
      .inr (cyclesAhead_stalled (promoted_of_olderSteps hs hu) hD hz)⟩
  | executeRaises hu hf hD hi hz he hef =>
    subst he
    have hadm := h.admission ho hs hu hf hD hi hz
    obtain ⟨hlt, hseq⟩ := hadm.seqStep
    exact .inr ⟨_, hadm.seqFault, hlt, hseq, executeRaises hadm hef⟩
  | executed hu hf hD hi hz he hef =>
    subst he
    have hadm := h.admission ho hs hu hf hD hi hz
    obtain ⟨hlt, hseq⟩ := hadm.seqStep
    exact .inr ⟨_, hadm.seqFault, hlt, hseq, executed hadm hef (frontMoves_younger _) (nextIndex_younger _)⟩

/-- A halted pipeline has nothing left in flight, so SEQ has halted with its results. -/
theorem seqHalted (h : Tracks s q) (hd : s.drained = true) (hs : s.fault = none) :
    q.seqHalted ∧ q.x = s.x ∧ q.DM = s.DM := by
  obtain ⟨hF, hD, hE, hM, hpc⟩ := (drained_iff s).1 hd
  have hend : s.settled = s := by rw [settled_of_executeEmpty hE, hM, commitSlot_none]
  have ha : Alike s q := hend ▸ h.settled hs
  have hq : q.fault = none := ha.fault_eq_none.1 hs
  have hnext : q.pc = s.pc := by
    simpa [nextIndex_eq, State.behindDecode, hF, hD, h.fetchEmpty, h.decodeEmpty] using (h.nextIndex hs hq).symm
  exact ⟨⟨by simpa [State.exhausted, hnext, ← ha.IS] using hpc, hq⟩, ha.x.symm, ha.DM.symm⟩

theorem nextIndex_seq (h : Tracks s q) : q.nextIndex = q.pc := by
  simp [nextIndex_eq, State.behindDecode, h.fetchEmpty, h.decodeEmpty]

end Tracks

/-! ### Runs -/

theorem seqRunsTo_zero {q u : State} : seqRunsTo 0 q u ↔ u = q := by
  simp [seqRunsTo, seqRun, eq_comm]

/-- A state that an iteration leaves as it is is where every run of SEQ from it ends. -/
theorem seqRunsTo_of_step_self {n : Nat} {q u : State} (hq : seqStep q = .next q) (h : seqRunsTo n q u) : u = q := by
  induction n with
  | zero => exact seqRunsTo_zero.1 h
  | succ n ih =>
    obtain ⟨q', hq', h⟩ := thenStep_next.1 h
    cases hq.symm.trans hq'
    obtain ⟨-, rfl⟩ | ⟨-, hrun⟩ := h
    · rfl
    · exact ih hrun

theorem seqRunsTo_self {q : State} (hq : seqStep q = .next q) (n : Nat) : seqRunsTo n q q := by
  induction n with
  | zero => exact seqRunsTo_zero.2 rfl
  | succ n ih =>
    refine thenStep_next.2 ⟨q, hq, ?_⟩
    cases hf : q.fault with
    | none => exact .inr ⟨rfl, ih⟩
    | some f => exact .inl ⟨rfl, rfl⟩

/-- A run of one iteration more is an iteration, then a run: where the iteration raised, the run stays there. -/
theorem seqRunsTo_succ {n : Nat} {q u : State} :
    seqRunsTo (n + 1) q u ↔ ∃ q', seqStep q = .next q' ∧ seqRunsTo n q' u := by
  refine thenStep_next.trans (exists_congr fun q' => and_congr_right fun _ => ?_)
  cases hf : q'.fault with
  | none => simp [seqRunsTo]
  | some f =>
    have hstop : seqStep q' = .next q' := seqStep_stopped (.inl (by simp [hf]))
    exact ⟨fun h => by simp_all [seqRunsTo_self], fun h => .inl ⟨rfl, seqRunsTo_of_step_self hstop h⟩⟩

theorem inv_boot (cfg : Cfg) (prog : List Instr) : (State.boot cfg prog).Inv where
  pcInRange := Nat.zero_le _
  fetchInStore := nofun
  decodeInStore := nofun
  executeInStore := nofun
  memoryInStore := nofun
  writebackInStore := nofun
  memoryCanonical := Memory.wf_reset
  branchClearsDecode := nofun
  faultInStore := nofun
  notServicing := rfl

theorem not_running_of_fault {s : State} (h : s.fault.isSome = true) : s.running = false := by
  simp [State.running, State.faulted, h]

theorem drained_of_not_running {s : State} (hr : s.running = false) (hf : s.fault = none) : s.drained = true := by
  simpa [State.running, State.faulted, hf] using hr

/-- A state a run of the pipeline can reach, and where SEQ then is. -/
structure Refines (s q : State) : Prop where
  inv : s.Inv
  inOrder : s.InOrder
  tracks : Tracks s q

/-- SEQ's start is the pipeline's, whatever the configuration of each. -/
theorem refines_boot (cfg cfg' : Cfg) (prog : List Instr) : Refines (State.boot cfg prog) (State.boot cfg' prog) where
  inv := inv_boot cfg prog
  inOrder := ⟨nofun, nofun⟩
  tracks :=
    { settled := fun _ => by constructor <;> rfl
      raised := nofun
      nextIndex := fun _ _ => rfl
      fetchEmpty := rfl
      decodeEmpty := rfl }

namespace Refines

variable {s t q u : State}

/-- Wherever the pipeline runs to, SEQ gets to where it then is. -/
theorem run {n : Nat} (h : Refines s q) (hrun : runsTo n s t) : ∃ m u, seqRunsTo m q u ∧ Refines t u := by
  induction n generalizing s q with
  | zero => exact ⟨0, q, seqRunsTo_zero.2 rfl, runsTo_zero.1 hrun ▸ h⟩
  | succ n ih =>
    obtain ⟨v, hv, hrest⟩ := runsTo_succ.1 hrun
    have hinv := stepKeepsTheInvariant s v h.inv hv
    have hord := h.inOrder.step hv
    obtain ⟨-, rfl⟩ | ⟨hr, -⟩ := step_next.1 hv
    · exact ih h hrest
    · obtain ⟨htr, -⟩ | ⟨q', -, -, hq, htr⟩ := h.tracks.step h.inOrder hr hv
      · exact ih ⟨hinv, hord, htr⟩ hrest
      · obtain ⟨m, u, hm, hu⟩ := ih ⟨hinv, hord, htr⟩ hrest
        exact ⟨m + 1, u, seqRunsTo_succ.2 ⟨q', hq, hm⟩, hu⟩

/-- Where the pipeline has faulted SEQ has, with the same kind and entry. -/
theorem fault (h : Refines s q) {f : Fault} (hf : s.fault = some f) :
    ∃ g, q.fault = some g ∧ g.kind = f.kind ∧ g.index = f.index := by
  have hcause := h.tracks.raised (by simp [hf])
  rw [State.cause, hf, Option.map_some, eq_comm, State.cause, Option.map_eq_some_iff] at hcause
  obtain ⟨g, hg, hfg⟩ := hcause
  obtain ⟨hkind, hindex⟩ := Prod.mk.injEq _ _ _ _ ▸ hfg
  exact ⟨g, hg, hkind, hindex⟩

/-- Where the pipeline has stopped SEQ has too. -/
theorem seqStep_self (h : Refines s q) (hr : s.running = false) : seqStep q = .next q := by
  cases hf : s.fault with
  | some f =>
    obtain ⟨g, hg, -⟩ := h.fault hf
    exact seqStep_stopped (.inl (by simp [hg]))
  | none =>
    obtain ⟨⟨hpc, -⟩, -⟩ := h.tracks.seqHalted (drained_of_not_running hr hf) hf
    exact seqStep_stopped (.inr (h.tracks.nextIndex_seq ▸ of_decide_eq_true hpc))

/-- The pipeline runs on until it stops or SEQ has taken its next iteration, since the next admission keeps coming nearer. -/
theorem advances (h : Refines s q) : ∃ n t, runsTo n s t ∧ ((t.running = false ∧ Refines t q) ∨
    ∃ q', q.fault = none ∧ q.nextIndex < q.IS.length ∧ seqStep q = .next q' ∧ Refines t q') := by
  induction hd : s.cyclesAhead using Nat.strong_induction_on generalizing s with
  | _ d ih =>
    cases hr : s.running with
    | false => exact ⟨0, s, runsTo_zero.2 rfl, .inl ⟨hr, h⟩⟩
    | true =>
      obtain ⟨t, ht⟩ := stepAlwaysHasANextState s h.inv
      have hinv := stepKeepsTheInvariant s t h.inv ht
      have hord := h.inOrder.step ht
      obtain ⟨htr, hf | hlt⟩ | ⟨q', hqf, hqlt, hq, htr⟩ := h.tracks.step h.inOrder hr ht
      · exact ⟨1, t, runsTo_one ht, .inl ⟨not_running_of_fault hf, hinv, hord, htr⟩⟩
      · obtain ⟨n, v, hn, hv⟩ := ih _ (hd ▸ hlt) ⟨hinv, hord, htr⟩ rfl
        exact ⟨n + 1, v, runsTo_succ.2 ⟨t, ht, hn⟩, hv⟩
      · exact ⟨1, t, runsTo_one ht, .inr ⟨q', hqf, hqlt, hq, hinv, hord, htr⟩⟩

/-- Where SEQ runs to its end, a fault or the end of the program, the pipeline stops, with SEQ at that end. -/
theorem stops {m : Nat} (h : Refines s q) (hrun : seqRunsTo m q u) (hend : u.fault.isSome = true ∨ u.exhausted = true) :
    ∃ n t, runsTo n s t ∧ t.running = false ∧ Refines t u := by
  induction m generalizing s q with
  | zero =>
    obtain rfl := seqRunsTo_zero.1 hrun
    obtain ⟨n, t, hn, ⟨hr, ht⟩ | ⟨-, hqf, hqlt, -⟩⟩ := h.advances
    · exact ⟨n, t, hn, hr, ht⟩
    · obtain hf | hpc := hend
      · simp [hqf] at hf
      · have hpc : u.IS.length ≤ u.pc := of_decide_eq_true hpc
        rw [h.tracks.nextIndex_seq] at hqlt
        omega
  | succ m ih =>
    obtain ⟨q₁, hq₁, hrest⟩ := seqRunsTo_succ.1 hrun
    obtain ⟨n, t, hn, ⟨hr, ht⟩ | ⟨q', -, -, hq', ht⟩⟩ := h.advances
    · obtain rfl := seqRunsTo_of_step_self (ht.seqStep_self hr) hrun
      exact ⟨n, t, hn, hr, ht⟩
    · cases hq₁.symm.trans hq'
      obtain ⟨n', v, hn', hv⟩ := ih ht hrest
      exact ⟨n + n', v, runsTo_add hn hn', hv⟩

theorem fault_of_seqFault (h : Refines s q) (hr : s.running = false) {g : Fault} (hg : q.fault = some g) :
    ∃ f, s.fault = some f ∧ f.kind = g.kind ∧ f.index = g.index := by
  cases hf : s.fault with
  | none =>
    obtain ⟨⟨-, hq⟩, -⟩ := h.tracks.seqHalted (drained_of_not_running hr hf) hf
    simp [hq] at hg
  | some f =>
    obtain ⟨g', hg', hkind, hindex⟩ := h.fault hf
    cases hg.symm.trans hg'
    exact ⟨f, rfl, hkind.symm, hindex.symm⟩

theorem halted_of_seqHalted (h : Refines s q) (hr : s.running = false) (hq : q.seqHalted) :
    s.halted ∧ s.x = q.x ∧ s.DM = q.DM := by
  cases hf : s.fault with
  | none =>
    obtain ⟨-, hx, hDM⟩ := h.tracks.seqHalted (drained_of_not_running hr hf) hf
    exact ⟨⟨drained_of_not_running hr hf, hf⟩, hx.symm, hDM.symm⟩
  | some f =>
    obtain ⟨g, hg, -⟩ := h.fault hf
    exact absurd (hq.2.symm.trans hg) nofun

end Refines

/-! ### The obligations -/

/-- A halt of the pipeline is a halt of SEQ, under any two configurations. -/
theorem seqHalts_of_halts (cfg cfg' : Cfg) (prog : List Instr) {n : Nat} {t : State} (h : runsTo n (State.boot cfg prog) t)
    (ht : t.halted) : ∃ m u, seqRunsTo m (State.boot cfg' prog) u ∧ u.seqHalted ∧ u.x = t.x ∧ u.DM = t.DM := by
  obtain ⟨m, u, hm, hu⟩ := (refines_boot cfg cfg' prog).run h
  exact ⟨m, u, hm, hu.tracks.seqHalted ht.1 ht.2⟩

/-- A halt of SEQ is a halt of the pipeline, under any two configurations. -/
theorem halts_of_seqHalts (cfg cfg' : Cfg) (prog : List Instr) {m : Nat} {u : State}
    (h : seqRunsTo m (State.boot cfg' prog) u) (hu : u.seqHalted) :
    ∃ n t, runsTo n (State.boot cfg prog) t ∧ t.halted ∧ t.x = u.x ∧ t.DM = u.DM := by
  obtain ⟨n, t, hn, hr, ht⟩ := (refines_boot cfg cfg' prog).stops h (.inr hu.1)
  exact ⟨n, t, hn, ht.halted_of_seqHalted hr hu⟩

/-- Settles O51, by the simulation: forwards along the pipeline's run, and backwards because the pipeline stops where SEQ
ends. -/
theorem pipelineRefinesTheSequentialMachine : Obligations.PipelineRefinesTheSequentialMachine := by
  intro cfg prog
  refine ⟨fun n t => seqHalts_of_halts cfg cfg prog, fun m u => halts_of_seqHalts cfg cfg prog, fun n t f h hf => ?_,
    fun m u g h hg => ?_⟩
  · obtain ⟨m, u, hm, hu⟩ := (refines_boot cfg cfg prog).run h
    obtain ⟨g, hg⟩ := hu.fault hf
    exact ⟨m, u, g, hm, hg⟩
  · obtain ⟨n, t, hn, hr, ht⟩ := (refines_boot cfg cfg prog).stops h (.inl (by simp [hg]))
    obtain ⟨f, hf⟩ := ht.fault_of_seqFault hr hg
    exact ⟨n, t, f, hn, hf⟩

/-- Settles O52: SEQ under one configuration stands between the pipeline's runs under both. -/
theorem forwardingChangesOnlyTiming : Obligations.ForwardingChangesOnlyTiming := by
  intro mode prog fwd n t h ht
  obtain ⟨m, u, hm, hu, hx, hDM⟩ := seqHalts_of_halts ⟨fwd, mode⟩ ⟨fwd, mode⟩ prog h ht
  obtain ⟨n', v, hn', hv, hx', hDM'⟩ := halts_of_seqHalts ⟨!fwd, mode⟩ ⟨fwd, mode⟩ prog hm hu
  exact ⟨n', v, hn', hv, hx'.trans hx, hDM'.trans hDM⟩

end Sys2Proof.Machine

/-! O49: the timing of a program without branches (spec/40_pipeline.md R161). A cycle that neither stalls nor raises moves every
entry on by one stage and fetches the next, so the slots have a closed form in the number of cycles (`entryInStage`). -/

namespace Sys2Proof.Machine

/-! ### A cycle in which everything moves on -/

/-- `t` is one cycle behind `s`, in which every entry moved on by one stage and the cursor's was fetched. -/
structure MovesOn (s t : State) : Prop where
  IS : t.IS = s.IS
  W : t.W = s.M
  M : t.M = s.E
  E : t.E = s.D
  D : t.D = s.F
  F : t.F = if s.pc < s.IS.length then some s.pc else none
  pc : t.pc = if s.pc < s.IS.length then s.pc + 1 else s.pc
  cycle : t.cycle = s.cycle + 1

/-- An Execute action of an instruction other than a branch writes `exResult` and nothing else. -/
theorem executeAction_of_ne_beq {i : Instr} (h : kindOf i ≠ .beq) (k : Nat) (s : State) :
    ∃ v, executeAction i k s = s.setExResult v := by
  rcases executeAction_cases i k s with ha | ⟨_, _, _, hi, _⟩ | ⟨_, _, hi, _⟩
  · exact ha
  · exact absurd hi h
  · exact absurd hi h

theorem holdsBranch_of_noBranch {s : State} (h : ∀ i ∈ s.IS, kindOf i ≠ .beq) (slot : Option Nat) :
    s.holdsBranch slot = false := by
  cases slot with
  | none => rfl
  | some k =>
    cases hi : s.IS[k]? with
    | none => simp [State.holdsBranch, State.slotInstr, hi]
    | some i => simpa [State.holdsBranch, State.slotInstr, hi] using h i (List.mem_of_getElem? hi)

/-- Once Decode is empty and no branch is in Execute, the Decode and Fetch steps empty Fetch into Decode and fetch. -/
theorem movesOn_younger {s v : State} (hD : v.D = none) (hbr : v.holdsBranch v.E = false) (hIS : v.IS = s.IS) (hW : v.W = s.M)
    (hM : v.M = s.E) (hE : v.E = s.D) (hF : v.F = s.F) (hpc : v.pc = s.pc) (hcycle : v.cycle = s.cycle) :
    MovesOn s (fetchStep (decodeStep v)).countCycle := by
  rw [decodeStep_of_empty hD hbr]
  rcases fetchStep_cases { v with D := v.F, F := none } with ⟨-, hlt, h⟩ | ⟨hF' | hge, h⟩
  · have hlt : s.pc < s.IS.length := hpc ▸ hIS ▸ hlt
    rw [h]
    constructor <;> simp [*]
  · cases hF'
  · have hge : ¬s.pc < s.IS.length := Nat.not_lt.2 (hpc ▸ hIS ▸ hge)
    rw [h]
    constructor <;> simp [*]

theorem movesOn_of_step {s t : State} (hr : s.running = true) (h : step s = .next t) (ht : t.fault = none)
    (hstall : ¬s.stalls) (hbr : ∀ i ∈ s.IS, kindOf i ≠ .beq) : MovesOn s t := by
  have hs := ((running_iff s).1 hr).2
  cases (step_iff_runningStep hr).1 h with
  | memoryRaises hu hf => exact absurd ht (Option.isSome_iff_ne_none.1 hf)
  | decodeEmpty hu hf hD =>
    have hp := promoted_of_olderSteps hs hu
    exact movesOn_younger hD (by rw [hp.E]; rfl) hp.IS hp.W hp.M (by rw [hp.E, ← hp.D, hD]) hp.F hp.pc hp.cycle
  | stalled hu hf hD hi hz => exact absurd ⟨_, _, _, hu, hD, hi, hz⟩ hstall
  | executeRaises hu hf hD hi hz he hef => exact absurd ht (Option.isSome_iff_ne_none.1 hef)
  | executed hu hf hD hi hz he hef =>
    have hp := promoted_of_olderSteps hs hu
    obtain ⟨v, hv⟩ := executeAction_of_ne_beq (hbr _ (List.mem_of_getElem? (hp.IS ▸ hi))) _ (State.admitToExecute _ _)
    rw [hv] at he
    subst he
    exact movesOn_younger rfl (holdsBranch_of_noBranch (hp.IS ▸ hbr) _) hp.IS hp.W hp.M (hD.symm.trans hp.D) hp.F hp.pc hp.cycle

/-! ### The closed form -/

/-- The entry in the stage `j` places down the pipeline, Fetch being the first, after `n` cycles of a program of `N` entries of
which none waits: entry `k` is there in cycle `k + j`. -/
def entryInStage (N n j : Nat) : Option Nat := if j ≤ n ∧ n < N + j then some (n - j) else none

theorem entryInStage_succ (N n j : Nat) : entryInStage N (n + 1) (j + 1) = entryInStage N n j := by
  simp only [entryInStage, Nat.add_le_add_iff_right, Nat.add_sub_add_right]
  exact if_congr (by omega) rfl rfl

theorem entryInStage_eq_some {N n j k : Nat} (hk : k < N) : entryInStage N n j = some k ↔ n = k + j := by
  unfold entryInStage
  split
  · simp only [Option.some.injEq]
    omega
  · simp only [reduceCtorEq, false_iff]
    omega

theorem entryInStage_eq_none {N n j : Nat} : entryInStage N n j = none ↔ ¬(j ≤ n ∧ n < N + j) := by
  simp [entryInStage]

/-- The state after `n` cycles of a program of `N` entries of which none waits. -/
structure OnSchedule (N n : Nat) (s : State) : Prop where
  length : s.IS.length = N
  pc : s.pc = min n N
  F : s.F = entryInStage N n 1
  D : s.D = entryInStage N n 2
  E : s.E = entryInStage N n 3
  M : s.M = entryInStage N n 4
  W : s.W = entryInStage N n 5
  cycle : s.cycle = n

namespace OnSchedule

variable {N n : Nat} {s t : State}

theorem boot (cfg : Cfg) (prog : List Instr) : OnSchedule prog.length 0 (State.boot cfg prog) where
  length := rfl
  pc := (Nat.zero_min _).symm
  F := rfl
  D := rfl
  E := rfl
  M := rfl
  W := rfl
  cycle := rfl

theorem movesOn (h : OnSchedule N n s) (hm : MovesOn s t) : OnSchedule N (n + 1) t where
  length := by rw [hm.IS, h.length]
  pc := by
    rw [hm.pc, h.length, h.pc]
    split <;> omega
  F := by
    rw [hm.F, h.length, h.pc, entryInStage]
    split
    · rw [if_pos (by omega)]
      exact congrArg some (by omega)
    · rw [if_neg (by omega)]
  D := by rw [hm.D, h.F, entryInStage_succ]
  E := by rw [hm.E, h.D, entryInStage_succ]
  M := by rw [hm.M, h.E, entryInStage_succ]
  W := by rw [hm.W, h.M, entryInStage_succ]
  cycle := by rw [hm.cycle, h.cycle]

theorem drained_iff (h : OnSchedule N n s) (hN : 0 < N) : s.drained = true ↔ N + 4 ≤ n := by
  rw [Machine.drained_iff, h.F, h.D, h.E, h.M, h.pc, h.length]
  simp only [entryInStage_eq_none]
  omega

/-- An unfaulted run without branches and stalls is on schedule until it is drained. -/
theorem of_runsTo {cfg : Cfg} {prog : List Instr} (hne : prog ≠ []) (hbr : ∀ i ∈ prog, kindOf i ≠ .beq)
    (hstall : ∀ m u, m < n → runsTo m (State.boot cfg prog) u → ¬u.stalls) (h : runsTo n (State.boot cfg prog) t)
    (ht : t.fault = none) (hn : n ≤ prog.length + 4) : t.IS = prog ∧ OnSchedule prog.length n t := by
  induction n generalizing t with
  | zero =>
    obtain rfl := runsTo_zero.1 h
    exact ⟨rfl, boot cfg prog⟩
  | succ n ih =>
    obtain ⟨u, hu, hut⟩ := runsTo_succ_last.1 h
    have huf : u.fault = none := by
      obtain ⟨-, rfl⟩ | ⟨hr, -⟩ := step_next.1 hut
      · exact ht
      · exact ((running_iff u).1 hr).2
    obtain ⟨hIS, hsched⟩ := ih (fun m v hm => hstall m v (by omega)) hu huf (by omega)
    have hnd : u.drained = false := by
      rw [← Bool.not_eq_true, hsched.drained_iff (List.length_pos_iff.2 hne)]
      omega
    have hm := movesOn_of_step ((running_iff u).2 ⟨hnd, huf⟩) hut ht (hstall n u (by omega) hu) (hIS.symm ▸ hbr)
    exact ⟨hm.IS.trans hIS, hsched.movesOn hm⟩

end OnSchedule

/-- Settles O49: the run is on schedule, and the closed form answers when an entry is where. -/
theorem straightLineTiming : Obligations.StraightLineTiming := by
  intro cfg prog n t hbr hstall h ht hn
  refine ⟨fun hempty => ?_, fun hne => ?_⟩
  · subst hempty
    obtain rfl := runsTo_of_step_self (step_of_drained rfl) h
    exact ⟨rfl, rfl⟩
  · obtain ⟨-, hsched⟩ := OnSchedule.of_runsTo hne hbr hstall h ht hn
    refine ⟨hsched.cycle, ?_, fun k hk => ?_⟩
    · rw [hsched.drained_iff (List.length_pos_iff.2 hne)]
      omega
    · rw [hsched.F, hsched.D, hsched.E, hsched.M, hsched.W]
      exact ⟨entryInStage_eq_some hk, entryInStage_eq_some hk, entryInStage_eq_some hk, entryInStage_eq_some hk,
        entryInStage_eq_some hk⟩

end Sys2Proof.Machine

/-! The pipeline family, the rest: O4, O37, O40 to O44, O46, O47, O50. Each reads what it states off the five ways a running step
can go (`RunningStep`), with an equation for each thing a branch can do. -/

namespace Sys2Proof.Machine

/-! ### What a branch does in Execute (spec/43_branch.md R210 to R212, spec/60_exceptions.md R244) -/

theorem immWord_ne_zero {disp : Int} (hrange : immInRange disp = true) (h : disp ≠ 0) : immWord disp ≠ 0#32 := by
  obtain ⟨hlo, hhi⟩ := immInRange_iff.1 hrange
  intro hz
  have hint : (immWord disp).toInt = 0 := by rw [hz]; rfl
  rw [immWord, BitVec.toInt_ofInt, Int.bmod_def] at hint
  omega

theorem branchTarget_eq_some {n k t : Nat} {disp : Int} (h : (t : Int) * 4 = (k : Int) * 4 - disp) (ht : t ≤ n) :
    branchTarget n k disp = some t := by
  obtain rfl : disp = 4 * (k : Int) - 4 * (t : Int) := by omega
  exact branchTarget_sub ht

theorem branchTarget_eq_none {n k : Nat} {disp : Int}
    (h : disp % 4 ≠ 0 ∨ (k : Int) * 4 - disp < 0 ∨ (n : Int) * 4 < (k : Int) * 4 - disp) : branchTarget n k disp = none := by
  unfold branchTarget
  split
  · rfl
  · exact if_pos (by omega)

section

variable {rt rs : RegIx} {disp : Int} {s : State}

theorem beqExecute_notTaken (h : s.readReg rs ≠ s.readReg rt ∨ immWord disp = 0#32) (k : Nat) :
    beqExecute rt rs disp k s = s.setExResult 0#32 := by
  have hresult : s.branchResult rt rs disp = 0#32 := by
    unfold State.branchResult
    split
    · exact h.resolve_left (absurd ‹_›)
    · rfl
  simp [beqExecute, hresult]

theorem beqExecute_equal (h : s.readReg rs = s.readReg rt) (hne : immWord disp ≠ 0#32) (k : Nat) :
    beqExecute rt rs disp k s = branchTaken disp k (s.setExResult (immWord disp)) := by
  simp [beqExecute, State.branchResult, h, hne]

theorem beqExecute_taken (h : s.readReg rs = s.readReg rt) (hne : immWord disp ≠ 0#32) {k t : Nat}
    (ht : branchTarget s.IS.length k disp = some t) :
    beqExecute rt rs disp k s = (s.setExResult (immWord disp)).flushTo t := by
  rw [beqExecute_equal h hne]
  simp [branchTaken, ht]

theorem beqExecute_raises (h : s.readReg rs = s.readReg rt) (hne : immWord disp ≠ 0#32) {k : Nat}
    (ht : branchTarget s.IS.length k disp = none) :
    beqExecute rt rs disp k s = (s.setExResult (immWord disp)).raise .branchTarget k disp := by
  rw [beqExecute_equal h hne]
  simp [branchTaken, ht]

end

/-- An Execute action leaves Fetch, Decode and the cursor, or it is that of a taken branch and flushes. -/
theorem executeAction_front (i : Instr) (k : Nat) (s : State) : SameFront (executeAction i k s) s ∨
    ∃ rt rs disp t, i = .beq rt rs disp ∧ s.readReg rs = s.readReg rt ∧ immWord disp ≠ 0#32 ∧
      executeAction i k s = (s.setExResult (immWord disp)).flushTo t := by
  cases i with
  | beq rt rs disp =>
    by_cases h : s.readReg rs = s.readReg rt ∧ immWord disp ≠ 0#32
    · obtain ⟨hreg, hne⟩ := h
      cases ht : branchTarget s.IS.length k disp with
      | some t => exact .inr ⟨rt, rs, disp, t, rfl, hreg, hne, beqExecute_taken hreg hne ht⟩
      | none =>
        left
        rw [executeAction, beqExecute_raises hreg hne ht]
        exact ⟨rfl, rfl, rfl⟩
    · left
      rw [executeAction, beqExecute_notTaken (by tauto)]
      exact ⟨rfl, rfl, rfl⟩
  | _ => exact .inl ⟨rfl, rfl, rfl⟩

theorem executeAction_decodeEmpty {s : State} (hD : s.D = none) (i : Instr) (k : Nat) : (executeAction i k s).D = none := by
  rcases executeAction_front i k s with h | ⟨_, _, _, _, _, _, _, h⟩
  · rw [h.D, hD]
  · rw [h]
    rfl

/-! ### A cycle that admits an entry -/

theorem running_of_decode {s : State} {k : Nat} (hs : s.fault = none) (hD : s.D = some k) : s.running = true :=
  (running_iff s).2 ⟨(not_drained_iff s).2 (.inr (.inl (by simp [hD]))), hs⟩

/-- A step that admits an entry leaves it in Execute with its action's result, whether that raised or not. -/
theorem step_admits {s u : State} {k : Nat} {i : Instr} (hs : s.fault = none) (hu : olderSteps s = .next u)
    (hf : u.fault = none) (hD : u.D = some k) (hi : u.IS[k]? = some i) (hz : u.hazard i = false) :
    ∃ t, step s = .next t ∧ t.E = some k ∧ t.M = u.M ∧ t.W = u.W ∧
      t.exResult = (executeAction i k (u.admitToExecute k)).exResult ∧
      t.fault = (executeAction i k (u.admitToExecute k)).fault := by
  have hr := running_of_decode hs ((promoted_of_olderSteps hs hu).D ▸ hD)
  have hE := executeAction_E i k (u.admitToExecute k)
  have hk := executeAction_agrees i k (u.admitToExecute k)
  cases hef : (executeAction i k (u.admitToExecute k)).fault with
  | some f =>
    exact ⟨_, (step_iff_runningStep hr).2 (.executeRaises hu hf hD hi hz rfl (by simp [hef])), hE, hk.M, hk.W, rfl, hef⟩
  | none =>
    have hm := frontMoves_younger ((executeAction i k (u.admitToExecute k)).setServicing none)
    exact ⟨_, (step_iff_runningStep hr).2 (.executed hu hf hD hi hz rfl hef), hm.E.trans hE, hm.M.trans hk.M, hm.W.trans hk.W,
      hm.exResult, hm.fault.trans hef⟩

/-- The hazard predicate after the Writeback and Memory steps, in terms of the slots before them. -/
theorem hazard_iff_before {s u : State} (hp : Promoted s u) (i : Instr) : u.hazard i = true ↔ ∃ r ∈ srcsOf i,
    (∃ m j, s.E = some m ∧ s.IS[m]? = some j ∧ destOf j = some r) ∨
    (s.cfg.forwardingEnabled = false ∧ ∃ w j, s.M = some w ∧ s.IS[w]? = some j ∧ destOf j = some r) := by
  rw [hazardPredicateAsStated u i, hp.M, hp.W, hp.IS, hp.cfg]

/-- The entry in Decode stays in a running step unless it is admitted, which takes that it has no hazard. -/
theorem decode_stays {s t : State} (hr : s.running = true) (h : step s = .next t) {k : Nat} (hD : s.D = some k) :
    (t.D = some k ∧ t.E = none) ∨ ∃ u i, olderSteps s = .next u ∧ s.IS[k]? = some i ∧ u.hazard i = false := by
  have hs := ((running_iff s).1 hr).2
  cases (step_iff_runningStep hr).1 h with
  | memoryRaises hu hf =>
    have hp := promoted_of_olderSteps hs hu
    exact .inl ⟨hp.D.trans hD, hp.E⟩
  | decodeEmpty hu hf hD' =>
    have hp := promoted_of_olderSteps hs hu
    exact absurd (hD.symm.trans (hp.D.symm.trans hD')) nofun
  | stalled hu hf hD' hi hz =>
    have hp := promoted_of_olderSteps hs hu
    exact .inl ⟨(fetchStep_D _).trans (hp.D.trans hD), (frontMoves_fetchStep _).E.trans hp.E⟩
  | executeRaises hu hf hD' hi hz _ _ | executed hu hf hD' hi hz _ _ =>
    have hp := promoted_of_olderSteps hs hu
    obtain rfl : k = _ := Option.some.inj (hD.symm.trans (hp.D.symm.trans hD'))
    exact .inr ⟨_, _, hu, hp.IS ▸ hi, hz⟩

/-- Settles O41. -/
theorem hazardDecidesAdmissionToExecute : Obligations.HazardDecidesAdmissionToExecute := by
  refine ⟨fun s u k i hu hf hD hi => ?_, fun s t k m i j r hr hD hi hmem hj hdest hslot h => ?_⟩
  · obtain ⟨hs, -⟩ := olderSteps_unfaulted hu hf
    have hp := promoted_of_olderSteps hs hu
    have hi : u.IS[k]? = some i := by rw [hp.IS, hi]
    refine ⟨hazard_iff_before hp i, fun hz => ⟨hp.E, ?_⟩, fun hz => ?_⟩
    · exact (step_iff_runningStep (running_of_decode hs (hp.D.symm.trans hD))).2 (.stalled hu hf hD hi hz)
    · obtain ⟨t, ht, hE, hM, hW, hex, hfault⟩ := step_admits hs hu hf hD hi hz
      refine ⟨(executeAction i k (u.admitToExecute k)).setServicing (some .execute), t, ?_, ht, hE, hM, hW, hex, hfault⟩
      rw [exec_eq_perStage, perStage_execute rfl (k := k) rfl, ← executeAction_setServicing]
      rfl
  · have hs := ((running_iff s).1 hr).2
    obtain hstay | ⟨u, i', hu, hi', hz⟩ := decode_stays hr h hD
    · exact hstay
    · cases hi.symm.trans hi'
      have hz' : u.hazard i = true := (hazard_iff_before (promoted_of_olderSteps hs hu) i).2 ⟨r, hmem, by
        obtain hE | ⟨hfwd, hM⟩ := hslot
        · exact .inl ⟨m, j, hE, hj, hdest⟩
        · exact .inr ⟨hfwd, m, j, hM, hj, hdest⟩⟩
      exact absurd (hz.symm.trans hz') nofun

/-! ### How long a stall lasts -/

/-- An entry in Decode is admitted, or a fault ends the run, or it waits behind an entry in Execute or Memory while these move
on. -/
theorem decode_progress {s : State} {k : Nat} (hInv : s.Inv) (hs : s.fault = none) (hD : s.D = some k) :
    ∃ t, step s = .next t ∧ ((t.fault ≠ none ∨ t.E = some k) ∨
      (t.fault = none ∧ t.D = some k ∧ t.E = none ∧ t.M = s.E ∧ (s.E ≠ none ∨ s.M ≠ none))) := by
  obtain ⟨t, ht⟩ := stepAlwaysHasANextState s hInv
  refine ⟨t, ht, ?_⟩
  cases (step_iff_runningStep (running_of_decode hs hD)).1 ht with
  | memoryRaises hu hf => exact .inl (.inl (Option.isSome_iff_ne_none.1 hf))
  | decodeEmpty hu hf hD' =>
    exact absurd (hD.symm.trans ((promoted_of_olderSteps hs hu).D.symm.trans hD')) nofun
  | @stalled u k' i hu hf hD' hi hz =>
    have hp := promoted_of_olderSteps hs hu
    have hm := frontMoves_fetchStep u
    refine .inr ⟨hm.fault.trans hf, (fetchStep_D _).trans (hp.D.trans hD), hm.E.trans hp.E, hm.M.trans hp.M, ?_⟩
    simpa only [hp.M, hp.W] using occupied_of_hazard hz
  | executeRaises hu hf hD' hi hz he hef => exact .inl (.inl (Option.isSome_iff_ne_none.1 hef))
  | executed hu hf hD' hi hz he hef =>
    have hp := promoted_of_olderSteps hs hu
    obtain rfl : k = _ := Option.some.inj (hD.symm.trans (hp.D.symm.trans hD'))
    subst he
    exact .inl (.inr ((frontMoves_younger _).E.trans (executeAction_E _ _ _)))

/-- Settles O42: a stall empties Execute and takes what was there to Memory, so that after two stalls both are empty. -/
theorem everyStallEndsWithinTwoCycles : Obligations.EveryStallEndsWithinTwoCycles := by
  intro s k hInv hs hD
  obtain ⟨t₁, h₁, hdone | ⟨hs₁, hD₁, hE₁, -, -⟩⟩ := decode_progress hInv hs hD
  · exact ⟨0, s, t₁, by omega, runsTo_zero.2 rfl, h₁, hdone⟩
  have hInv₁ := stepKeepsTheInvariant s t₁ hInv h₁
  obtain ⟨t₂, h₂, hdone | ⟨hs₂, hD₂, hE₂, hM₂, -⟩⟩ := decode_progress hInv₁ hs₁ hD₁
  · exact ⟨1, t₁, t₂, by omega, runsTo_one h₁, h₂, hdone⟩
  have hInv₂ := stepKeepsTheInvariant t₁ t₂ hInv₁ h₂
  obtain ⟨t₃, h₃, hdone | ⟨-, -, -, -, hocc⟩⟩ := decode_progress hInv₂ hs₂ hD₂
  · exact ⟨2, t₂, t₃, by omega, runsTo_add (runsTo_one h₁) (runsTo_one h₂), h₃, hdone⟩
  · simp [hE₂, hM₂, hE₁] at hocc

/-! ### What a cycle moves -/

/-- Settles O43: a branch in Execute has been admitted in this cycle, which empties Decode, and keeps the Decode step from
filling it. -/
theorem branchInFlightBlocksDecode : Obligations.BranchInFlightBlocksDecode := by
  intro s t hr h hbr
  have hs := ((running_iff s).1 hr).2
  have notEmpty (hE : t.E = none) : t.D = none := by
    rw [hE] at hbr
    cases hbr
  cases (step_iff_runningStep hr).1 h with
  | memoryRaises hu hf => exact notEmpty (promoted_of_olderSteps hs hu).E
  | decodeEmpty hu hf hD => exact notEmpty ((frontMoves_younger _).E.trans (promoted_of_olderSteps hs hu).E)
  | stalled hu hf hD hi hz => exact notEmpty ((frontMoves_fetchStep _).E.trans (promoted_of_olderSteps hs hu).E)
  | executeRaises hu hf hD hi hz he hef =>
    subst he
    exact executeAction_decodeEmpty rfl _ _
  | @executed u e k i hu hf hD hi hz he hef =>
    have hm := frontMoves_younger (e.setServicing none)
    have hbr : (e.setServicing none).holdsBranch (e.setServicing none).E = true := by
      rw [State.holdsBranch, State.slotInstr, ← hm.E, ← hm.IS]
      exact hbr
    rw [decodeStep_blocked (.inr (.inr hbr))]
    subst he
    exact (fetchStep_D _).trans (executeAction_decodeEmpty rfl i k)

/-- `t` is `s` after the Decode and Fetch steps, as far as Fetch, Decode and the cursor go: entries move up, none is lost, and
what comes new into Fetch is the cursor's. -/
structure FrontAdvances (s t : State) : Prop where
  decode : t.D = none ∨ t.D = s.D ∨ (t.D = s.F ∧ s.F.isSome = true)
  fetch : t.F = none ∨ t.F = s.F ∨ (t.F = some (t.pc - 1) ∧ 0 < t.pc ∧ t.pc ≤ t.IS.length)
  keepsDecode : ∀ k, s.D = some k → t.D = some k
  keepsFetch : ∀ f, s.F = some f → t.F = some f ∨ t.D = some f

theorem FrontAdvances.refl (s : State) : FrontAdvances s s :=
  ⟨.inr (.inl rfl), .inr (.inl rfl), fun _ hk => hk, fun _ hf => .inl hf⟩

theorem frontAdvances_fetchStep (s : State) : FrontAdvances s (fetchStep s) := by
  rcases fetchStep_cases s with ⟨hF, hpc, h⟩ | ⟨-, h⟩ <;> rw [h]
  · exact ⟨.inr (.inl rfl), .inr (.inr ⟨rfl, Nat.succ_pos _, hpc⟩), fun _ hk => hk, by simp [hF]⟩
  · exact .refl s

theorem frontAdvances_younger (s : State) : FrontAdvances s (fetchStep (decodeStep s)) := by
  rcases decodeStep_cases s with ⟨hadm, h⟩ | ⟨-, h⟩ <;> rw [h]
  · obtain ⟨hD, hF, -⟩ := (decodeAdmits_iff s).1 hadm
    have hf := frontAdvances_fetchStep { s with D := s.F, F := none }
    have hD' : (fetchStep { s with D := s.F, F := none }).D = s.F := fetchStep_D _
    refine ⟨.inr (.inr ⟨hD', hF⟩), ?_, by simp [hD], fun f hf => .inr (hD'.trans hf)⟩
    obtain hF' | hF' | hF' := hf.fetch
    · exact .inl hF'
    · exact .inl hF'
    · exact .inr (.inr hF')
  · exact frontAdvances_fetchStep s

/-- The slots after a running step, as O40 states them. -/
structure SlotsAdvance (s t : State) : Prop where
  writeback : t.W = s.M
  memory : t.M = s.E
  execute : t.E = none ∨ t.E = s.D
  decodeLeaves : ∀ k, s.D = some k → t.D = some k ∨ t.E = some k
  decode : t.D = none ∨ t.D = s.D ∨ (t.D = s.F ∧ s.F.isSome = true)
  fetch : t.F = none ∨ t.F = s.F ∨ (t.F = some (t.pc - 1) ∧ 0 < t.pc ∧ t.pc ≤ t.IS.length)
  fetchLeaves : ∀ f, s.F = some f → t.F = some f ∨ t.D = some f ∨
    ∃ k rt rs disp, s.D = some k ∧ t.E = some k ∧ s.IS[k]? = some (.beq rt rs disp) ∧
      t.readReg rs = t.readReg rt ∧ t.exResult = BitVec.ofInt 32 disp ∧ t.exResult ≠ 0#32 ∧ t.fault = none

/-- A cycle that admits nothing. -/
theorem slotsAdvance_waits {s u t : State} (hp : Promoted s u) (hm : FrontMoves u t) (ha : FrontAdvances u t) :
    SlotsAdvance s t.countCycle where
  writeback := hm.W.trans hp.W
  memory := hm.M.trans hp.M
  execute := .inl (hm.E.trans hp.E)
  decodeLeaves k hk := .inl (ha.keepsDecode k (hp.D.trans hk))
  decode := hp.D ▸ hp.F ▸ ha.decode
  fetch := hp.F ▸ ha.fetch
  fetchLeaves f hf := (ha.keepsFetch f (hp.F.trans hf)).imp_right .inl

/-- A cycle that admits an entry which does not flush. -/
theorem slotsAdvance_admits {s u e t : State} {k : Nat} (hp : Promoted s u) (hD : u.D = some k)
    (hk : AgreesBeforeExecute u e) (hE : e.E = some k) (he : SameFront e (u.admitToExecute k)) (hm : FrontMoves e t)
    (ha : FrontAdvances e t) : SlotsAdvance s t.countCycle where
  writeback := hm.W.trans (hk.W.trans hp.W)
  memory := hm.M.trans (hk.M.trans hp.M)
  execute := .inr (hm.E.trans (hE.trans (hD.symm.trans hp.D)))
  decodeLeaves k' hk' := .inr (hm.E.trans (hE.trans (hD.symm.trans (hp.D.trans hk'))))
  decode := by
    have hF : e.F = s.F := he.F.trans hp.F
    have he : e.D = none := he.D
    obtain h | h | h := ha.decode
    · exact .inl h
    · exact .inl (h.trans he)
    · exact .inr (.inr (hF ▸ h))
  fetch := (he.F.trans hp.F : e.F = s.F) ▸ ha.fetch
  fetchLeaves f hf := (ha.keepsFetch f (he.F.trans (hp.F.trans hf))).imp_right .inl

/-- A cycle that admits a taken branch. -/
theorem slotsAdvance_flushes {s u e t : State} {k n : Nat} {rt rs : RegIx} {disp : Int} (hp : Promoted s u)
    (hf : u.fault = none) (hD : u.D = some k) (hi : u.IS[k]? = some (.beq rt rs disp)) (hreg : u.readReg rs = u.readReg rt)
    (hne : immWord disp ≠ 0#32)
    (he : e = (((u.admitToExecute k).setExResult (immWord disp)).flushTo n).setServicing none) (hm : FrontMoves e t)
    (ha : FrontAdvances e t) : SlotsAdvance s t.countCycle := by
  subst he
  have hsD : s.D = some k := hp.D.symm.trans hD
  have hE : t.E = some k := hm.E
  have hx := readReg_congr (s := t.countCycle) (t := u) hm.x
  exact {
    writeback := hm.W.trans hp.W
    memory := hm.M.trans hp.M
    execute := .inr (hE.trans hsD.symm)
    decodeLeaves := fun k' hk' => .inr (hE.trans (hsD.symm.trans hk'))
    decode := .inl (ha.decode.elim id fun h => h.elim id fun h => absurd h.2 nofun)
    fetch := ha.fetch.elim .inl fun h => h.elim .inl fun h => .inr (.inr h)
    fetchLeaves := fun f _ => .inr (.inr ⟨k, rt, rs, disp, hsD, hE, hp.IS ▸ hi, by rw [hx, hx, hreg], hm.exResult,
      fun h => hne (hm.exResult.symm.trans h), hm.fault.trans hf⟩) }

/-- Settles O40. -/
theorem slotsAdvanceOneStage : Obligations.SlotsAdvanceOneStage := by
  intro s t hr h
  have hs := ((running_iff s).1 hr).2
  suffices hadv : SlotsAdvance s t from ⟨hadv.writeback, hadv.memory, hadv.execute, hadv.decodeLeaves, hadv.decode, hadv.fetch,
    hadv.fetchLeaves⟩
  have admits {u v : State} {k : Nat} {i : Instr} (hp : Promoted s u) (hf : u.fault = none) (hD : u.D = some k)
      (hi : u.IS[k]? = some i) (hm : FrontMoves ((executeAction i k (u.admitToExecute k)).setServicing none) v)
      (ha : FrontAdvances ((executeAction i k (u.admitToExecute k)).setServicing none) v) : SlotsAdvance s v.countCycle := by
    rcases executeAction_front i k (u.admitToExecute k) with hfront | ⟨rt, rs, disp, n, rfl, hreg, hne, he⟩
    · exact slotsAdvance_admits (e := State.setServicing none _) hp hD { executeAction_agrees i k (u.admitToExecute k) with }
        (executeAction_E i k _) { hfront with } hm ha
    · exact slotsAdvance_flushes hp hf hD hi hreg hne (congrArg (State.setServicing none) he) hm ha
  cases (step_iff_runningStep hr).1 h with
  | memoryRaises hu hf => exact slotsAdvance_waits (promoted_of_olderSteps hs hu) (.refl _) (.refl _)
  | decodeEmpty hu hf hD =>
    exact slotsAdvance_waits (promoted_of_olderSteps hs hu) (frontMoves_younger _) (frontAdvances_younger _)
  | stalled hu hf hD hi hz =>
    exact slotsAdvance_waits (promoted_of_olderSteps hs hu) (frontMoves_fetchStep _) (frontAdvances_fetchStep _)
  | executeRaises hu hf hD hi hz he hef =>
    subst he
    exact admits (promoted_of_olderSteps hs hu) hf hD hi (.refl _) (.refl _)
  | executed hu hf hD hi hz he hef =>
    subst he
    exact admits (promoted_of_olderSteps hs hu) hf hD hi (frontMoves_younger _) (frontAdvances_younger _)

/-! ### Taken branches and faults -/

/-- Settles O44. -/
theorem takenBranchRefillsFromItsTarget : Obligations.TakenBranchRefillsFromItsTarget := by
  intro rt rs disp s u k t hu hf hD hi hz hreg hrange hdisp htarget hle
  obtain ⟨hs, -⟩ := olderSteps_unfaulted hu hf
  have hp := promoted_of_olderSteps hs hu
  have hr := running_of_decode hs (hp.D.symm.trans hD)
  have he : executeAction (.beq rt rs disp) k (u.admitToExecute k) =
      ((u.admitToExecute k).setExResult (immWord disp)).flushTo t :=
    beqExecute_taken (s := u.admitToExecute k) hreg (immWord_ne_zero hrange hdisp) (branchTarget_eq_some htarget (hp.IS ▸ hle))
  rw [(step_iff_runningStep hr).2 (.executed hu hf hD (hp.IS ▸ hi) hz he hf), decodeStep_blocked (.inr (.inl rfl))]
  rcases fetchStep_cases ((((u.admitToExecute k).setExResult (immWord disp)).flushTo t).setServicing none) with
    ⟨-, hlt, h⟩ | ⟨hF | hge, h⟩
  · have hlt : t < s.IS.length := hp.IS ▸ hlt
    rw [h, if_pos hlt, if_pos hlt, ← hp.cycle]
    rfl
  · cases hF
  · have hge : ¬t < s.IS.length := Nat.not_lt.2 (hp.IS ▸ hge)
    rw [h, if_neg hge, if_neg hge, ← hp.cycle]
    rfl

/-- Settles O47. -/
theorem branchFaultStopsTheCycle : Obligations.BranchFaultStopsTheCycle := by
  intro rt rs disp s u k hu hf hD hi hz hreg hrange hdisp htarget
  obtain ⟨hs, -⟩ := olderSteps_unfaulted hu hf
  have hp := promoted_of_olderSteps hs hu
  have hr := running_of_decode hs (hp.D.symm.trans hD)
  have he : executeAction (.beq rt rs disp) k (u.admitToExecute k) =
      ((u.admitToExecute k).setExResult (immWord disp)).raise .branchTarget k disp :=
    beqExecute_raises (s := u.admitToExecute k) hreg (immWord_ne_zero hrange hdisp) (branchTarget_eq_none (hp.IS ▸ htarget))
  rw [(step_iff_runningStep hr).2 (.executeRaises hu hf hD (hp.IS ▸ hi) hz he rfl), ← hp.cycle]
  rfl

theorem dataIndex_eq_none {v : Word} (h : v.toInt < 0 ∨ 31 < v.toInt) : dataIndex v = none :=
  if_neg (by omega)

/-- A load or store outside the memory raises and does nothing else. spec/60_exceptions.md R242. -/
theorem memoryAction_raises {i : Instr} {rt rs : RegIx} {off : Int} {u : State} (hi : i = .lw rt rs off ∨ i = .sw rt rs off)
    (hout : u.exResult.toInt < 0 ∨ 31 < u.exResult.toInt) (k : Nat) :
    memoryAction i k u = u.raise .memoryRange k u.exResult.toInt := by
  obtain rfl | rfl := hi
  · exact dataAccess_out k (dataIndex_eq_none hout)
  · exact dataAccess_out k (dataIndex_eq_none hout)

/-- Settles O46. -/
theorem memoryFaultStopsTheCycle : Obligations.MemoryFaultStopsTheCycle := by
  intro s k rt rs off hr hM hE hi hout
  have hs := ((running_iff s).1 hr).2
  obtain ⟨i, hentry, hkind⟩ : ∃ i, s.IS[k]? = some i ∧ (i = .lw rt rs off ∨ i = .sw rt rs off) := by
    obtain hi | hi := hi
    · exact ⟨_, hi, .inl rfl⟩
    · exact ⟨_, hi, .inr rfl⟩
  obtain ⟨w, hw⟩ := writebackStep_exists hM
  have hk := writebackStep_keeps hw
  simp only [State.mk.injEq] at hk
  refine ⟨w, hw, ?_, by simp [hk]⟩
  have hex : w.exResult = s.exResult := by simp [hk]
  have hcycle : w.cycle = s.cycle := by simp [hk]
  have hwE : w.E = some k := by simp [hk, hE]
  have hwi : w.IS[k]? = some i := by simp [hk, hentry]
  have hu := (olderSteps_next hs).2 ⟨w, hw, memoryStep_next.2 (.inr ⟨k, i, hwE, hwi, rfl⟩)⟩
  rw [memoryAction_raises (u := w.promoteToMemory) hkind (hex ▸ hout) k] at hu
  rw [(step_iff_runningStep hr).2 (.memoryRaises hu rfl), ← hex, ← hcycle, ← hwE]
  rfl

/-! ### The trace -/

@[simp] theorem slotEvent_none (s : State) (stage : Stage) : s.slotEvent stage none = none := rfl

theorem slotEvent_some {s : State} {k : Nat} (stage : Stage) (hk : k < s.IS.length) :
    s.slotEvent stage (some k) = some (.occupied (kindName (kindOf (s.IS.getD k .unknown))) k stage) := by
  simp [State.slotEvent, hk]

theorem stepTrace_of_running {s t : State} (hr : s.running = true) (h : step s = .next t) : stepTrace s = cycleTrace t := by
  rw [stepTrace, if_pos hr, ← step_of_running hr, h]

/-- Settles O50: in a state that meets the invariant every occupied slot has an event. -/
theorem traceOfACycle : Obligations.TraceOfACycle := by
  intro s t hInv h
  refine ⟨fun hr => ?_, fun hr f hf => ?_, fun hr hf => ⟨t.occupancy, ?_, ?_⟩⟩
  · simp [stepTrace, hr]
  · rw [stepTrace_of_running hr h, cycleTrace, hf]
  · rw [stepTrace_of_running hr h, cycleTrace, hf]
  · have hevent (p : Stage × Option Nat) (hp : t.slotInStore p.2) : (t.slotEvent p.1 p.2).toList =
        p.2.elim [] fun k => [.occupied (kindName (kindOf (t.IS.getD k .unknown))) k p.1] := by
      obtain ⟨stage, slot⟩ := p
      cases slot with
      | none => rfl
      | some k => simp [slotEvent_some stage (hp k rfl)]
    have hstore : ∀ p ∈ [(Stage.writeback, t.W), (.memory, t.M), (.execute, t.E), (.decode, t.D), (.fetch, t.F)],
        t.slotInStore p.2 := by
      simp [hInv.writebackInStore, hInv.memoryInStore, hInv.executeInStore, hInv.decodeInStore, hInv.fetchInStore]
    rw [State.occupancy, List.filterMap_eq_flatMap_toList]
    refine List.flatMap_congr fun p hp => (hevent p (hstore p hp)).trans ?_
    cases p.2 <;> rfl

/-! ### A store, then a load -/

/-- A `sw` run as a whole without a fault has stored at the index its address names. -/
theorem exec_sw_whole {rt rs : RegIx} {off : Int} {s t : State} (hserv : s.servicing = none) (hs : s.fault = none)
    (h : exec (.sw rt rs off) s = .next t) (ht : t.fault = none) : ∃ a, dataIndex (s.basePlusOffset rs off) = some a ∧
      t = (s.takeNext.setExResult (s.basePlusOffset rs off)).dmWrite a (s.readReg rt) := by
  rw [exec_eq_perStage, perStage_alone hserv, Host.Outcome.next.injEq] at h
  cases ha : dataIndex (s.basePlusOffset rs off) with
  | none =>
    have hm : memoryAction (.sw rt rs off) s.nextIndex (executeAction (.sw rt rs off) s.nextIndex s.takeNext) = _ :=
      dataAccess_out s.nextIndex ha
    rw [alone_memoryRaises hs hs (by rw [hm]; rfl), hm] at h
    exact absurd (h ▸ ht) nofun
  | some a =>
    have hm : memoryAction (.sw rt rs off) s.nextIndex (executeAction (.sw rt rs off) s.nextIndex s.takeNext) = _ :=
      dataAccess_in s.nextIndex ha
    have hmf := (congrArg State.fault hm).trans hs
    rw [alone_unfaulted hs hs hmf hmf, hm] at h
    exact ⟨a, rfl, h.symm⟩

/-- A `lw` run as a whole reads the word at the index its address names. -/
theorem exec_lw_whole {rt rs : RegIx} {off : Int} {s : State} {a : Nat} (hserv : s.servicing = none) (hs : s.fault = none)
    (ha : dataIndex (s.basePlusOffset rs off) = some a) : exec (.lw rt rs off) s =
      .next (((s.takeNext.setExResult (s.basePlusOffset rs off)).setMemResult (s.dmRead a)).writeReg rt (s.dmRead a)) := by
  have hm : memoryAction (.lw rt rs off) s.nextIndex (executeAction (.lw rt rs off) s.nextIndex s.takeNext) = _ :=
    dataAccess_in s.nextIndex ha
  have hmf := (congrArg State.fault hm).trans hs
  rw [exec_eq_perStage, perStage_alone hserv, alone_unfaulted hs hs hmf hmf, hm]
  rfl

/-- Settles O37: the load finds the base register, and so the index, as the store left it. -/
theorem storeThenLoadYieldsTheValueStored : Obligations.StoreThenLoadYieldsTheValueStored := by
  intro rt rt2 rs off s t u hwf hserv hs ht htf hu
  obtain ⟨a, ha, rfl⟩ := exec_sw_whole hserv hs ht htf
  rw [exec_lw_whole (s := (s.takeNext.setExResult _).dmWrite a _) hserv hs ha] at hu
  cases hu
  refine ⟨hs, ?_⟩
  rw [readReg_writeReg_same]
  exact Memory.read_write_same a (s.readReg rt) hwf

/-! ### The step as `exec` of the entry a slot names -/

theorem memoryStep_serves {w : State} {k : Nat} {i : Instr} (hE : w.E = some k) (hi : w.IS[k]? = some i) : memoryStep w =
    mapNext (State.setServicing none) (exec i { w with M := some k, E := none, servicing := some .memory }) := by
  simp [memoryStep, serviceSlot, service, State.promoteToMemory, State.setServicing, hE, hi]

theorem writebackStep_serves {s : State} {k : Nat} {i : Instr} (hM : s.M = some k) (hi : s.IS[k]? = some i) :
    writebackStep s =
      mapNext (State.setServicing none) (exec i { s with W := some k, M := none, servicing := some .writeback }) := by
  simp [writebackStep, serviceSlot, service, State.promoteToWriteback, State.setServicing, hM, hi]

theorem step_of_admission {s u : State} {k : Nat} {i : Instr} (hu : olderSteps s = .next u) (hf : u.fault = none)
    (hD : u.D = some k) (hi : u.IS[k]? = some i) (hz : u.hazard i = false) :
    step s = mapNext State.countCycle (thenStep
      (mapNext (State.setServicing none) (exec i { u with E := some k, D := none, servicing := some .execute }))
      youngerSteps) := by
  rw [step_of_olderSteps hu hf hD, executeStep_admits hD hi hz]

/-- The instruction `withFetchWord` places meets no hazard: nothing is in Memory or Writeback. -/
theorem hazard_withFetchWord (s : State) (nbits w : Nat) (i : Instr) : (s.withFetchWord nbits w).hazard i = false := by
  rw [← Bool.not_eq_true]
  intro hz
  obtain hM | hW := occupied_of_hazard hz
  · exact hM rfl
  · exact hW rfl

/-- Settles O4: a stage step serves the entry it promotes, and what is older has run or, for `withFetchWord`, is not there. -/
theorem stepRunsTheDecodedInstruction : Obligations.StepRunsTheDecodedInstruction := by
  refine ⟨fun s u k i hi hu hf hD hz => ?_, fun s w k i hs hi hw hE => ?_, fun s k i hs hi hM => ?_, fun s nbits w => ?_⟩
  · obtain ⟨hs, -⟩ := olderSteps_unfaulted hu hf
    exact step_of_admission hu hf hD ((promoted_of_olderSteps hs hu).IS ▸ hi) hz
  · have hr : s.running = true := (running_iff s).2 ⟨(not_drained_iff s).2 (by simp [hE]), hs⟩
    obtain ⟨-, hIS, -, hE', -, hf⟩ := writebackStep_frame hw
    rw [step_of_running hr, cycle, olderSteps, hw, thenStep_clear (hf.trans hs), memoryStep_serves (hE'.trans hE) (hIS ▸ hi)]
  · have hr : s.running = true := (running_iff s).2 ⟨(not_drained_iff s).2 (by simp [hM]), hs⟩
    rw [step_of_running hr, cycle, olderSteps, writebackStep_serves hM hi]
  · exact step_of_admission (u := s.withFetchWord nbits w) rfl rfl rfl rfl (hazard_withFetchWord s nbits w _)

end Sys2Proof.Machine

/-! The arithmetic family (spec/41_arithmetic.md): O20 to O22, O29, O32. `add` and `sub` are one R-type form with two operators.
What an instruction leaves is said twice for all seven forms: in a stage (`exec_stageFrame`), and, of what no cursor or slot
shows, in a stage or as a whole (`exec_keeps`). O29 and O32 read their frames off these two. -/

namespace Sys2Proof.Machine

/-! ### The results of `add`, `sub` and `addi` -/

/-- An R-type form completes, whatever its operator: its result goes through both stage results into `rd`.
spec/41_arithmetic.md R171, spec/40_pipeline.md R133, R135, R137. -/
theorem rType_completes (op : Word → Word → Word) (rd rs rt : RegIx) (sh : ShAmt) (s : State) (k : Nat) :
    let v := shiftLeft (op (s.readReg rs) (s.readReg rt)) sh
    let meaning := perStage (rTypeExecute op rs rt sh) forwardResult (commitResult rd)
    (s.servicing = some .execute → s.E = some k → meaning s = .next (s.setExResult v)) ∧
    (s.servicing = some .memory → s.M = some k → meaning s = .next (s.setMemResult s.exResult)) ∧
    (s.servicing = some .writeback → s.W = some k → meaning s = .next (s.writeReg rd s.memResult)) ∧
    (s.servicing = none → s.fault = none →
      meaning s = .next (((s.takeNext.setExResult v).setMemResult v).writeReg rd v)) := by
  refine ⟨perStage_execute, perStage_memory, perStage_writeback, fun hs hf => ?_⟩
  rw [perStage_alone hs, alone_unfaulted hf hf hf hf]
  rfl

/-- Settles O20. -/
theorem addCompletesWithItsResult : Obligations.AddCompletesWithItsResult :=
  fun rd rs rt sh s k => exec_eq_perStage (.add rd rs rt sh) s ▸ rType_completes (· + ·) rd rs rt sh s k

/-- Settles O21. -/
theorem subCompletesWithItsResult : Obligations.SubCompletesWithItsResult :=
  fun rd rs rt sh s k => exec_eq_perStage (.sub rd rs rt sh) s ▸ rType_completes (· - ·) rd rs rt sh s k

/-- Settles O22: the Memory and Writeback actions of `addi` are none. -/
theorem addiCompletesWithoutAnEffect : Obligations.AddiCompletesWithoutAnEffect := by
  intro rt rs imm s k
  rw [exec_eq_perStage]
  refine ⟨perStage_execute, perStage_memory, perStage_writeback, fun hs hf => ?_⟩
  rw [perStage_alone hs, alone_unfaulted hf hf hf hf]
  rfl

/-! ### What an instruction leaves, in a stage and as a whole -/

/-- Everything `exec` can answer as a next state, by the stage being serviced. -/
theorem exec_next {i : Instr} {s t : State} (h : exec i s = .next t) :
    ((s.servicing = some .fetch ∨ s.servicing = some .decode) ∧ t = s) ∨
    (s.servicing = some .execute ∧ ∃ k, s.E = some k ∧ t = executeAction i k s) ∨
    (s.servicing = some .memory ∧ ∃ k, s.M = some k ∧ t = memoryAction i k s) ∨
    (s.servicing = some .writeback ∧ ∃ k, s.W = some k ∧ t = writebackAction i k s) ∨
    (s.servicing = none ∧ t = alone (executeAction i) (memoryAction i) (writebackAction i) s) :=
  perStage_next ((exec_eq_perStage i s).symm.trans h)

/-- A property that the cursor and the slots play no part in. -/
def IgnoresSlots (P : State → Prop) : Prop :=
  ∀ (s : State) (pc : Nat) (F D E M W : Option Nat), P s → P { s with pc := pc, F := F, D := D, E := E, M := M, W := W }

theorem unlessFaulted_keeps {P : State → Prop} {f : State → State} (hf : ∀ u, P u → P (f u)) {s : State} (hs : P s) :
    P (unlessFaulted f s) := by
  unfold unlessFaulted
  split
  · exact hs
  · exact hf s hs

theorem holdOnFault_keeps {P : State → Prop} (hP : IgnoresSlots P) (k : Nat) {s : State} (hs : P s) : P (s.holdOnFault k) := by
  unfold State.holdOnFault
  split
  · exact hP s k s.F s.D s.E s.M s.W hs
  · exact hs

/-- What each of an instruction's three actions keeps, `exec` keeps, in a stage and, beside the slots and the cursor, as a
whole. -/
theorem exec_keeps {P : State → Prop} {i : Instr} {s t : State} (h : exec i s = .next t) (hP : IgnoresSlots P)
    (hexecute : ∀ k u, P u → P (executeAction i k u)) (hmemory : ∀ k u, P u → P (memoryAction i k u))
    (hwriteback : ∀ k u, P u → P (writebackAction i k u)) (hs : P s) : P t := by
  rcases exec_next h with ⟨-, rfl⟩ | ⟨-, k, -, rfl⟩ | ⟨-, k, -, rfl⟩ | ⟨-, k, -, rfl⟩ | ⟨-, rfl⟩
  · exact hs
  · exact hexecute k s hs
  · exact hmemory k s hs
  · exact hwriteback k s hs
  · have htake : P s.takeNext := hP s (s.nextIndex + 1) none none none none none hs
    exact holdOnFault_keeps hP _ (unlessFaulted_keeps (hwriteback _)
      (unlessFaulted_keeps (hmemory _) (unlessFaulted_keeps (hexecute _) htake)))

theorem keepsRun_refl (s : State) : keepsRun s s := ⟨rfl, rfl, rfl, rfl⟩

theorem keepsSlots_refl (s : State) : keepsSlots s s := ⟨rfl, rfl, rfl, rfl, rfl, rfl⟩

/-- `t` is `s` but for what an action of `i`, whatever its form, may change in the stage serviced: registers in Writeback; data
memory, `memResult` and the fault record in Memory; `exResult` in Execute and, if `i` is a branch, Fetch, Decode, the cursor
and the fault record. spec/40_pipeline.md R133, R135, R137. -/
structure StageFrame (i : Instr) (s t : State) : Prop where
  run : keepsRun s t
  E : t.E = s.E
  M : t.M = s.M
  W : t.W = s.W
  x : s.servicing ≠ some .writeback → t.x = s.x
  DM : s.servicing ≠ some .memory → t.DM = s.DM
  exResult : s.servicing ≠ some .execute → t.exResult = s.exResult
  memResult : s.servicing ≠ some .memory → t.memResult = s.memResult
  fault : s.servicing ≠ some .memory → kindOf i ≠ .beq ∨ s.servicing ≠ some .execute → t.fault = s.fault
  slots : kindOf i ≠ .beq ∨ s.servicing ≠ some .execute → keepsSlots s t

theorem StageFrame.refl (i : Instr) (s : State) : StageFrame i s s where
  run := keepsRun_refl s
  E := rfl
  M := rfl
  W := rfl
  x _ := rfl
  DM _ := rfl
  exResult _ := rfl
  memResult _ := rfl
  fault _ _ := rfl
  slots _ := keepsSlots_refl s

theorem stageFrame_execute {s : State} (hs : s.servicing = some .execute) (i : Instr) (k : Nat) :
    StageFrame i s (executeAction i k s) := by
  have branch_only {p : Prop} (hi : kindOf i = .beq) (h : kindOf i ≠ .beq ∨ s.servicing ≠ some .execute) : p :=
    h.elim (absurd hi) (absurd hs)
  rcases executeAction_cases i k s with ⟨v, h⟩ | ⟨v, n, -, hi, h⟩ | ⟨v, disp, hi, h⟩ <;> rw [h]
  · exact { StageFrame.refl i s with exResult := absurd hs }
  · exact { StageFrame.refl i s with exResult := absurd hs, fault := fun _ => branch_only hi, slots := branch_only hi }
  · exact { StageFrame.refl i s with exResult := absurd hs, fault := fun _ => branch_only hi, slots := branch_only hi }

theorem stageFrame_memory {s : State} (hs : s.servicing = some .memory) (i : Instr) (k : Nat) :
    StageFrame i s (memoryAction i k s) := by
  rcases memoryAction_cases i k s with h | ⟨v, h⟩ | ⟨rt, rs, off, a, -, -, h⟩ | ⟨-, h⟩ <;> rw [h]
  · exact .refl i s
  · exact { StageFrame.refl i s with memResult := absurd hs }
  · exact { StageFrame.refl i s with DM := absurd hs }
  · exact { StageFrame.refl i s with fault := absurd hs }

theorem stageFrame_writeback {s : State} (hs : s.servicing = some .writeback) (i : Instr) (k : Nat) :
    StageFrame i s (writebackAction i k s) := by
  rcases writebackAction_cases i k s with h | ⟨r, -, h⟩ <;> rw [h]
  · exact .refl i s
  · exact { StageFrame.refl i s with x := absurd hs }

/-- The frame of every instruction in every stage. -/
theorem exec_stageFrame {i : Instr} {s t : State} (h : exec i s = .next t) (hs : s.servicing ≠ none) : StageFrame i s t := by
  rcases exec_next h with ⟨-, rfl⟩ | ⟨hst, k, -, rfl⟩ | ⟨hst, k, -, rfl⟩ | ⟨hst, k, -, rfl⟩ | ⟨hst, -⟩
  · exact .refl i t
  · exact stageFrame_execute hst i k
  · exact stageFrame_memory hst i k
  · exact stageFrame_writeback hst i k
  · exact absurd hst hs

/-! ### The frame of `add` and `sub` -/

/-- `add` and `sub` differ in the operator of their Execute action alone. spec/41_arithmetic.md R172, R173. -/
theorem rType_actions {i : Instr} {rd rs rt : RegIx} {sh : ShAmt} (hi : i = .add rd rs rt sh ∨ i = .sub rd rs rt sh) :
    ∃ op, executeAction i = rTypeExecute op rs rt sh ∧ memoryAction i = forwardResult ∧ writebackAction i = commitResult rd := by
  obtain rfl | rfl := hi
  · exact ⟨_, rfl, rfl, rfl⟩
  · exact ⟨_, rfl, rfl, rfl⟩

/-- `t` is `s` but for register `rd`, the stage results, the slots and the cursor. -/
structure KeepsAllBut (rd : RegIx) (s t : State) : Prop where
  readReg : ∀ r, r ≠ rd → t.readReg r = s.readReg r
  DM : t.DM = s.DM
  fault : t.fault = s.fault
  run : keepsRun s t

theorem KeepsAllBut.writeReg {rd : RegIx} {s u : State} (h : KeepsAllBut rd s u) (v : Word) :
    KeepsAllBut rd s (u.writeReg rd v) :=
  { h with readReg := fun r hr => (readReg_writeReg_other u v hr).trans (h.readReg r hr) }

theorem exec_rType_keepsAllBut {i : Instr} {rd rs rt : RegIx} {sh : ShAmt} {s t : State}
    (hi : i = .add rd rs rt sh ∨ i = .sub rd rs rt sh) (h : exec i s = .next t) : KeepsAllBut rd s t := by
  obtain ⟨op, hexecute, hmemory, hwriteback⟩ := rType_actions hi
  apply exec_keeps (P := KeepsAllBut rd s) h
  case hP => exact fun _ _ _ _ _ _ _ hu => { hu with }
  case hexecute =>
    rw [hexecute]
    exact fun _ _ hu => { hu with }
  case hmemory =>
    rw [hmemory]
    exact fun _ _ hu => { hu with }
  case hwriteback =>
    rw [hwriteback]
    exact fun _ u hu => hu.writeReg u.memResult
  case hs => exact ⟨fun _ _ => rfl, rfl, rfl, keepsRun_refl s⟩

/-- Settles O29: what holds in a stage and as a whole is kept by each R-type action, and the rest is the frame of a stage. -/
theorem addAndSubChangeOnlyTheirDestination : Obligations.AddAndSubChangeOnlyTheirDestination := by
  intro rd rs rt sh i s t hi h
  have hkeep := exec_rType_keepsAllBut hi h
  have hstage := exec_stageFrame h
  have hkind : kindOf i ≠ .beq := by obtain rfl | rfl := hi <;> nofun
  exact ⟨hkeep.readReg, fun hs hw => readReg_congr ((hstage hs).x hw), dmRead_congr hkeep.DM, hkeep.fault, hkeep.run,
    fun hs => ⟨(hstage hs).slots (.inl hkind), (hstage hs).exResult, (hstage hs).memResult⟩⟩

/-! ### The frame of `addi`, `beq` and `Unknown` -/

/-- `addi`, `beq` and `Unknown` act in Execute at most. spec/41_arithmetic.md R174, spec/43_branch.md R210,
spec/44_unknown_and_system.md R230. -/
theorem noAction_behind_execute {i : Instr} {rt rs : RegIx} {v : Int}
    (hi : i = .addi rt rs v ∨ i = .beq rt rs v ∨ i = .unknown) : memoryAction i = noAction ∧ writebackAction i = noAction := by
  obtain rfl | rfl | rfl := hi <;> exact ⟨rfl, rfl⟩

theorem executeAction_of_unknown {i : Instr} (h : kindOf i = .unknown) : executeAction i = noAction := by
  cases i with
  | unknown => rfl
  | _ => cases h

section

variable {i : Instr} {s t : State} (hm : memoryAction i = noAction) (hw : writebackAction i = noAction)

include hm hw

/-- What the Execute action of such an instruction keeps, `exec` keeps. -/
theorem exec_keeps_of_execute {P : State → Prop} (h : exec i s = .next t) (hP : IgnoresSlots P)
    (hexecute : ∀ k u, P u → P (executeAction i k u)) (hs : P s) : P t := by
  apply exec_keeps h hP hexecute ?_ ?_ hs
  · rw [hm]
    exact fun _ _ hu => hu
  · rw [hw]
    exact fun _ _ hu => hu

/-- In any stage but Execute such an instruction does nothing. -/
theorem exec_idle (h : exec i s = .next t) (hs : s.servicing ≠ none) (hx : s.servicing ≠ some .execute) : t = s := by
  rcases exec_next h with ⟨-, ht⟩ | ⟨hst, -⟩ | ⟨-, k, -, ht⟩ | ⟨-, k, -, ht⟩ | ⟨hst, -⟩
  · exact ht
  · exact absurd hst hx
  · rw [ht, hm, noAction]
  · rw [ht, hw, noAction]
  · exact absurd hst hs

end

/-- `t` is `s` but for `exResult`, the fault record, the slots and the cursor. -/
structure KeepsData (s t : State) : Prop where
  x : t.x = s.x
  DM : t.DM = s.DM
  memResult : t.memResult = s.memResult
  run : keepsRun s t

/-- No Execute action changes more than that. -/
theorem KeepsData.executeAction {s u : State} (h : KeepsData s u) (i : Instr) (k : Nat) :
    KeepsData s (executeAction i k u) := by
  rcases executeAction_cases i k u with ⟨v, ha⟩ | ⟨v, n, -, -, ha⟩ | ⟨v, disp, -, ha⟩ <;> rw [ha]
  · exact { h with }
  · exact { h with }
  · exact { h with }

/-- Settles O32: the Execute action is all there is, and each clause is something it keeps. -/
theorem addiBeqAndUnknownChangeNoRegisterAndNoWord : Obligations.AddiBeqAndUnknownChangeNoRegisterAndNoWord := by
  intro rt rs v i s t hi h
  obtain ⟨hm, hw⟩ := noAction_behind_execute hi
  have hdata : KeepsData s t :=
    exec_keeps_of_execute (P := KeepsData s) hm hw h (fun _ _ _ _ _ _ _ hu => { hu with })
      (fun k u hu => hu.executeAction i k) ⟨rfl, rfl, rfl, keepsRun_refl s⟩
  have hfault (hkind : kindOf i ≠ .beq) : t.fault = s.fault := by
    refine exec_keeps_of_execute (P := fun u => u.fault = s.fault) hm hw h (fun _ _ _ _ _ _ _ hu => hu) (fun k u hu => ?_) rfl
    obtain ⟨v, hv⟩ := executeAction_of_ne_beq hkind k u
    rw [hv]
    exact hu
  have hresult (hkind : kindOf i = .unknown) : t.exResult = s.exResult := by
    refine exec_keeps_of_execute (P := fun u => u.exResult = s.exResult) hm hw h (fun _ _ _ _ _ _ _ hu => hu) ?_ rfl
    rw [executeAction_of_unknown hkind]
    exact fun _ _ hu => hu
  refine ⟨readReg_congr hdata.x, dmRead_congr hdata.DM, hdata.memResult, hdata.run, hfault, hresult, fun hs => ?_⟩
  have hstage := exec_stageFrame h hs
  refine ⟨hstage.E, hstage.M, hstage.W, fun hx => ?_, hstage.slots⟩
  obtain rfl := exec_idle hm hw h hs hx
  exact ⟨rfl, rfl⟩

end Sys2Proof.Machine

/-! The load and store family (spec/42_load_store.md): O23, O24, O30, O31. What `lw` and `sw` keep in a stage and as a whole is
kept by their data access, at an index or raising (`dataAccess_keeps`), and so by `exec` (`exec_keeps`). The one data word a
`sw` can change is `wordStored`, whichever way it runs. -/

namespace Sys2Proof.Machine

/-! ### The data access -/

theorem dataIndex_of_toInt {v : Word} {a : Nat} (ha : a ≤ 31) (hv : v.toInt = a) : dataIndex v = some a := by
  have hrange : 0 ≤ v.toInt ∧ v.toInt ≤ 31 := by omega
  rw [dataIndex, if_pos hrange, hv, Int.toNat_natCast]

/-- What the access at an index keeps, and a fault raised in its place, the data access keeps. spec/60_exceptions.md R242. -/
theorem dataAccess_keeps {P : State → Prop} {act : Nat → State → State} {k : Nat} {u : State}
    (hact : ∀ a, dataIndex u.exResult = some a → P (act a u)) (hraise : P (u.raise .memoryRange k u.exResult.toInt)) :
    P (dataAccess act k u) := by
  cases ha : dataIndex u.exResult with
  | some a => exact dataAccess_in k ha ▸ hact a ha
  | none => exact dataAccess_out k ha ▸ hraise

/-! ### The results of `lw` and `sw` -/

/-- In Memory an instruction with a data access makes it at the index `exResult` names. -/
theorem exec_memoryAccess {i : Instr} {act : Nat → State → State} {s : State} {k a : Nat}
    (hi : memoryAction i = dataAccess act) (hs : s.servicing = some .memory) (hk : s.M = some k)
    (ha : dataIndex s.exResult = some a) : exec i s = .next (act a s) := by
  rw [exec_eq_perStage, perStage_memory hs hk, hi, dataAccess_in k ha]

/-- Settles O23: each stage's action, and as a whole the three in turn. -/
theorem lwCompletesWithTheDataWord : Obligations.LwCompletesWithTheDataWord := by
  intro rt rs off s k a
  have hmemory : memoryAction (.lw rt rs off) = dataAccess loadWord := rfl
  exact ⟨perStage_execute, fun hs hk ha hv => exec_memoryAccess hmemory hs hk (dataIndex_of_toInt ha hv), perStage_writeback,
    fun hs hf ha hv => exec_lw_whole hs hf (dataIndex_of_toInt ha hv)⟩

/-- A `sw` run as a whole stores at the index its address names. -/
theorem exec_sw_stores {rt rs : RegIx} {off : Int} {s : State} {a : Nat} (hserv : s.servicing = none) (hs : s.fault = none)
    (ha : dataIndex (s.basePlusOffset rs off) = some a) : exec (.sw rt rs off) s =
      .next ((s.takeNext.setExResult (s.basePlusOffset rs off)).dmWrite a (s.readReg rt)) := by
  have hm : memoryAction (.sw rt rs off) s.nextIndex (executeAction (.sw rt rs off) s.nextIndex s.takeNext) = _ :=
    dataAccess_in s.nextIndex ha
  have hmf := (congrArg State.fault hm).trans hs
  rw [exec_eq_perStage, perStage_alone hserv, alone_unfaulted hs hs hmf hmf, hm]
  rfl

/-- Settles O24: as O23, the Writeback action being none. -/
theorem swCompletesWithTheStore : Obligations.SwCompletesWithTheStore := by
  intro rt rs off s k a
  have hmemory : memoryAction (.sw rt rs off) = dataAccess (storeWord rt) := rfl
  exact ⟨perStage_execute, fun hs hk ha hv => exec_memoryAccess hmemory hs hk (dataIndex_of_toInt ha hv), perStage_writeback,
    fun hs hf ha hv => exec_sw_stores hs hf (dataIndex_of_toInt ha hv)⟩

/-! ### The frame of `lw` -/

/-- `t` is `s` but for register `rt`, the stage results, the fault record, the slots and the cursor. -/
structure LoadFrame (rt : RegIx) (s t : State) : Prop where
  readReg : ∀ r, r ≠ rt → t.readReg r = s.readReg r
  DM : t.DM = s.DM
  run : keepsRun s t

theorem LoadFrame.writeReg {rt : RegIx} {s u : State} (h : LoadFrame rt s u) (v : Word) : LoadFrame rt s (u.writeReg rt v) :=
  { h with readReg := fun r hr => (readReg_writeReg_other u v hr).trans (h.readReg r hr) }

theorem exec_lw_loadFrame {rt rs : RegIx} {off : Int} {s t : State} (h : exec (.lw rt rs off) s = .next t) :
    LoadFrame rt s t := by
  apply exec_keeps (P := LoadFrame rt s) h
  case hP => exact fun _ _ _ _ _ _ _ hu => { hu with }
  case hexecute => exact fun _ _ hu => { hu with }
  case hmemory => exact fun _ _ hu => dataAccess_keeps (P := LoadFrame rt s) (fun _ _ => { hu with }) { hu with }
  case hwriteback => exact fun _ u hu => hu.writeReg u.memResult
  case hs => exact ⟨fun _ _ => rfl, rfl, keepsRun_refl s⟩

/-- Settles O30: what holds in a stage and as a whole is kept by each action of `lw`, and the rest is the frame of a stage. -/
theorem lwChangesOnlyItsTarget : Obligations.LwChangesOnlyItsTarget := by
  intro rt rs off s t h
  have hkeep := exec_lw_loadFrame h
  have hstage := exec_stageFrame h
  have hkind : kindOf (.lw rt rs off) ≠ .beq := nofun
  exact ⟨hkeep.readReg, fun hs hw => readReg_congr ((hstage hs).x hw), dmRead_congr hkeep.DM, hkeep.run,
    fun hs => ⟨(hstage hs).slots (.inl hkind), fun hm => (hstage hs).fault hm (.inl hkind), (hstage hs).exResult,
      (hstage hs).memResult⟩⟩

/-! ### The frame of `sw` -/

/-- `t` is `s` but for the data memory, `exResult`, the fault record, the slots and the cursor. -/
structure StoreFrame (s t : State) : Prop where
  x : t.x = s.x
  memResult : t.memResult = s.memResult
  run : keepsRun s t

theorem exec_sw_storeFrame {rt rs : RegIx} {off : Int} {s t : State} (h : exec (.sw rt rs off) s = .next t) :
    StoreFrame s t := by
  apply exec_keeps (P := StoreFrame s) h
  case hP => exact fun _ _ _ _ _ _ _ hu => { hu with }
  case hexecute => exact fun _ _ hu => { hu with }
  case hmemory => exact fun _ _ hu => dataAccess_keeps (P := StoreFrame s) (fun _ _ => { hu with }) { hu with }
  case hwriteback => exact fun _ _ hu => hu
  case hs => exact ⟨rfl, rfl, keepsRun_refl s⟩

/-- The data word a `sw` to base `rs` plus `off` stores to, if any: the one `exResult` names in Memory, the one its effective
address names as a whole, none in another stage. spec/42_load_store.md R190, R192. -/
def State.wordStored (s : State) (rs : RegIx) (off : Int) : Option Nat :=
  match s.servicing with
  | some .memory => dataIndex s.exResult
  | none => dataIndex (s.basePlusOffset rs off)
  | some _ => none

theorem wordStored_memory {s : State} (hs : s.servicing = some .memory) (rs : RegIx) (off : Int) :
    s.wordStored rs off = dataIndex s.exResult := by
  simp [State.wordStored, hs]

theorem wordStored_whole {s : State} (hs : s.servicing = none) (rs : RegIx) (off : Int) :
    s.wordStored rs off = dataIndex (s.basePlusOffset rs off) := by
  simp [State.wordStored, hs]

theorem dmRead_dataAccess_storeWord (rt : RegIx) (k : Nat) {u : State} {b : Nat} (hb : dataIndex u.exResult ≠ some b) :
    (dataAccess (storeWord rt) k u).dmRead b = u.dmRead b :=
  dataAccess_keeps (P := fun t => t.dmRead b = u.dmRead b)
    (fun a ha => Memory.read_write_other u.DM (u.readReg rt) (a := a) fun hba => hb (hba ▸ ha)) rfl

/-- The whole passage of an instruction in a state that already holds a fault runs none of its actions. -/
theorem alone_raised {a b c : Nat → State → State} {s : State} (h : s.fault.isSome = true) :
    alone a b c s = { s.takeNext with pc := s.nextIndex } := by
  simp [alone, h]

theorem dmRead_alone_sw {rt rs : RegIx} {off : Int} {s : State} {b : Nat}
    (hb : dataIndex (s.basePlusOffset rs off) ≠ some b) :
    (alone (addressExecute rs off) (dataAccess (storeWord rt)) noAction s).dmRead b = s.dmRead b := by
  cases hf : s.fault with
  | some f =>
    rw [alone_raised (by simp [hf])]
    rfl
  | none =>
    rw [alone_clear hf, unlessFaulted_clear (s := addressExecute rs off s.nextIndex s.takeNext) hf]
    have hmemory := dmRead_dataAccess_storeWord rt s.nextIndex (u := addressExecute rs off s.nextIndex s.takeNext) hb
    refine holdOnFault_keeps (P := fun u => u.dmRead b = s.dmRead b) (fun _ _ _ _ _ _ _ hu => hu) _ ?_
    exact unlessFaulted_keeps (P := fun u => u.dmRead b = s.dmRead b) (fun _ hu => hu) hmemory

theorem exec_sw_dmRead {rt rs : RegIx} {off : Int} {s t : State} {b : Nat} (h : exec (.sw rt rs off) s = .next t)
    (hb : s.wordStored rs off ≠ some b) : t.dmRead b = s.dmRead b := by
  rcases exec_next h with ⟨-, rfl⟩ | ⟨-, k, -, rfl⟩ | ⟨hs, k, -, rfl⟩ | ⟨-, k, -, rfl⟩ | ⟨hs, rfl⟩
  · rfl
  · rfl
  · exact dmRead_dataAccess_storeWord rt k (wordStored_memory hs rs off ▸ hb)
  · rfl
  · exact dmRead_alone_sw (wordStored_whole hs rs off ▸ hb)

/-- What holds off an optional index holds off the index where there is one, and everywhere where there is none. -/
theorem forall_ne_and_forall_of_ne_some {P : Nat → Prop} {i : Option Nat} (h : ∀ b, i ≠ some b → P b) :
    (∀ a, i = some a → ∀ b, b ≠ a → P b) ∧ (i = none → ∀ b, P b) := by
  refine ⟨?_, ?_⟩
  · rintro a rfl b hba
    exact h b fun hab => hba (Option.some.inj hab).symm
  · rintro rfl b
    exact h b nofun

/-- Settles O31: the data memory by the word stored, the rest as for `lw`. -/
theorem swChangesOnlyTheWordStored : Obligations.SwChangesOnlyTheWordStored := by
  intro rt rs off s t h
  have hkeep := exec_sw_storeFrame h
  have hstage := exec_stageFrame h
  have hkind : kindOf (.sw rt rs off) ≠ .beq := nofun
  refine ⟨readReg_congr hkeep.x, hkeep.memResult, hkeep.run, fun hs => ?memory, fun hs => ?whole,
    fun hm hs => dmRead_congr ((hstage hs).DM hm),
    fun hs => ⟨(hstage hs).slots (.inl hkind), fun hm => (hstage hs).fault hm (.inl hkind), (hstage hs).exResult⟩⟩
  case memory => exact forall_ne_and_forall_of_ne_some fun b hb => exec_sw_dmRead h (wordStored_memory hs rs off ▸ hb)
  case whole => exact forall_ne_and_forall_of_ne_some fun b hb => exec_sw_dmRead h (wordStored_whole hs rs off ▸ hb)

end Sys2Proof.Machine

/-! The branch family (spec/43_branch.md): O26, O27, O45. When a branch has a target, and which, is said once in both directions
(`branchTarget_eq_none_iff`, `branchTarget_eq_some_iff`). A `beq` acts in Execute alone, so in that stage and as a whole its
meaning is the outcome of `beqExecute`, not taken, taken or raising (`exec_beq_execute`, `exec_beq_whole`,
`exec_beq_whole_raises`). -/

namespace Sys2Proof.Machine

/-! ### The target of a branch (spec/43_branch.md R211) -/

/-- An aligned displacement that stays inside the program names an entry, or the index one past the last. -/
theorem exists_entry_of_inside {n k : Nat} {disp : Int}
    (h : ¬(disp % 4 ≠ 0 ∨ (k : Int) - disp / 4 < 0 ∨ (k : Int) - disp / 4 > n)) :
    ∃ t : Nat, (t : Int) * 4 = (k : Int) * 4 - disp ∧ t ≤ n :=
  ⟨((k : Int) - disp / 4).toNat, by omega, by omega⟩

theorem branchTarget_eq_none_iff {n k : Nat} {disp : Int} : branchTarget n k disp = none ↔
    disp % 4 ≠ 0 ∨ (k : Int) - disp / 4 < 0 ∨ (k : Int) - disp / 4 > n := by
  refine ⟨fun hnone => ?_, fun hout => branchTarget_eq_none (by omega)⟩
  by_contra hinside
  obtain ⟨t, htarget, hle⟩ := exists_entry_of_inside hinside
  exact absurd (hnone.symm.trans (branchTarget_eq_some htarget hle)) nofun

theorem branchTarget_eq_some_iff {n k t : Nat} {disp : Int} :
    branchTarget n k disp = some t ↔ (t : Int) * 4 = (k : Int) * 4 - disp ∧ t ≤ n := by
  refine ⟨fun hsome => ?_, fun ⟨htarget, hle⟩ => branchTarget_eq_some htarget hle⟩
  have hnotNone : branchTarget n k disp ≠ none := Option.ne_none_iff_exists'.2 ⟨t, hsome⟩
  obtain ⟨u, htarget, hle⟩ := exists_entry_of_inside (mt branchTarget_eq_none_iff.2 hnotNone)
  obtain rfl : t = u := Option.some.inj (hsome.symm.trans (branchTarget_eq_some htarget hle))
  exact ⟨htarget, hle⟩

/-- Settles O45. -/
theorem branchTargetAsStated : Obligations.BranchTargetAsStated :=
  fun _ _ _ => ⟨branchTarget_eq_none_iff, fun _ => branchTarget_eq_some_iff⟩

/-! ### A `beq` in Execute and as a whole (spec/43_branch.md R210, R212, R213) -/

section

variable {rt rs : RegIx} {disp : Int} {s : State}

theorem exec_beq_execute {k : Nat} (hserv : s.servicing = some .execute) (hk : s.E = some k) :
    exec (.beq rt rs disp) s = .next (beqExecute rt rs disp k s) :=
  perStage_execute hserv hk

/-- Run as a whole without raising, a `beq` is its Execute action on the entry taken out. -/
theorem exec_beq_whole {e : State} (hserv : s.servicing = none) (hs : s.fault = none)
    (he : executeAction (.beq rt rs disp) s.nextIndex s.takeNext = e) (hef : e.fault = none) :
    exec (.beq rt rs disp) s = .next e := by
  subst he
  rw [exec_eq_perStage, perStage_alone hserv, alone_unfaulted hs hef hef hef]
  rfl

/-- Run as a whole and raising, a `beq` is its Execute action with the cursor held at the entry. -/
theorem exec_beq_whole_raises {e : State} (hserv : s.servicing = none) (hs : s.fault = none)
    (he : executeAction (.beq rt rs disp) s.nextIndex s.takeNext = e) (hef : e.fault.isSome = true) :
    exec (.beq rt rs disp) s = .next { e with pc := s.nextIndex } := by
  subst he
  rw [exec_eq_perStage, perStage_alone hserv, alone_executeRaises hs hef]

/-- A displacement of 0 gives the result of registers that differ. spec/43_branch.md R210, R212. -/
theorem beqExecute_differsOrZero (h : s.readReg rs ≠ s.readReg rt ∨ disp = 0) (k : Nat) :
    beqExecute rt rs disp k s = s.setExResult 0#32 :=
  beqExecute_notTaken (h.imp_right (congrArg immWord)) k

end

/-- Settles O26: in Execute and as a whole it is `beqExecute`, not taken or taken; the two other actions are none. -/
theorem beqCompletesTakenOrNot : Obligations.BeqCompletesTakenOrNot := by
  intro rt rs disp s k t
  refine ⟨fun hserv hk => ⟨fun h => ?execute_notTaken, fun hreg hrange hdisp htarget hle => ?execute_taken⟩, perStage_memory,
    perStage_writeback,
    fun hserv hs => ⟨fun h => ?whole_notTaken, fun hreg hrange hdisp htarget hle => ?whole_taken⟩⟩
  case execute_notTaken =>
    rw [exec_beq_execute hserv hk, beqExecute_differsOrZero h]
    rfl
  case execute_taken =>
    rw [exec_beq_execute hserv hk, beqExecute_taken hreg (immWord_ne_zero hrange hdisp) (branchTarget_eq_some htarget hle)]
    rfl
  case whole_notTaken => exact exec_beq_whole hserv hs (beqExecute_differsOrZero (s := s.takeNext) h _) hs
  case whole_taken =>
    exact exec_beq_whole hserv hs (beqExecute_taken (s := s.takeNext) hreg (immWord_ne_zero hrange hdisp)
      (branchTarget_eq_some htarget hle)) hs

/-- Settles O27: there is no target, so `beqExecute` raises, and as a whole the fault holds the cursor at the entry. -/
theorem takenBeqOutsideTheProgramRaises : Obligations.TakenBeqOutsideTheProgramRaises := by
  intro rt rs disp s k hreg hrange hdisp hout
  have hne := immWord_ne_zero hrange hdisp
  have htarget : branchTarget s.IS.length k disp = none := branchTarget_eq_none hout
  refine ⟨fun hserv hk => ?execute, fun hserv hs hnext => ?whole⟩
  case execute =>
    rw [exec_beq_execute hserv hk, beqExecute_raises hreg hne htarget]
    rfl
  case whole =>
    subst hnext
    exact exec_beq_whole_raises hserv hs (beqExecute_raises (s := s.takeNext) hreg hne htarget) rfl

end Sys2Proof.Machine

/-! The unknown-instruction family (spec/44_unknown_and_system.md): O28. -/

namespace Sys2Proof.Machine

/-- Its three actions do nothing and raise nothing, so the cursor stays past the entry. spec/44_unknown_and_system.md R230. -/
theorem exec_unknown_whole {s : State} (hserv : s.servicing = none) (hs : s.fault = none) :
    exec .unknown s = .next s.takeNext := by
  rw [exec_eq_perStage, perStage_alone hserv, alone_unfaulted hs hs hs hs]
  rfl

/-- Settles O28: the action of each stage is `noAction`, and the three in turn leave the entry taken out. -/
theorem unknownCompletesWithoutAnEffect : Obligations.UnknownCompletesWithoutAnEffect :=
  fun _ _ => ⟨perStage_execute, perStage_memory, perStage_writeback, exec_unknown_whole⟩

end Sys2Proof.Machine

/-! The exceptions family (spec/60_exceptions.md): O25. `lw` and `sw` share their Execute action, the effective address
(`executeAction_loadOrStore`), and outside the memory their Memory action, the fault (`memoryAction_raises`). -/

namespace Sys2Proof.Machine

section

variable {i : Instr} {rt rs : RegIx} {off : Int} {s : State}

/-- The Execute action of a load or store writes its effective address. spec/42_load_store.md R190. -/
theorem executeAction_loadOrStore (hi : i = .lw rt rs off ∨ i = .sw rt rs off) (k : Nat) (u : State) :
    executeAction i k u = u.setExResult (u.basePlusOffset rs off) := by
  obtain rfl | rfl := hi
  · rfl
  · rfl

/-- In Memory a load or store outside the memory does nothing but raise. spec/60_exceptions.md R241, R242. -/
theorem exec_loadOrStore_memory_raises {k : Nat} (hi : i = .lw rt rs off ∨ i = .sw rt rs off)
    (hserv : s.servicing = some .memory) (hk : s.M = some k) (hout : s.exResult.toInt < 0 ∨ 31 < s.exResult.toInt) :
    exec i s = .next (s.raise .memoryRange k s.exResult.toInt) := by
  rw [exec_eq_perStage, perStage_memory hserv hk, memoryAction_raises hi hout]

/-- Run as a whole outside the memory, a load or store leaves its address and the fault, with the cursor held at the entry.
spec/40_pipeline.md R160. -/
theorem exec_loadOrStore_whole_raises (hi : i = .lw rt rs off ∨ i = .sw rt rs off) (hserv : s.servicing = none)
    (hs : s.fault = none) (hout : (s.basePlusOffset rs off).toInt < 0 ∨ 31 < (s.basePlusOffset rs off).toInt) :
    exec i s = .next { (s.takeNext.setExResult (s.basePlusOffset rs off)).raise .memoryRange s.nextIndex
      (s.basePlusOffset rs off).toInt with pc := s.nextIndex } := by
  have he : executeAction i s.nextIndex s.takeNext = s.takeNext.setExResult (s.basePlusOffset rs off) :=
    executeAction_loadOrStore hi s.nextIndex s.takeNext
  have hm := memoryAction_raises (u := s.takeNext.setExResult (s.basePlusOffset rs off)) hi hout s.nextIndex
  rw [exec_eq_perStage, perStage_alone hserv, alone_memoryRaises hs (by rw [he]; exact hs) (by rw [he, hm]; rfl), he, hm]
  rfl

end

/-- Settles O25: in Memory and as a whole the access finds no data word and raises. -/
theorem loadAndStoreOutsideTheMemoryRaise : Obligations.LoadAndStoreOutsideTheMemoryRaise :=
  fun _ _ _ _ _ _ hi => ⟨exec_loadOrStore_memory_raises hi, exec_loadOrStore_whole_raises hi⟩

end Sys2Proof.Machine

/-! The reset and hazards family (spec/70_reset_and_hazards.md): O5, O7, O48. For O48 a lone instruction is followed through the
stages: in each one the cycle runs its stage action on the state `exec` of it as a whole has there, but for what
`State.standing` overwrites, which no stage action reads. -/

namespace Sys2Proof.Machine

/-! ### Reset and the first cycle -/

/-- Settles O7: `State.reset` is the start with the default configuration and no program. -/
theorem resetMeetsTheInvariant : Obligations.ResetMeetsTheInvariant := ⟨inv_boot {} [], inv_boot⟩

/-- With Execute and Memory empty there is nothing to write back and nothing to access. spec/40_pipeline.md R132, R134. -/
theorem olderSteps_of_empty {s : State} (hs : s.fault = none) (hE : s.E = none) (hM : s.M = none) :
    olderSteps s = .next s.promoteToWriteback.promoteToMemory :=
  (olderSteps_next hs).2 ⟨_, writebackStep_next.2 (.inl ⟨hM, rfl⟩), memoryStep_next.2 (.inl ⟨hE, rfl⟩)⟩

/-- Settles O5: with every slot empty, the Fetch step is the only one that finds something to do. -/
theorem firstCycleFetchesEntryZero : Obligations.FirstCycleFetchesEntryZero := by
  intro cfg prog hne
  have hlen : 0 < prog.length := List.length_pos_iff.2 hne
  have hr : (State.boot cfg prog).running = true :=
    (running_iff _).2 ⟨(not_drained_iff _).2 (.inr (.inr (.inr (.inr hlen)))), rfl⟩
  have holder : olderSteps (State.boot cfg prog) = .next (State.boot cfg prog) := olderSteps_of_empty rfl rfl rfl
  have hstep := (step_iff_runningStep hr).2 (.decodeEmpty holder rfl rfl)
  rw [decodeStep_blocked (.inr (.inl rfl))] at hstep
  obtain ⟨-, -, hfetch⟩ | ⟨hF | hend, -⟩ := fetchStep_cases (State.boot cfg prog)
  · rw [hstep, hfetch]
    rfl
  · cases hF
  · exact absurd hlen (Nat.not_lt.2 hend)

/-! ### An instruction run as a whole without a fault -/

theorem unlessFaulted_unfaulted {f : State → State} {s : State} (h : (unlessFaulted f s).fault = none) :
    s.fault = none ∧ unlessFaulted f s = f s := by
  cases hs : s.fault with
  | none => exact ⟨rfl, unlessFaulted_clear hs f⟩
  | some r =>
    rw [unlessFaulted_raised (by simp [hs]), hs] at h
    cases h

/-- Where an instruction run as a whole leaves no fault, its three actions ran one after the other and none raised. -/
theorem exec_whole_unfaulted {i : Instr} {s u : State} {k : Nat} (hk : s.nextIndex = k) (hserv : s.servicing = none)
    (h : exec i s = .next u) (hu : u.fault = none) :
    (executeAction i k s.takeNext).fault = none ∧ (memoryAction i k (executeAction i k s.takeNext)).fault = none ∧
    u = writebackAction i k (memoryAction i k (executeAction i k s.takeNext)) := by
  rw [exec_eq_perStage, perStage_alone hserv] at h
  cases h
  rw [alone, State.holdOnFault_fault, hk] at hu
  obtain ⟨hm, hwriteback⟩ := unlessFaulted_unfaulted hu
  obtain ⟨he, hmemory⟩ := unlessFaulted_unfaulted hm
  obtain ⟨-, hexecute⟩ := unlessFaulted_unfaulted he
  refine ⟨hexecute ▸ he, hexecute ▸ hmemory ▸ hm, ?_⟩
  rw [alone, hk, holdOnFault_clear hu, hwriteback, hmemory, hexecute]

/-! ### What no stage action reads -/

/-- `s` with these entries in Execute, Memory and Writeback, after `n` cycles, no stage being serviced. -/
def State.standing (E M W : Option Nat) (n : Nat) (s : State) : State :=
  { s with E := E, M := M, W := W, cycle := n, servicing := none }

section

variable (i : Instr) (k : Nat) {s : State} (E M W : Option Nat) (n : Nat)

/-- A branch is left out because it can raise, and the record holds the cycle. -/
theorem executeAction_standing (hi : kindOf i ≠ .beq) :
    executeAction i k (s.standing E M W n) = (executeAction i k s).standing E M W n := by
  cases i with
  | beq => exact absurd rfl hi
  | _ => rfl

theorem dataAccess_standing {act : Nat → State → State}
    (hact : ∀ a, act a (s.standing E M W n) = (act a s).standing E M W n) (h : (dataAccess act k s).fault = none) :
    dataAccess act k (s.standing E M W n) = (dataAccess act k s).standing E M W n := by
  cases ha : dataIndex s.exResult with
  | some a => rw [dataAccess_in k ha, dataAccess_in (s := s.standing E M W n) k ha, hact]
  | none =>
    rw [dataAccess_out k ha] at h
    cases h

theorem memoryAction_standing (h : (memoryAction i k s).fault = none) :
    memoryAction i k (s.standing E M W n) = (memoryAction i k s).standing E M W n := by
  cases i with
  | lw => exact dataAccess_standing k E M W n (fun _ => rfl) h
  | sw => exact dataAccess_standing k E M W n (fun _ => rfl) h
  | _ => rfl

theorem writebackAction_standing :
    writebackAction i k (s.standing E M W n) = (writebackAction i k s).standing E M W n := by
  cases i <;> rfl

/-- With nothing in flight and no stage being serviced, the three actions of an instruction other than a branch leave it so. -/
theorem actions_keep_standing (hs : s.standing none none none n = s) (hi : kindOf i ≠ .beq)
    (hm : (memoryAction i k (executeAction i k s)).fault = none) :
    (writebackAction i k (memoryAction i k (executeAction i k s))).standing none none none n =
      writebackAction i k (memoryAction i k (executeAction i k s)) := by
  rw [← writebackAction_standing, ← memoryAction_standing i k _ _ _ _ hm, ← executeAction_standing i k _ _ _ _ hi, hs]

theorem standing_writeback (hs : s.standing none none none n = s) (m : Nat) :
    s.standing none none W m = { s with W := W, cycle := m } := by
  rw [← hs]
  rfl

end

/-! ### A cycle with nothing to admit -/

/-- Nothing is in Fetch or Decode, nor left to fetch. -/
structure FrontEmpty (s : State) : Prop where
  F : s.F = none
  D : s.D = none
  exhausted : s.IS.length ≤ s.pc

namespace FrontEmpty

variable {s t : State}

theorem of_sameFront (h : FrontEmpty s) (hf : SameFront t s) (hIS : t.IS = s.IS) : FrontEmpty t where
  F := hf.F.trans h.F
  D := hf.D.trans h.D
  exhausted := by
    rw [hIS, hf.pc]
    exact h.exhausted

theorem executeAction {i : Instr} (h : FrontEmpty s) (hi : kindOf i ≠ .beq) (k : Nat) : FrontEmpty (executeAction i k s) := by
  obtain ⟨v, hv⟩ := executeAction_of_ne_beq hi k s
  rw [hv]
  exact ⟨h.F, h.D, h.exhausted⟩

theorem memoryAction (h : FrontEmpty s) (i : Instr) (k : Nat) : FrontEmpty (memoryAction i k s) :=
  h.of_sameFront (.memoryAction i k s) (IS_memoryAction i k s)

theorem writebackAction (h : FrontEmpty s) (i : Instr) (k : Nat) : FrontEmpty (writebackAction i k s) :=
  h.of_sameFront (.writebackAction i k s) (congrArg State.IS (writebackAction_keeps i k s) :)

theorem standing (h : FrontEmpty s) (E M W : Option Nat) (n : Nat) : FrontEmpty (s.standing E M W n) :=
  ⟨h.F, h.D, h.exhausted⟩

/-- The Decode and Fetch steps find nothing to do. spec/40_pipeline.md R144, R145. -/
theorem younger (h : FrontEmpty s) : fetchStep (decodeStep s) = s := by
  rw [decodeStep_blocked (.inr (.inl h.F))]
  obtain ⟨-, hlt, -⟩ | ⟨-, hfetch⟩ := fetchStep_cases s
  · exact absurd hlt (Nat.not_lt.2 h.exhausted)
  · exact hfetch

/-- With nothing to admit, a cycle is its Writeback and Memory steps. -/
theorem step (h : FrontEmpty t) (hr : s.running = true) (ht : olderSteps s = .next t) (hf : t.fault = none) :
    step s = .next t.countCycle := by
  have hstep := (step_iff_runningStep hr).2 (.decodeEmpty ht hf h.D)
  rwa [h.younger] at hstep

end FrontEmpty

/-! ### The three cycles of a lone instruction -/

theorem fault_executeAction {i : Instr} (hi : kindOf i ≠ .beq) (k : Nat) (s : State) :
    (executeAction i k s).fault = s.fault := by
  obtain ⟨v, hv⟩ := executeAction_of_ne_beq hi k s
  rw [hv]
  rfl

section

variable {s : State} {k : Nat} {i : Instr}

/-- The Execute cycle of an instruction other than a branch with nothing else in flight. spec/40_pipeline.md R136, R137. -/
theorem step_lone_execute (h : FrontEmpty s.takeNext) (hs : s.fault = none) (hi : s.IS[k]? = some i) (hD : s.D = some k)
    (hF : s.F = none) (hE : s.E = none) (hM : s.M = none) (hpc : s.pc = k + 1) (hbr : kindOf i ≠ .beq) :
    step s = .next ((executeAction i k s.takeNext).standing (some k) none none (s.cycle + 1)) := by
  have holder := olderSteps_of_empty hs hE hM
  have hz : s.promoteToWriteback.promoteToMemory.hazard i = false := by
    rw [← Bool.not_eq_true]
    intro hz
    obtain hocc | hocc := occupied_of_hazard hz
    · exact hocc hE
    · exact hocc hM
  have hadmit : (s.promoteToWriteback.promoteToMemory.admitToExecute k).setServicing none =
      s.takeNext.standing (some k) none none s.cycle := by
    simp [State.promoteToWriteback, State.promoteToMemory, State.admitToExecute, State.takeNext, State.standing,
      State.setServicing, nextIndex_of_decode hD, hF, hE, hM, hpc]
  have hact : (executeAction i k (s.promoteToWriteback.promoteToMemory.admitToExecute k)).setServicing none =
      (executeAction i k s.takeNext).standing (some k) none none s.cycle := by
    rw [← executeAction_setServicing, hadmit, executeAction_standing i k _ _ _ _ hbr]
  have hclear := (fault_executeAction hbr k (s.promoteToWriteback.promoteToMemory.admitToExecute k)).trans hs
  have hstep := (step_iff_runningStep (running_of_decode hs hD)).2 (.executed holder hs hD hi hz rfl hclear)
  rwa [hact, ((h.executeAction hbr k).standing _ _ _ _).younger] at hstep

/-- The Memory cycle of an instruction that does not raise, with nothing else in flight. spec/40_pipeline.md R134, R135. -/
theorem step_lone_memory (h : FrontEmpty s) (hs : s.fault = none) (hi : s.IS[k]? = some i)
    (hm : (memoryAction i k s).fault = none) (n : Nat) :
    step (s.standing (some k) none none n) = .next ((memoryAction i k s).standing none (some k) none (n + 1)) := by
  have hr : (s.standing (some k) none none n).running = true :=
    (running_iff _).2 ⟨(not_drained_iff _).2 (.inr (.inr (.inl rfl))), hs⟩
  have hact := memoryAction_standing i k none (some k) none n hm
  have hwriteback : writebackStep (s.standing (some k) none none n) = .next (s.standing (some k) none none n) :=
    writebackStep_next.2 (.inl ⟨rfl, rfl⟩)
  have hmemory : memoryStep (s.standing (some k) none none n) = .next ((memoryAction i k s).standing none (some k) none n) :=
    memoryStep_next.2 (.inr ⟨k, i, rfl, hi, (congrArg (State.setServicing none) hact).symm⟩)
  have holder := (olderSteps_next (s := s.standing (some k) none none n) hs).2 ⟨_, hwriteback, hmemory⟩
  exact ((h.memoryAction i k).standing none (some k) none n).step hr holder hm

/-- The Writeback cycle of an instruction with nothing else in flight. spec/40_pipeline.md R132, R133. -/
theorem step_lone_writeback (h : FrontEmpty s) (hs : s.fault = none) (hi : s.IS[k]? = some i) (n : Nat) :
    step (s.standing none (some k) none n) = .next ((writebackAction i k s).standing none none (some k) (n + 1)) := by
  have hr : (s.standing none (some k) none n).running = true :=
    (running_iff _).2 ⟨(not_drained_iff _).2 (.inr (.inr (.inr (.inl rfl)))), hs⟩
  have hact := writebackAction_standing (s := s) i k none none (some k) n
  have hwriteback : writebackStep (s.standing none (some k) none n) =
      .next ((writebackAction i k s).standing none none (some k) n) :=
    writebackStep_next.2 (.inr ⟨k, i, rfl, hi, (congrArg (State.setServicing none) hact).symm⟩)
  have hmemory : memoryStep ((writebackAction i k s).standing none none (some k) n) =
      .next ((writebackAction i k s).standing none none (some k) n) :=
    memoryStep_next.2 (.inl ⟨rfl, rfl⟩)
  have holder := (olderSteps_next (s := s.standing none (some k) none n) hs).2 ⟨_, hwriteback, hmemory⟩
  have hf : (writebackAction i k s).fault = s.fault := (congrArg State.fault (writebackAction_keeps i k s) :)
  exact ((h.writebackAction i k).standing none none (some k) n).step hr holder (hf.trans hs)

end

/-- Settles O48: the three cycles run the three actions that `exec` runs one after the other. -/
theorem loneInstructionTakesThreeCyclesFromDecode : Obligations.LoneInstructionTakesThreeCyclesFromDecode := by
  intro s u k i hs hserv hD hi hF hE hM hpc hlen hbr hexec hu
  obtain ⟨he, hm, rfl⟩ := exec_whole_unfaulted (nextIndex_of_decode hD) hserv hexec hu
  have hpc : s.pc = k + 1 := hpc.trans hlen
  have htaken : FrontEmpty s.takeNext := ⟨rfl, rfl, by simp [nextIndex_of_decode hD, hlen]⟩
  have hexecuted := htaken.executeAction hbr k
  have hi₁ : (executeAction i k s.takeNext).IS[k]? = some i := (executeAction_agrees i k s.takeNext).IS ▸ hi
  have hi₂ : (memoryAction i k (executeAction i k s.takeNext)).IS[k]? = some i := by rwa [IS_memoryAction]
  have hstart : s.takeNext.standing none none none s.cycle = s.takeNext := by simp [State.takeNext, State.standing, hserv]
  rw [← standing_writeback (some k) s.cycle (actions_keep_standing i k s.cycle hstart hbr hm)]
  exact runsTo_succ.2 ⟨_, step_lone_execute htaken hs hi hD hF hE hM hpc hbr,
    runsTo_succ.2 ⟨_, step_lone_memory hexecuted he hi₁ hm (s.cycle + 1),
      runsTo_one (step_lone_writeback (hexecuted.memoryAction i k) hm hi₂ (s.cycle + 2))⟩⟩

end Sys2Proof.Machine
